-- ==== Sys2Proof/Word.lean ====
section
/-! DEFINITION. The word types of MSTS and the names its instructions are built from
(00_scope.md R7; 30_encoding.md R100, R103; 41_backend_a_fifo.md R160 to R165). -/

namespace Sys2Proof

/-- A byte is 8 bits (R7). -/
abbrev Byte := BitVec 8

/-- A half-word is one table opcode, 16 bits (R7, R100). -/
abbrev Half := BitVec 16

/-- A word is 32 bits (R7). -/
abbrev Word := BitVec 32

/-- A line width that a phase can be clocked at: 1, 2 or 4 lines (R250). The reserved width code 3 has
no constructor (R103: "no rule produces it"). -/
inductive Width where
  | w1
  | w2
  | w4
  deriving DecidableEq, Repr, Inhabited

/-- The controller register that one access of SEQ goes to (the "Encoding" of R160 to R165): `cr`, `sr`,
`tcr` are written, `tdr` is the transmit data port, `rdr` is the receive data port, which is read. -/
inductive CtlPort where
  | cr
  | sr
  | tcr
  | tdr
  | rdr
  deriving DecidableEq, Repr, Inhabited

end Sys2Proof
end

