-- ==== Sys2Proof/Syntax.lean ====
section
/-! DEFINITION. The instructions of MSTS: one constructor per row of spec/opcode_table.json. -/

namespace Sys2Proof

/-- The 22 rows of the opcode table: 7 table opcodes that ENGINE fetches (30_encoding.md R104), 2 host
commands (R108), 6 controller operations of SEQ (41_backend_a_fifo.md R160 to R165) and 7 sequencer steps
(R169 to R175). -/
inductive Instr where
  /-- STOP (R205) -/
  | stop
  /-- CMD: the instruction byte `b` at width `w` (R206) -/
  | cmd (w : Width) (b : Byte)
  /-- RADDR: `n` address bytes at width `w` (R207) -/
  | raddr (w : Width) (n : Byte)
  /-- MODE8: the mode byte `m` at width `w` (R208) -/
  | mode8 (w : Width) (m : Byte)
  /-- WRITE at width `w`; the operand `x` is ignored (R210) -/
  | write (w : Width) (x : Byte)
  /-- READ at width `w`; the operand `x` is ignored (R211) -/
  | read (w : Width) (x : Byte)
  /-- DUMMY: `c` clock cycles; the width `w` is not used (R209) -/
  | dummy (w : Width) (c : Byte)
  /-- CONFIGURE (R130) -/
  | configure
  /-- TRANSFER (R133) -/
  | transfer
  /-- FLUSH; `e` is `CR.EN` as it stands, kept (R160) -/
  | flush (e : Bool)
  /-- CLRFLAGS (R161) -/
  | clrflags
  /-- ENABLE (R162) -/
  | enable
  /-- SETCTL: `r` is RXMSK, `t` is TXMSK, `w` the width; `cpol`, `cpha`, `cont`, `contc` are those fields of
  TCR as they stand, kept (R163) -/
  | setctl (cpol cpha cont contc r t : Bool) (w : Width)
  /-- PUSH the byte `d` (R164) -/
  | push (d : Byte)
  /-- POP; `d` are the read data lanes, no operand (R165) -/
  | pop (d : Byte)
  /-- A.START (R169) -/
  | aStart
  /-- A.INSTR (R170) -/
  | aInstr
  /-- A.ADDR (R171) -/
  | aAddr
  /-- A.DUMMY (R172) -/
  | aDummy
  /-- A.DATA, write direction (R173) -/
  | aDataW
  /-- A.DATA, read direction (R174) -/
  | aDataR
  /-- A.END (R175) -/
  | aEnd
  deriving DecidableEq, Repr

end Sys2Proof
end

