-- ==== Sys2Proof/WellFormed.lean ====
section
/-! DEFINITION. Which instructions the spec admits: the constraints of the opcode table that the operand
types do not already hold. The reserved width code 3 is excluded by the type Width. -/

namespace Sys2Proof

/-- RADDR's operand is 0 to 4 (30_encoding.md R105); SETCTL with TXMSK set has RXMSK clear
(41_backend_a_fifo.md R163). -/
def Instr.wellFormed : Instr → Bool
  | .stop => true
  | .cmd _ _ => true
  | .raddr _ n => decide (n.toNat ≤ 4)
  | .mode8 _ _ => true
  | .write _ _ => true
  | .read _ _ => true
  | .dummy _ _ => true
  | .configure => true
  | .transfer => true
  | .flush _ => true
  | .clrflags => true
  | .enable => true
  | .setctl _ _ _ _ r t _ => !(r && t)
  | .push _ => true
  | .pop _ => true
  | .aStart => true
  | .aInstr => true
  | .aAddr => true
  | .aDummy => true
  | .aDataW => true
  | .aDataR => true
  | .aEnd => true

end Sys2Proof
end

