-- ==== Sys2Proof/Decode.lean ====
section
/-! DEFINITION. Encodings (30_encoding.md; spec/opcode_table.json): the fields of a table opcode, the width
code, the decoder, total and rejecting by name, and the encoder. -/

namespace Sys2Proof

/-! ## Width codes (R103) -/

/-- `wcode(line_width) = line_width >> 1`, on the literal number of lines that a descriptor holds (R103). -/
def wcode (lineWidth : BitVec 3) : BitVec 2 := (lineWidth >>> 1).setWidth 2

/-- The width code of a line width: 1, 2, 4 lines are 0, 1, 2 (R103). -/
def Width.code : Width → BitVec 2
  | .w1 => 0
  | .w2 => 1
  | .w4 => 2

/-- `lines(code) = 1 << code` (R103). -/
def Width.lines : Width → Nat
  | .w1 => 1
  | .w2 => 2
  | .w4 => 4

/-- The width a code stands for; code 3 is reserved (R103). -/
def Width.ofCode (c : BitVec 2) : Option Width :=
  if c = 0 then some .w1 else if c = 1 then some .w2 else if c = 2 then some .w4 else none

/-! ## The half-word format LUTOP (R100) -/

/-- `encode(op, w, operand) = (op << 10) | (w << 8) | operand` (R100). -/
def encodeHalf (op : BitVec 6) (w : BitVec 2) (operand : Byte) : Half :=
  (op.setWidth 16 <<< 10) ||| (w.setWidth 16 <<< 8) ||| operand.setWidth 16

/-- `OP`, bits [15:10] (R100). -/
def halfOp (h : Half) : BitVec 6 := h.extractLsb' 10 6

/-- `W`, bits [9:8] (R100). -/
def halfW (h : Half) : BitVec 2 := h.extractLsb' 8 2

/-- `OPERAND`, bits [7:0] (R100). -/
def halfOperand (h : Half) : Byte := h.extractLsb' 0 8

/-- The three fields of a half-word. -/
structure HalfFields where
  op : BitVec 6
  w : BitVec 2
  operand : Byte
  deriving DecidableEq, Repr

/-- `decode(h) = (h[15:10], h[9:8], h[7:0])`, total (R100). -/
def decodeFields (h : Half) : HalfFields := { op := halfOp h, w := halfW h, operand := halfOperand h }

/-- The operation codes of R104. -/
def opStop : BitVec 6 := 0x00
def opCmd : BitVec 6 := 0x01
def opRaddr : BitVec 6 := 0x02
def opMode8 : BitVec 6 := 0x07
def opWrite : BitVec 6 := 0x08
def opRead : BitVec 6 := 0x09
def opDummy : BitVec 6 := 0x0C

/-! ## Words packed of two half-words (R101) -/

/-- `word = (hi_opcode << 16) | lo_opcode` (R101). -/
def packHalves (lo hi : Half) : Word := (hi.setWidth 32 <<< 16) ||| lo.setWidth 32

/-- The opcode of the even slot, bits [15:0] (R101). -/
def lowHalf (w : Word) : Half := w.extractLsb' 0 16

/-- The opcode of the odd slot, bits [31:16] (R101). -/
def highHalf (w : Word) : Half := w.extractLsb' 16 16

/-! ## Where an instruction's bits stand -/

/-- Where an encoded instruction is found; equal bits in two places are two instructions. `lut`: a slot of
the table. `cmd`: the value written to the host register CMD. `ctl p`: one access of SEQ to the
controller register `p`. `seq dirWrite`: the value of PHASE, with the effective direction that selects
between A.DATA_W and A.DATA_R. -/
inductive Space where
  | lut
  | cmd
  | ctl (port : CtlPort)
  | seq (dirWrite : Bool)
  deriving DecidableEq, Repr

/-- An instruction's bits and where they stand. -/
structure CodeWord where
  space : Space
  bits : Word
  deriving DecidableEq, Repr

/-- Why bits are no instruction. -/
inductive DecodeError where
  /-- `OP` is none of the seven operation codes (R105) -/
  | reservedOp
  /-- `W = 3` (R105) -/
  | reservedWidth
  /-- `OP = 0` with `W` or `OPERAND` not zero (R105) -/
  | stopOperand
  /-- RADDR with `OPERAND > 4` (R105) -/
  | raddrOperand
  /-- bits above a table opcode's 16 -/
  | notHalfWord
  /-- a CMD code other than 1 and 2 (R108) -/
  | unknownCommand
  /-- a word SEQ never writes to this controller register (R160 to R165) -/
  | notControlWord
  /-- PHASE is P_IDLE or 7: no step (10_state.md R25) -/
  | noStep
  deriving DecidableEq, Repr

/-! ## The decoder -/

/-- `decode(h)` of R100 followed by the legality rule R105. -/
def decodeHalf (h : Half) : Except DecodeError Instr :=
  let op := halfOp h
  let x := halfOperand h
  if op = opStop then
    if halfW h = 0 ∧ x = 0 then .ok .stop else .error .stopOperand
  else if op = opCmd ∨ op = opRaddr ∨ op = opMode8 ∨ op = opWrite ∨ op = opRead ∨ op = opDummy then
    match Width.ofCode (halfW h) with
    | none => .error .reservedWidth
    | some w =>
      if op = opCmd then .ok (.cmd w x)
      else if op = opRaddr then if x.toNat ≤ 4 then .ok (.raddr w x) else .error .raddrOperand
      else if op = opMode8 then .ok (.mode8 w x)
      else if op = opWrite then .ok (.write w x)
      else if op = opRead then .ok (.read w x)
      else .ok (.dummy w x)
  else .error .reservedOp

/-- Host command codes (R108): 1 is CONFIGURE, 2 is TRANSFER. -/
def decodeCmd (v : Word) : Except DecodeError Instr :=
  if v = 1 then .ok .configure else if v = 2 then .ok .transfer else .error .unknownCommand

/-- A write of TCR by SEQ (10_state.md R31, table row SETCTL): `FRAMESZ = 7`, `PCS = 0`, `WIDTH` not 3,
not both masks. -/
def decodeTcr (v : Word) : Except DecodeError Instr :=
  if v.extractLsb' 16 16 = 0 ∧ v.extractLsb' 6 8 = 28 then
    match Width.ofCode (v.extractLsb' 0 2) with
    | none => .error .reservedWidth
    | some w =>
      if v.getLsbD 3 && v.getLsbD 2 then .error .notControlWord
      else .ok (.setctl (v.getLsbD 15) (v.getLsbD 14) (v.getLsbD 5) (v.getLsbD 4) (v.getLsbD 3) (v.getLsbD 2) w)
  else .error .notControlWord

/-- One access of SEQ to a controller register (R160 to R165; the CTLOP rows). -/
def decodeCtl (p : CtlPort) (v : Word) : Except DecodeError Instr :=
  match p with
  | .cr =>
    if v = 0x300 then .ok (.flush false)
    else if v = 0x301 then .ok (.flush true)
    else if v = 1 then .ok .enable
    else .error .notControlWord
  | .sr => if v = 0xF then .ok .clrflags else .error .notControlWord
  | .tcr => decodeTcr v
  | .tdr => if v.extractLsb' 8 24 = 0 then .ok (.push (v.extractLsb' 0 8)) else .error .notControlWord
  | .rdr => if v.extractLsb' 8 24 = 0 then .ok (.pop (v.extractLsb' 0 8)) else .error .notControlWord

/-- The step that a value of PHASE names (10_state.md R25; the SEQSTEP rows). -/
def decodePhase (dirWrite : Bool) (v : Word) : Except DecodeError Instr :=
  if v = 1 then .ok .aStart
  else if v = 2 then .ok .aInstr
  else if v = 3 then .ok .aAddr
  else if v = 4 then .ok .aDummy
  else if v = 5 then .ok (if dirWrite then .aDataW else .aDataR)
  else if v = 6 then .ok .aEnd
  else .error .noStep

/-- The decoder, total on every word of every place. -/
def decode (c : CodeWord) : Except DecodeError Instr :=
  match c.space with
  | .lut => if c.bits.extractLsb' 16 16 = 0 then decodeHalf (lowHalf c.bits) else .error .notHalfWord
  | .cmd => decodeCmd c.bits
  | .ctl p => decodeCtl p c.bits
  | .seq d => decodePhase d c.bits

/-! ## The encoder -/

/-- The word of a TCR write (10_state.md R31): CPOL, CPHA, the constants FRAMESZ = 7 and PCS = 0, CONT,
CONTC, RXMSK, TXMSK, WIDTH. The width is a code, so that a malformed one shows as code 3. -/
def tcrWord (cpol cpha cont contc r t : Bool) (code : BitVec 2) : Word :=
  0#16 ++ BitVec.ofBool cpol ++ BitVec.ofBool cpha ++ 28#8 ++ BitVec.ofBool cont ++ BitVec.ofBool contc ++
    BitVec.ofBool r ++ BitVec.ofBool t ++ code

/-- A table opcode as a code word. -/
def lutCode (op : BitVec 6) (w : BitVec 2) (x : Byte) : CodeWord :=
  ⟨.lut, (encodeHalf op w x).setWidth 32⟩

/-- The word of an instruction and the place it stands in, from the rows of spec/opcode_table.json. -/
def encode : Instr → CodeWord
  | .stop => lutCode opStop 0 0
  | .cmd w b => lutCode opCmd w.code b
  | .raddr w n => lutCode opRaddr w.code n
  | .mode8 w m => lutCode opMode8 w.code m
  | .write w x => lutCode opWrite w.code x
  | .read w x => lutCode opRead w.code x
  | .dummy w c => lutCode opDummy w.code c
  | .configure => ⟨.cmd, 1⟩
  | .transfer => ⟨.cmd, 2⟩
  | .flush e => ⟨.ctl .cr, 0#22 ++ 3#2 ++ 0#7 ++ BitVec.ofBool e⟩
  | .clrflags => ⟨.ctl .sr, 0xF⟩
  | .enable => ⟨.ctl .cr, 1⟩
  | .setctl cpol cpha cont contc r t w => ⟨.ctl .tcr, tcrWord cpol cpha cont contc r t w.code⟩
  | .push d => ⟨.ctl .tdr, d.setWidth 32⟩
  | .pop d => ⟨.ctl .rdr, d.setWidth 32⟩
  | .aStart => ⟨.seq false, 1⟩
  | .aInstr => ⟨.seq false, 2⟩
  | .aAddr => ⟨.seq false, 3⟩
  | .aDummy => ⟨.seq false, 4⟩
  | .aDataW => ⟨.seq true, 5⟩
  | .aDataR => ⟨.seq false, 5⟩
  | .aEnd => ⟨.seq false, 6⟩

/-- The bits the opcode table gives the instruction's row (16, 32 or 3). -/
def Instr.widthBits (i : Instr) : Nat :=
  match (encode i).space with
  | .lut => 16
  | .cmd => 32
  | .ctl _ => 32
  | .seq _ => 3

/-! ## Words of the opcode table without their place (log 17) -/

/-- The places where a word of `nbits` bits can stand, in the order they are tried: a value of PHASE for 8
bits or fewer, a table opcode for 16, and for 32 bits CMD before the controller registers. -/
def tablePlaces (nbits w : Nat) : List CodeWord :=
  let v := BitVec.ofNat 32 w
  if nbits ≤ 8 then [⟨.seq true, v⟩]
  else if nbits ≤ 16 then [⟨.lut, v⟩]
  else [⟨.cmd, v⟩, ⟨.ctl .cr, v⟩, ⟨.ctl .sr, v⟩, ⟨.ctl .tcr, v⟩, ⟨.ctl .tdr, v⟩, ⟨.ctl .rdr, v⟩]

/-- The first place of the list in which the word is an instruction. -/
def firstPlace : List CodeWord → Option (CodeWord × Instr)
  | [] => none
  | c :: cs =>
    match decode c with
    | .ok i => some (c, i)
    | .error _ => firstPlace cs

/-- The place in which the bare word `w` is read as an instruction. -/
def tablePlace (nbits w : Nat) : Option (CodeWord × Instr) :=
  if w < 2 ^ nbits ∧ w < 2 ^ 32 then firstPlace (tablePlaces nbits w) else none

/-- The instruction the decoder reads from the bare word `w`. Three rows share every word with another row
of the same length and are not read this way: ENABLE (1 is CONFIGURE), POP (PUSH) and A.DATA_R (A.DATA_W);
`decode` tells them apart by their place (log 17). -/
def decodeTableWord (nbits w : Nat) : Option Instr := (tablePlace nbits w).map Prod.snd

end Sys2Proof
end

