-- ==== Sys2Proof/Config.lean ====
section
/-! DEFINITION. What one MSTS is built with (00_scope.md R6), the alphabet of its outside world (R9, R10),
and the values the spec leaves free. A free value is an opaque constant, so no proof can see it. -/

namespace Sys2Proof

/-- The backend of an instance, fixed for its life (R2). -/
inductive Backend where
  | A
  | B
  deriving DecidableEq, Repr, Inhabited

/-- The parameters of an instance (R6, R48). No step changes them. -/
structure Params where
  /-- `BACKEND` -/
  backend : Backend
  /-- `INSTANCE_ID`, which selects the instance and nothing else (R133, R284) -/
  instanceId : Nat
  /-- `INPUT_CLK_HZ` -/
  inputClkHz : Word
  /-- `TXFIFO_DEPTH`, in byte entries, 1 to 255 -/
  txDepth : Nat
  /-- `RXFIFO_DEPTH`, in byte entries, 1 to 255 -/
  rxDepth : Nat
  /-- `BOOTSTRAP_SEQ`, word 0 -/
  boot0 : Word
  /-- `BOOTSTRAP_SEQ`, word 1 -/
  boot1 : Word
  /-- `BOOTSTRAP_SEQ`, word 2 -/
  boot2 : Word
  /-- `BOOTSTRAP_SEQ`, word 3 -/
  boot3 : Word
  /-- `CS_SETUP` of Backend A, in bus clock cycles: a lower bound that only orders events (R256) -/
  csSetup : Nat
  /-- `CS_HOLD` of Backend A -/
  csHold : Nat
  /-- `CS_INTERVAL` of Backend A -/
  csInterval : Nat
  deriving DecidableEq, Repr, Inhabited

/-- The depths that R6 admits. -/
def Params.wf (p : Params) : Bool :=
  decide (1 ≤ p.txDepth ∧ p.txDepth ≤ 255 ∧ 1 ≤ p.rxDepth ∧ p.rxDepth ≤ 255)

/-- DESIGN CHOICE (log 2): the instance that `State.reset` describes. The bootstrap sequence is the spec's
own default (R6). -/
def Params.default : Params :=
  { backend := .A, instanceId := 0, inputClkHz := 0, txDepth := 32, rxDepth := 32,
    boot0 := 0x2400049F#32, boot1 := 0, boot2 := 0, boot3 := 0,
    csSetup := 0, csHold := 0, csInterval := 0 }

/-- A bus event (R9). `out`, `inp` and `dmy` are the spec's OUT, IN and DMY. -/
inductive Event where
  | csLow
  | csHigh
  | out (w : Width) (b : Byte)
  | inp (w : Width) (b : Byte)
  | dmy (cycles : Nat)
  deriving DecidableEq, Repr, Inhabited

/-- One action of HOST (R10): an access to the host port by register number (10_state.md R46), or one to
its own buffer (20_memory.md R70). -/
inductive HostAct where
  | writeReg (number : BitVec 8) (value : Word)
  | readReg (number : BitVec 8)
  | writeBuf (index : BitVec 32) (value : Byte)
  | readBuf (index : BitVec 32)
  deriving DecidableEq, Repr, Inhabited

/-- The environment inputs of R6, as levels (log 9): `stall` (ENGINE may not step), `initFail` (the
hardware-init path fails), `extFail` (the table engine abandons its sequence at this step). -/
structure Pins where
  stall : Bool
  initFail : Bool
  extFail : Bool
  deriving DecidableEq, Repr, Inhabited

/-- Who moves next (R10; log 1): an agent of the block, the chip-select machine, or the outside world
changing an input or applying reset (70_reset_and_hazards.md R300). -/
inductive Turn where
  | host (act : HostAct)
  | seq
  | engine
  | cs
  | setPins (pins : Pins)
  | reset
  deriving DecidableEq, Repr, Inhabited

/-- `periph` (R6, R76, U17): the byte the peripheral answers, given the whole bus trace so far. The first
argument is the free-value counter, so that two equal traces need not be answered alike; the second holds the traces
that earlier resets cut, which the peripheral has seen too (70_reset_and_hazards.md R300; log 8). -/
opaque Config.periph : Nat → List (List Event) → List Event → Byte

/-- Whose turn it is when State lists no turn (log 1): "SEQ and ENGINE interleave freely" (R10). -/
opaque Config.turn : Nat → Turn

/-- A byte the spec gives no value: the byte of a dummy frame (R167), `BUF` after a hardware failure (U8).
Arguments: the free-value counter and the byte's index. -/
opaque Config.freeByte : Nat → Nat → Byte

/-- A configuration register after a configuration failure (R274, U10). -/
opaque Config.freeWord : Nat → Word

/-- `baud_div` (R6, D30): "any total function" of the input clock and the requested rate. The field that
holds it has 24 bits (10_state.md R32; log 21). -/
opaque Config.baudDiv : Word → Word → BitVec 24

/-- DESIGN CHOICE (log 25): the level at which `SCK` idles on Backend B. R253 and R262 say `CPOL`, and Backend B has
no register that holds one. -/
opaque Config.sckIdleB : Bool

/-- The level of a data pin that MSTS does not drive (R253, U13; log 22), in one cycle of one event. Arguments: the
free-value counter, the traces that earlier resets cut, the trace before the event, the event, the cycle, the line. -/
opaque Config.padLevel : Nat → List (List Event) → List Event → Event → Nat → Nat → Bool

end Sys2Proof
end

