-- ==== Sys2Proof/Machine/State.lean ====
section
/-! DEFINITION. Everything the spec gives the machine (10_state.md), as plain data, the reasons it stops, and
the machine right after reset. -/

namespace Sys2Proof.Machine

/-- `STATE` (R21). -/
inductive RunState where
  | uninit
  | idle
  | xfer
  deriving DecidableEq, Repr, Inhabited

/-- `PHASE` (R25). -/
inductive Phase where
  | pIdle
  | pStart
  | pInstr
  | pAddr
  | pDummy
  | pData
  | pEnd
  deriving DecidableEq, Repr, Inhabited

/-- `IPCR1.XTYPE` (R41); code 3 is reserved and never written. -/
inductive Xtype where
  | command
  | read
  | write
  deriving DecidableEq, Repr, Inhabited

/-- `CS_STATE` (R44). -/
inductive CsState where
  | idle
  | setup
  | active
  | hold
  | interval
  deriving DecidableEq, Repr, Inhabited

/-- Bytes by index, strictly rising, no entry equal to the unlisted byte (`Memory.wf` in Machine/Ops.lean). -/
abbrev Memory := List Host.Cell

/-- The conditions SEQ waits for: the three named predicates of R168, completion (R214), and the
chip-select conditions of R256, R257 and R259. -/
inductive WaitPred where
  | txDrained
  | txNotFull
  | rxAvail
  | csAsserted
  | readyToEnd
  | done
  | csReleased
  deriving DecidableEq, Repr, Inhabited

/-- One line of a step's pseudocode that SEQ has still to perform (log 12). -/
inductive SeqOp where
  /-- an access to a controller register: a CTLOP instruction, encoded -/
  | ctl (port : CtlPort) (word : Word)
  /-- `wait_until(p)` (R168) -/
  | wait (p : WaitPred)
  /-- `TCR.CONT <- 1 ; TCR.CONTC <- 1` (R169) -/
  | contOn
  /-- `TCR.CONTC <- 0 ; TCR.CONT <- 0` (R175) -/
  | contOff
  /-- the next round of `for IDX in ..` -/
  | nextIdx
  /-- `MemWrite(BUF, IDX, 1, b)` with `b` the byte last popped (R174) -/
  | bufStore
  /-- `pc <- target` -/
  | goto (target : Phase)
  /-- `SR.XFER_DONE <- 1` (R175) -/
  | xferDone
  /-- LOAD of the compiled program (R202) -/
  | load (p0 p1 p2 p3 : Word)
  /-- ISSUE (R203) -/
  | issue
  /-- the command's result (R133, R139, R215) -/
  | result
  deriving DecidableEq, Repr, Inhabited

/-- The causes of a malformed descriptor, in the order they are checked (60_exceptions.md R271). -/
inductive Cause where
  | badWidth
  | badDir
  | addrSize
  | altSize
  | scratchOverflow
  | dummyRange
  | noBuffer
  deriving DecidableEq, Repr, Inhabited

/-- The error kinds a command can end in (60_exceptions.md R270). -/
inductive ErrorKind where
  | configFailure
  | malformed (cause : Cause)
  | hwFailure
  | notConfigured
  deriving DecidableEq, Repr, Inhabited

/-- What becomes of a TRANSFER in STATE = IDLE (R133, R134, R23): its descriptor is read and either found
unwritten, malformed or accepted. -/
inductive Verdict where
  | unwritten
  | malformed (cause : Cause)
  | accepted
  deriving DecidableEq, Repr, Inhabited

/-- The host port's registers: `STATE`, `CONFIGURED`, the result registers (R21, R22, R26), `CFG_ARG0` to
`CFG_ARG3` (R46), and the read data of the last host read (the model's own, log 18). -/
structure HostPort where
  st : RunState
  configured : Bool
  resStatus : BitVec 8
  resCause : BitVec 8
  resCount : BitVec 32
  cfgArg0 : Word
  cfgArg1 : Word
  cfgArg2 : Word
  cfgArg3 : Word
  rdata : Word
  deriving DecidableEq, Repr, Inhabited

/-- The descriptor registers D0 to D7 (R24), and for each whether the host has written it since reset:
bit `i` of `written` for D`i` ("a register never written holds no value", 70_reset_and_hazards.md R302). -/
structure Desc where
  d0 : Word
  d1 : Word
  d2 : Word
  d3 : Word
  d4 : Word
  d5 : Word
  d6 : Word
  d7 : Word
  written : BitVec 8
  deriving DecidableEq, Repr, Inhabited

/-- SEQ (R25): `PHASE`, `IDX`, and the model's own control state: the lines still to be performed and the
byte last popped (log 12). -/
structure Seq where
  phase : Phase
  idx : BitVec 32
  ops : List SeqOp
  popData : Byte
  deriving DecidableEq, Repr, Inhabited

/-- `SR`'s sticky flags (R28). -/
structure Sr where
  frameDone : Bool
  xferDone : Bool
  txErr : Bool
  rxErr : Bool
  deriving DecidableEq, Repr, Inhabited

/-- `TCR` (R31). -/
structure Tcr where
  width : Width
  txmsk : Bool
  rxmsk : Bool
  contc : Bool
  cont : Bool
  pcs : BitVec 2
  framesz : BitVec 5
  cpha : Bool
  cpol : Bool
  deriving DecidableEq, Repr, Inhabited

/-- `CFGR` (R32). -/
structure Cfgr where
  pcspol : Bool
  master : Bool
  baudDiv : BitVec 24
  deriving DecidableEq, Repr, Inhabited

/-- `FCR` (R33). -/
structure Fcr where
  txwater : BitVec 8
  rxwater : BitVec 8
  deriving DecidableEq, Repr, Inhabited

/-- Backend A (R27 to R37). `FSR` and `PARAM` are views (Machine/Flags.lean). -/
structure CtlA where
  en : Bool
  sr : Sr
  tcr : Tcr
  cfgr : Cfgr
  fcr : Fcr
  txf : List Byte
  rxf : List Byte
  scratch : Memory
  shiftBusy : Bool
  deriving DecidableEq, Repr, Inhabited

/-- `MCR` (R38). -/
structure Mcr where
  prefetchEn : Bool
  bufferableEn : Bool
  cacheableEn : Bool
  rxclksrc : BitVec 2
  deriving DecidableEq, Repr, Inhabited

/-- `FLSHCR1` (R39). -/
structure Flshcr1 where
  csSetup : BitVec 8
  csHold : BitVec 8
  csInterval : BitVec 8
  deriving DecidableEq, Repr, Inhabited

/-- The lookup table's eight words (R40). -/
structure Lut where
  w0 : Word
  w1 : Word
  w2 : Word
  w3 : Word
  w4 : Word
  w5 : Word
  w6 : Word
  w7 : Word
  deriving DecidableEq, Repr, Inhabited

/-- `STS` (R42). -/
structure Sts where
  done : Bool
  fail : Bool
  busy : Bool
  deriving DecidableEq, Repr, Inhabited

/-- Backend B (R38 to R43). -/
structure CtlB where
  mcr : Mcr
  flashSize : Word
  flshcr1 : Flshcr1
  lut : Lut
  ipAddr : Word
  ipXtype : Xtype
  ipSeq : BitVec 4
  ipLen : BitVec 32
  sts : Sts
  slot : BitVec 4
  bidx : BitVec 32
  deriving DecidableEq, Repr, Inhabited

/-- The outside world: the levels of the environment inputs (log 9), the turns still to be taken (log 1), the counter
that the free values are applied to (log 11), and the traces that earlier resets cut, oldest first, which the
peripheral has seen (R300; log 8). All four are the model's own. -/
structure Env where
  pins : Pins
  turns : List Turn
  free : Nat
  past : List (List Event)
  deriving DecidableEq, Repr, Inhabited

/-- One MSTS instance and what it is connected to (R20). -/
structure State where
  /-- the parameters (R48), changed by no step -/
  params : Params
  host : HostPort
  desc : Desc
  seq : Seq
  a : CtlA
  b : CtlB
  /-- `CS_STATE` (R44) -/
  cs : CsState
  /-- `BUF`, the host's data buffer (20_memory.md R70) -/
  buf : Memory
  /-- `TRACE` (R45), oldest event first, in the normal form of R9 -/
  trace : List Event
  env : Env
  deriving DecidableEq, Repr, Inhabited

/-- Why the machine stops with a fault. Each is safe: nothing is claimed of a state after it. -/
inductive Fault where
  /-- PUSH into a full transmit FIFO (R164, R277). Raised by PUSH. Safe. -/
  | txOverflow
  /-- POP of an empty receive FIFO (R165, R277). Raised by POP. Safe. -/
  | rxUnderflow
  /-- TRANSFER reads a descriptor register that the host has not written since reset: the spec's own fault (R23, R277, U7).
  Raised by TRANSFER. Safe. -/
  | unwrittenDescriptor
  /-- a table word index above 7, which does not exist (R75: no rule produces one). Raised by the fetch of
  the table engine. Safe. -/
  | lutIndex
  /-- a scratch index above 31, which does not exist (R311: no rule produces one). Raised by A.ADDR. Safe. -/
  | scratchBound
  deriving DecidableEq, Repr

/-- Why the model gives no meaning. Each is safe. -/
inductive Refusal where
  /-- the instruction has no meaning in the model yet. Raised by exec's arms. Safe. -/
  | notModelled (mnemonic : String)
  /-- `CMD` written while STATE = XFER (R273). Raised by CONFIGURE and TRANSFER. Safe. -/
  | commandDuringTransfer
  /-- a `CMD` code other than 1 and 2 (R108, R273). Raised by a host write of CMD. Safe. -/
  | unknownCommand
  /-- a host action other than a command while STATE = XFER (R84, R273, R312). Raised by host turns. Safe. -/
  | hostBlocked
  /-- a host write to a read-only register (R273). Raised by host turns. Safe. -/
  | readOnlyRegister
  /-- a host read of CMD, "write-only trigger" (R46). Raised by host turns. Safe. -/
  | writeOnlyRegister
  /-- a host access to a number not in R46 (R273). Raised by host turns. Safe. -/
  | noSuchRegister
  /-- a word on SEQ's register accesses that is no CTLOP: WIDTH = 3 is "never written" (R31). Raised by SEQ
  turns; no validated descriptor leads there (log 19). Safe. -/
  | undecodableControlWord
  deriving DecidableEq, Repr

/-- The machine right after reset, for given parameters (R47, R300). D0 to D7, CFG_ARG0 to CFG_ARG3,
BAUD_DIV, SCRATCH and the table have no reset value in the spec: DESIGN CHOICE 0 (logs 4, 5, 6). -/
def State.resetWith (p : Params) : State :=
  { params := p
    host := { st := .uninit, configured := false, resStatus := 0, resCause := 0, resCount := 0,
              cfgArg0 := 0, cfgArg1 := 0, cfgArg2 := 0, cfgArg3 := 0, rdata := 0 }
    desc := { d0 := 0, d1 := 0, d2 := 0, d3 := 0, d4 := 0, d5 := 0, d6 := 0, d7 := 0, written := 0 }
    seq := { phase := .pIdle, idx := 0, ops := [], popData := 0 }
    a := { en := false
           sr := { frameDone := false, xferDone := false, txErr := false, rxErr := false }
           tcr := { width := .w1, txmsk := false, rxmsk := false, contc := false, cont := false,
                    pcs := 0, framesz := 7, cpha := false, cpol := false }
           cfgr := { pcspol := false, master := true, baudDiv := 0 }
           fcr := { txwater := 0, rxwater := 0 }
           txf := [], rxf := [], scratch := [], shiftBusy := false }
    b := { mcr := { prefetchEn := false, bufferableEn := false, cacheableEn := false, rxclksrc := 0 }
           flashSize := 0
           flshcr1 := { csSetup := 0, csHold := 0, csInterval := 0 }
           lut := { w0 := 0, w1 := 0, w2 := 0, w3 := 0, w4 := 0, w5 := 0, w6 := 0, w7 := 0 }
           ipAddr := 0, ipXtype := .command, ipSeq := 0, ipLen := 0
           sts := { done := false, fail := false, busy := false }
           slot := 0, bidx := 0 }
    cs := .idle
    buf := []
    trace := []
    env := { pins := { stall := false, initFail := false, extFail := false }, turns := [], free := 0,
             past := [] } }

/-- The machine right after power-up reset, with the parameters of log 2. -/
def State.reset : State := State.resetWith Params.default

end Sys2Proof.Machine
end

