-- ==== Sys2Proof/Machine/Operands.lean ====
section
/-! DEFINITION. The operands of TRANSFER and CONFIGURE: the fields of the descriptor image (10_state.md R24),
the phase predicates (40_host_commands.md R135, R137), serialisation (20_memory.md R71), validation (R134),
and the operand words each backend assembles from them (30_encoding.md R110, R111). -/

namespace Sys2Proof.Machine

/-! ## Descriptor fields (R24) -/

/-- `instruction.content`, D0[7:0]. -/
def Desc.instrContent (d : Desc) : Byte := d.d0.extractLsb' 0 8
/-- `instruction.line_width`, D0[10:8]. -/
def Desc.instrLw (d : Desc) : BitVec 3 := d.d0.extractLsb' 8 3
/-- `address.content`, D1. -/
def Desc.addrContent (d : Desc) : Word := d.d1
/-- `address.size`, D2[2:0]. -/
def Desc.addrSize (d : Desc) : Nat := (d.d2.extractLsb' 0 3).toNat
/-- `address.line_width`, D2[6:4]. -/
def Desc.addrLw (d : Desc) : BitVec 3 := d.d2.extractLsb' 4 3
/-- `alternate_bytes.content`, D3. -/
def Desc.altContent (d : Desc) : Word := d.d3
/-- `alternate_bytes.size`, D4[5:0]. -/
def Desc.altSize (d : Desc) : Nat := (d.d4.extractLsb' 0 6).toNat
/-- `alternate_bytes.line_width`, D4[10:8]. -/
def Desc.altLw (d : Desc) : BitVec 3 := d.d4.extractLsb' 8 3
/-- `dummy_cycles`, D5. -/
def Desc.dummyCycles (d : Desc) : Word := d.d5
/-- `data.direction`, D6[1:0] (R109): 0 none, 1 read, 2 write, 3 malformed. -/
def Desc.direction (d : Desc) : BitVec 2 := d.d6.extractLsb' 0 2
/-- `data.buffer` present, D6[2]. -/
def Desc.bufferPresent (d : Desc) : Bool := d.d6.getLsbD 2
/-- `data.line_width`, D6[6:4]. -/
def Desc.dataLw (d : Desc) : BitVec 3 := d.d6.extractLsb' 4 3
/-- `data.length`, D7. -/
def Desc.length (d : Desc) : BitVec 32 := d.d7

/-! ## Host writes of the descriptor (R24) -/

/-- A host write of D`i`: "Bits not listed are reserved: written values are ignored, reads return 0" (R24).
The register is marked written (R23). -/
def Desc.hostWrite (d : Desc) (i : BitVec 3) (v : Word) : Desc :=
  let d := { d with written := d.written ||| (1#8 <<< i.toNat) }
  if i = 0 then { d with d0 := v &&& 0x7FF#32 }
  else if i = 1 then { d with d1 := v }
  else if i = 2 then { d with d2 := v &&& 0x77#32 }
  else if i = 3 then { d with d3 := v }
  else if i = 4 then { d with d4 := v &&& 0x73F#32 }
  else if i = 5 then { d with d5 := v }
  else if i = 6 then { d with d6 := v &&& 0x77#32 }
  else { d with d7 := v }

/-- Whether the host has written D`i` since reset. -/
def Desc.has (d : Desc) (i : Nat) : Bool := d.written.getLsbD i

/-! ## Phase presence (R135) -/

def Desc.instrPresent (d : Desc) : Bool := decide (d.instrLw ≠ 0)
/-- Backend A's combined address and mode phase. -/
def Desc.addrPresent (d : Desc) : Bool := decide (0 < d.addrSize + d.altSize ∧ d.addrLw ≠ 0)
/-- Backend B's address opcode. -/
def Desc.raddrPresent (d : Desc) : Bool := decide (0 < d.addrSize ∧ d.addrLw ≠ 0)
/-- Backend B's mode opcode. -/
def Desc.modePresent (d : Desc) : Bool := decide (0 < d.altSize ∧ d.altLw ≠ 0)
def Desc.dummyPresent (d : Desc) : Bool := decide (d.dummyCycles ≠ 0)
def Desc.dataPresent (d : Desc) : Bool := decide (d.length ≠ 0 ∧ d.dataLw ≠ 0)

/-- `data.direction = write` (R109, R137). -/
def Desc.dirWrite (d : Desc) : Bool := decide (d.direction = 2)
/-- `data.direction = read` (R109, R137). -/
def Desc.dirRead (d : Desc) : Bool := decide (d.direction = 1)

/-! ## Serialisation (20_memory.md R71; R138) -/

/-- `serialise(content, size)`: the low `size` bytes, most significant first. A shift by 32 or more gives 0. -/
def serialise (content : Word) (size : Nat) : List Byte :=
  (List.range size).map fun i => (content >>> (8 * (size - 1 - i))).setWidth 8

/-- `addr_bytes(desc)`: the address bytes, then the mode bytes (R138). -/
def Desc.addrBytes (d : Desc) : List Byte :=
  serialise d.addrContent d.addrSize ++ serialise d.altContent d.altSize

/-- The number of dummy frames of Backend A, `dummy_cycles / 2` (R111, R141). -/
def Desc.dummyFrames (d : Desc) : Word := d.dummyCycles >>> 1

/-! ## Validation (R134) -/

/-- `line_width` in {0, 1, 2, 4} (check 1). -/
def lwLegal (lw : BitVec 3) : Bool := decide (lw = 0 ∨ lw = 1 ∨ lw = 2 ∨ lw = 4)

/-- `ALT_MAX`: 32 on Backend A, 1 on Backend B (R6). -/
def altMax : Backend → Nat
  | .A => 32
  | .B => 1

/-- Checks 1 to 5 of R134, over D0, D2, D4 and D6. -/
def Desc.checkShape (d : Desc) (k : Backend) : Option Cause :=
  if !(lwLegal d.instrLw && lwLegal d.addrLw && lwLegal d.altLw && lwLegal d.dataLw) then some .badWidth
  else if d.direction = 3 then some .badDir
  else if 4 < d.addrSize then some .addrSize
  else if altMax k < d.altSize then some .altSize
  else if k = .A ∧ d.addrPresent ∧ 32 < d.addrSize + d.altSize then some .scratchOverflow
  else none

/-- Check 6 of R134, over D5. -/
def Desc.checkDummy (d : Desc) (k : Backend) : Option Cause :=
  if k = .B ∧ 255 < d.dummyCycles.toNat then some .dummyRange else none

/-- Check 7 of R134, over D6 and D7. -/
def Desc.checkBuffer (d : Desc) : Option Cause :=
  if d.dataPresent && !((d.dirWrite || d.dirRead) && d.bufferPresent) then some .noBuffer else none

/-- `validate(desc)`: the first check that fails decides the cause (R134, R279). -/
def Desc.validate (d : Desc) (k : Backend) : Option Cause :=
  match d.checkShape k with
  | some c => some c
  | none =>
    match d.checkDummy k with
    | some c => some c
    | none => d.checkBuffer

/-- Whether the transfer puts bytes of `address.content` on the bus. -/
def Desc.usesAddr (d : Desc) (k : Backend) : Bool :=
  match k with
  | .A => d.addrPresent && decide (0 < d.addrSize)
  | .B => d.raddrPresent

/-- Whether the transfer puts bytes of `alternate_bytes.content` on the bus. -/
def Desc.usesAlt (d : Desc) (k : Backend) : Bool :=
  match k with
  | .A => d.addrPresent && decide (0 < d.altSize)
  | .B => d.modePresent

/-- The checks of R134 in their order, stopping at the first descriptor register that is read and has not
been written since reset (R23: "a TRANSFER that reads one as a fault"). D0, D2, D4, D6 are read by checks 1
to 5, D5 by check 6 (Backend B) or by the dummy phase, D7 by check 7, D1 and D3 only for bytes they give. -/
def Desc.verdict (d : Desc) (k : Backend) : Verdict :=
  if !(d.has 0 && d.has 2 && d.has 4 && d.has 6) then .unwritten
  else match d.checkShape k with
    | some c => .malformed c
    | none =>
      if decide (k = .B) && !d.has 5 then .unwritten
      else match d.checkDummy k with
        | some c => .malformed c
        | none =>
          if !d.has 7 then .unwritten
          else match d.checkBuffer with
            | some c => .malformed c
            | none =>
              if !d.has 5 || (d.usesAddr k && !d.has 1) || (d.usesAlt k && !d.has 3) then .unwritten
              else .accepted

/-! ## Backend A's register accesses (R111, R160 to R165) -/

/-- `SETCTL(w, rxmsk, txmsk)` as the word written to TCR: the kept fields as they stand (R163). `lw` is the
literal number of lines. -/
def setctlOp (t : Tcr) (lw : BitVec 3) (rxmsk txmsk : Bool) : SeqOp :=
  .ctl .tcr (tcrWord t.cpol t.cpha t.cont t.contc rxmsk txmsk (wcode lw))

/-- `PUSH(b)` as a write of the transmit data port (R164). -/
def pushOp (b : Byte) : SeqOp := .ctl .tdr (b.setWidth 32)

/-- `POP` as a read of the receive data port (R165). -/
def popOp : SeqOp := .ctl .rdr 0

/-- `FLUSH` as a write of CR with `EN` kept (R160). -/
def flushOp (en : Bool) : SeqOp := .ctl .cr (encode (.flush en)).bits

/-- `CLRFLAGS` as a write of SR (R161). -/
def clrflagsOp : SeqOp := .ctl .sr 0xF

/-- `ENABLE` as a write of CR (R162). -/
def enableOp : SeqOp := .ctl .cr 1

/-! ## Backend B's program (42_backend_b_lut.md R200; 30_encoding.md R110) -/

/-- The opcodes `put` writes for the phases, in order (R200, R110). -/
def Desc.opcodes (d : Desc) : List Half :=
  (if d.instrPresent then [encodeHalf opCmd (wcode d.instrLw) d.instrContent] else []) ++
  (if d.raddrPresent then [encodeHalf opRaddr (wcode d.addrLw) (BitVec.ofNat 8 d.addrSize)] else []) ++
  (if d.modePresent then [encodeHalf opMode8 (wcode d.altLw) (d.altContent.setWidth 8)] else []) ++
  (if d.dummyPresent then [encodeHalf opDummy 2 (d.dummyCycles.setWidth 8)] else []) ++
  (if d.dataPresent then [encodeHalf (if d.dirRead then opRead else opWrite) (wcode d.dataLw) 0] else [])

/-- The half-word of slot `i`: the opcode put there, or STOP, which is 0 (R200, R201). -/
def slotOf (ops : List Half) (i : Nat) : Half := ops.getD i 0

/-- Word `i` of the program: slot `2 * i` low, slot `2 * i + 1` high (R201). -/
def programWord (ops : List Half) (i : Nat) : Word := packHalves (slotOf ops (2 * i)) (slotOf ops (2 * i + 1))

/-- `COMPILE(desc)` (R200). -/
def Desc.compile (d : Desc) : List Word := (List.range 4).map (programWord d.opcodes)

/-- The half-words decoded into their fields, up to and excluding the first STOP, whose one encoding is 0x0000
(30_encoding.md R105, R113). An illegal half-word is listed like any other. -/
def decodeHalves : List Half → List HalfFields
  | [] => []
  | h :: hs => if h = 0 then [] else decodeFields h :: decodeHalves hs

/-- The half-words of a list of table words, in slot order (R102). -/
def slotsOf : List Word → List Half
  | [] => []
  | w :: ws => lowHalf w :: highHalf w :: slotsOf ws

/-- `decode_seq(words)` (R113). -/
def decodeSeq (ws : List Word) : List HalfFields := decodeHalves (slotsOf ws)

/-! ## The target address, request type and length of ISSUE (R203) -/

def Desc.issueAddr (d : Desc) : Word := if d.raddrPresent then d.addrContent else 0

def Desc.issueXtype (d : Desc) : Xtype :=
  if !d.dataPresent then .command else if d.dirRead then .read else .write

def Desc.issueLen (d : Desc) : BitVec 32 := if d.dataPresent then d.length else 0

/-- The count a successful TRANSFER returns (R139): with no data phase, 0 on Backend A and the sentinel 1 on
Backend B. -/
def Desc.okCount (d : Desc) (k : Backend) : BitVec 32 :=
  if d.dataPresent then d.length else match k with
    | .A => 0
    | .B => 1

/-! ## Traces of a transfer that ends (41 R177, 42 R217) -/

/-- The width of a legal, non-zero number of lines. -/
def widthOf (lw : BitVec 3) : Width := (Width.ofCode (wcode lw)).getD .w1

/-- The events of the data phase, given the buffer's bytes (write) or the sampled bytes (read) in order. -/
def Desc.dataEvents (d : Desc) (bytes : List Byte) : List Event :=
  if d.dataPresent then
    bytes.map fun b => if d.dirWrite then Event.out (widthOf d.dataLw) b else Event.inp (widthOf d.dataLw) b
  else []

/-- `DMY(c)` in normal form: nothing when `c = 0` (R9). -/
def dmyEvents (c : Nat) : List Event := if c = 0 then [] else [.dmy c]

/-- `trace_A(desc)` (R177). -/
def Desc.traceA (d : Desc) (bytes : List Byte) : List Event :=
  [.csLow] ++
  (if d.instrPresent then [.out (widthOf d.instrLw) d.instrContent] else []) ++
  (if d.addrPresent then d.addrBytes.map (Event.out (widthOf d.addrLw)) else []) ++
  dmyEvents (2 * d.dummyFrames.toNat) ++
  d.dataEvents bytes ++ [.csHigh]

/-- `trace_B(desc)` (R217). -/
def Desc.traceB (d : Desc) (bytes : List Byte) : List Event :=
  [.csLow] ++
  (if d.instrPresent then [.out (widthOf d.instrLw) d.instrContent] else []) ++
  (if d.raddrPresent then (serialise d.addrContent d.addrSize).map (Event.out (widthOf d.addrLw)) else []) ++
  (if d.modePresent then [.out (widthOf d.altLw) (d.altContent.setWidth 8)] else []) ++
  dmyEvents d.dummyCycles.toNat ++
  d.dataEvents bytes ++ [.csHigh]

end Sys2Proof.Machine
end

