-- ==== Sys2Proof/Machine/Flags.lean ====
section
/-! DEFINITION. Flags and register images: the words a host read returns (10_state.md R21 to R46), the wait
predicates (41_backend_a_fifo.md R168) and the chip-select request and pin (43_linemux_and_cs.md R255, R256). -/

namespace Sys2Proof.Machine

/-! ## Codes (D28 of 92_eei_decisions.md) -/

def RunState.code : RunState → BitVec 2
  | .uninit => 0
  | .idle => 1
  | .xfer => 2

def Phase.code : Phase → BitVec 3
  | .pIdle => 0
  | .pStart => 1
  | .pInstr => 2
  | .pAddr => 3
  | .pDummy => 4
  | .pData => 5
  | .pEnd => 6

def Phase.ofCode (c : BitVec 3) : Phase :=
  if c = 1 then .pStart else if c = 2 then .pInstr else if c = 3 then .pAddr else if c = 4 then .pDummy
  else if c = 5 then .pData else if c = 6 then .pEnd else .pIdle

def Xtype.code : Xtype → BitVec 2
  | .command => 0
  | .read => 1
  | .write => 2

def CsState.code : CsState → BitVec 3
  | .idle => 0
  | .setup => 1
  | .active => 2
  | .hold => 3
  | .interval => 4

/-- `RES_CAUSE` (60_exceptions.md R271). -/
def Cause.code : Cause → BitVec 8
  | .badWidth => 1
  | .badDir => 2
  | .addrSize => 3
  | .altSize => 4
  | .scratchOverflow => 5
  | .dummyRange => 6
  | .noBuffer => 7

/-- `RES_STATUS` (R270). -/
def ErrorKind.code : ErrorKind → BitVec 8
  | .configFailure => 1
  | .malformed _ => 2
  | .hwFailure => 3
  | .notConfigured => 4

/-- `RES_CAUSE` of an error: "0 otherwise" (R26). -/
def ErrorKind.cause : ErrorKind → BitVec 8
  | .malformed c => c.code
  | .configFailure => 0
  | .hwFailure => 0
  | .notConfigured => 0

/-! ## Register images -/

/-- `b` at bit `i`. -/
def bitAt (b : Bool) (i : Nat) : Word := (BitVec.ofBool b).setWidth 32 <<< i

/-- `v` from bit `i` up. -/
def fieldAt {n : Nat} (v : BitVec n) (i : Nat) : Word := v.setWidth 32 <<< i

/-- Register 0x01 (R46). -/
def HostPort.stateWord (h : HostPort) : Word := fieldAt h.st.code 0 ||| bitAt h.configured 8

/-- Register 0x02 (R46). -/
def HostPort.resWord (h : HostPort) : Word := fieldAt h.resStatus 0 ||| fieldAt h.resCause 8

/-- `CR`: `RTF` and `RRF` read as 0 (R27). -/
def CtlA.crWord (a : CtlA) : Word := bitAt a.en 0

/-- `SR`: four sticky flags, and `BUSY`, which is `SHIFT_BUSY` (R28). -/
def CtlA.srWord (a : CtlA) : Word :=
  bitAt a.sr.frameDone 0 ||| bitAt a.sr.xferDone 1 ||| bitAt a.sr.txErr 2 ||| bitAt a.sr.rxErr 3 |||
    bitAt a.shiftBusy 24

/-- `FSR`: the lengths of the FIFOs (R29). -/
def CtlA.fsrWord (a : CtlA) : Word :=
  fieldAt (BitVec.ofNat 8 a.txf.length) 0 ||| fieldAt (BitVec.ofNat 8 a.rxf.length) 16

/-- `PARAM` (R30). -/
def paramWord (p : Params) : Word :=
  fieldAt (BitVec.ofNat 8 p.txDepth) 0 ||| fieldAt (BitVec.ofNat 8 p.rxDepth) 8

/-- `TCR` (R31). -/
def Tcr.toWord (t : Tcr) : Word :=
  fieldAt t.width.code 0 ||| bitAt t.txmsk 2 ||| bitAt t.rxmsk 3 ||| bitAt t.contc 4 ||| bitAt t.cont 5 |||
    fieldAt t.pcs 6 ||| fieldAt t.framesz 8 ||| bitAt t.cpha 14 ||| bitAt t.cpol 15

/-- `CFGR` (R32). -/
def Cfgr.toWord (c : Cfgr) : Word := bitAt c.pcspol 0 ||| bitAt c.master 1 ||| fieldAt c.baudDiv 8

/-- `FCR` (R33). -/
def Fcr.toWord (f : Fcr) : Word := fieldAt f.txwater 0 ||| fieldAt f.rxwater 16

/-- `MCR` (R38). -/
def Mcr.toWord (m : Mcr) : Word :=
  bitAt m.prefetchEn 0 ||| bitAt m.bufferableEn 1 ||| bitAt m.cacheableEn 2 ||| fieldAt m.rxclksrc 4

/-- `FLSHCR1` (R39). -/
def Flshcr1.toWord (f : Flshcr1) : Word :=
  fieldAt f.csSetup 0 ||| fieldAt f.csHold 8 ||| fieldAt f.csInterval 16

/-- `IPCR1` (R41). -/
def CtlB.ipcr1Word (b : CtlB) : Word := fieldAt b.ipXtype.code 0 ||| fieldAt b.ipSeq 4

/-- `STS` (R42). -/
def Sts.toWord (t : Sts) : Word := bitAt t.done 0 ||| bitAt t.fail 1 ||| bitAt t.busy 2

/-- Table word `i`; there are eight (R40). -/
def Lut.get (l : Lut) (i : Nat) : Option Word :=
  match i with
  | 0 => some l.w0
  | 1 => some l.w1
  | 2 => some l.w2
  | 3 => some l.w3
  | 4 => some l.w4
  | 5 => some l.w5
  | 6 => some l.w6
  | 7 => some l.w7
  | _ => none

/-- What a host read of register `n` returns (R46); `none` for CMD and for a number not in the table of the
instance's backend. DESIGN CHOICE (log 26): the bits that no rule lists in 0x01, 0x02, CR, PARAM, CFGR and FLSHCR1
read 0; the spec says so of D0 to D7 only (R24). -/
def State.regImage (s : State) (n : BitVec 8) : Option Word :=
  match n.toNat with
  | 0x01 => some s.host.stateWord
  | 0x02 => some s.host.resWord
  | 0x03 => some s.host.resCount
  | 0x04 => some s.host.cfgArg0
  | 0x05 => some s.host.cfgArg1
  | 0x06 => some s.host.cfgArg2
  | 0x07 => some s.host.cfgArg3
  | 0x08 => some s.desc.d0
  | 0x09 => some s.desc.d1
  | 0x0A => some s.desc.d2
  | 0x0B => some s.desc.d3
  | 0x0C => some s.desc.d4
  | 0x0D => some s.desc.d5
  | 0x0E => some s.desc.d6
  | 0x0F => some s.desc.d7
  | m =>
    match s.params.backend with
    | .A =>
      match m with
      | 0x10 => some s.a.crWord
      | 0x11 => some s.a.srWord
      | 0x12 => some s.a.fsrWord
      | 0x13 => some (paramWord s.params)
      | 0x14 => some s.a.tcr.toWord
      | 0x15 => some s.a.cfgr.toWord
      | 0x16 => some s.a.fcr.toWord
      | _ => none
    | .B =>
      match m with
      | 0x10 => some s.b.mcr.toWord
      | 0x11 => some s.b.flashSize
      | 0x12 => some s.b.flshcr1.toWord
      | 0x13 => some s.b.ipAddr
      | 0x14 => some s.b.ipcr1Word
      | 0x15 => some s.b.ipLen
      | 0x16 => some s.b.sts.toWord
      | m => if 0x20 ≤ m then s.b.lut.get (m - 0x20) else none

/-! ## Configuration registers read from a word (R32, R33, R38, R39) -/

def Cfgr.ofWord (v : Word) : Cfgr :=
  { pcspol := v.getLsbD 0, master := v.getLsbD 1, baudDiv := v.extractLsb' 8 24 }

def Fcr.ofWord (v : Word) : Fcr := { txwater := v.extractLsb' 0 8, rxwater := v.extractLsb' 16 8 }

def Mcr.ofWord (v : Word) : Mcr :=
  { prefetchEn := v.getLsbD 0, bufferableEn := v.getLsbD 1, cacheableEn := v.getLsbD 2,
    rxclksrc := v.extractLsb' 4 2 }

def Flshcr1.ofWord (v : Word) : Flshcr1 :=
  { csSetup := v.extractLsb' 0 8, csHold := v.extractLsb' 8 8, csInterval := v.extractLsb' 16 8 }

/-! ## Predicates -/

/-- `tx_full` (R168). A FIFO never holds more than its depth, so "equal" and "at least" agree. -/
def State.txFull (s : State) : Bool := decide (s.params.txDepth ≤ s.a.txf.length)

/-- `tx_drained`: the FIFO is empty and the shifter is idle (R168, R308). -/
def State.txDrained (s : State) : Bool := decide (s.a.txf = []) && !s.a.shiftBusy

/-- `rx_avail` (R168). -/
def State.rxAvail (s : State) : Bool := decide (s.a.rxf ≠ [])

/-- The chip-select request (R256). -/
def State.csReq (s : State) : Bool :=
  match s.params.backend with
  | .A => s.a.en && s.a.tcr.cont && s.a.tcr.contc
  | .B => s.b.sts.busy

/-- Whether chip-select is asserted, electrically low (R44, R255). -/
def CsState.asserted : CsState → Bool
  | .idle => false
  | .setup => true
  | .active => true
  | .hold => true
  | .interval => false

/-- What `wait_until(p)` waits for. `readyToEnd` is the requirement of A.END (R175); `csReleased` is the
"only after the machine has emitted `CS_HIGH`" of R259. -/
def State.holds (s : State) : WaitPred → Bool
  | .txDrained => s.txDrained
  | .txNotFull => !s.txFull
  | .rxAvail => s.rxAvail
  | .csAsserted => s.cs.asserted
  | .readyToEnd => s.txDrained && !s.a.tcr.txmsk
  | .done => s.b.sts.done
  | .csReleased => !s.cs.asserted

end Sys2Proof.Machine
end

