-- ==== Sys2Proof/Machine/Ops.lean ====
section
/-! DEFINITION. The named operations over memory, registers and the trace that every meaning is written
with. -/

namespace Sys2Proof.Machine

/-- What a byte nobody has written reads as (log 7). -/
def Memory.unlisted : Byte := 0

/-- The byte at index `i`. -/
def Memory.read : Memory → Nat → Byte
  | [], _ => Memory.unlisted
  | (k, v) :: m, i => if k = i then v else Memory.read m i

/-- The memory with byte `i` set to `v`, in canonical form. -/
def Memory.write : Memory → Nat → Byte → Memory
  | [], i, v => if v = Memory.unlisted then [] else [(i, v)]
  | (k, w) :: m, i, v =>
    if i < k then if v = Memory.unlisted then (k, w) :: m else (i, v) :: (k, w) :: m
    else if i = k then if v = Memory.unlisted then m else (i, v) :: m
    else (k, w) :: Memory.write m i v

/-- Every entry lies above index `k`. -/
def Memory.above (k : Nat) : Memory → Bool
  | [] => true
  | (j, _) :: m => decide (k < j) && Memory.above k m

/-- The canonical form: indices strictly rising, no entry equal to the unlisted byte. -/
def Memory.wf : Memory → Bool
  | [] => true
  | (k, v) :: m => decide (v ≠ Memory.unlisted) && Memory.above k m && Memory.wf m

/-- The memory with bytes `0 .. n-1` set to `f 0 .. f (n-1)`. -/
def Memory.fill (m : Memory) (f : Nat → Byte) : Nat → Memory
  | 0 => m
  | n + 1 => Memory.write (Memory.fill m f n) n (f n)

/-- The memory with the bytes of the list stored from index `i` up. -/
def Memory.store (m : Memory) (i : Nat) : List Byte → Memory
  | [] => m
  | b :: bs => Memory.store (Memory.write m i b) (i + 1) bs

/-! ## Trace (00_scope.md R9; 10_state.md R45) -/

/-- `emit(e)` on a trace in normal form: `DMY(0)` adds nothing and adjacent `DMY` events add up (R9). -/
def emitTo : List Event → Event → List Event
  | [], e => if e = .dmy 0 then [] else [e]
  | [.dmy a], .dmy c => [.dmy (a + c)]
  | x :: xs, e => x :: emitTo xs e

/-- A trace in normal form: no `DMY(0)`, no two adjacent `DMY` (R9). -/
def normalTrace : List Event → Bool
  | [] => true
  | [e] => decide (e ≠ .dmy 0)
  | .dmy _ :: .dmy _ :: _ => false
  | e :: f :: es => decide (e ≠ .dmy 0) && normalTrace (f :: es)

def State.emit (s : State) (e : Event) : State := { s with trace := emitTo s.trace e }

/-- The events in order. -/
def State.emitAll (s : State) : List Event → State
  | [] => s
  | e :: es => State.emitAll (s.emit e) es

/-! ## Free values (log 11) -/

def State.takeFree (s : State) : State := { s with env := { s.env with free := s.env.free + 1 } }

/-- `draw(periph)`: the byte, which depends on all that the peripheral has seen (R76, R300; log 8); `takeFree` is its
other effect. -/
def State.drawn (s : State) : Byte := Config.periph s.env.free s.env.past s.trace

/-- A byte the spec gives no value. -/
def State.freeByte (s : State) : Byte := Config.freeByte s.env.free 0

/-! ## Results and errors (10_state.md R26; 60_exceptions.md R270, R280) -/

/-- `result Ok(n)` (R114). -/
def State.resultOk (s : State) (n : BitVec 32) : State :=
  { s with host := { s.host with resStatus := 0, resCause := 0, resCount := n } }

/-- `raise`: the one way an error is reported. It writes the result registers and nothing else (R280). There
is no saved context, no vector and no mode change, so nothing to return from (R280, R281). -/
def State.raise (s : State) (e : ErrorKind) : State :=
  { s with host := { s.host with resStatus := e.code, resCause := e.cause, resCount := 0 } }

/-! ## SEQ's control (10_state.md R25) -/

/-- SEQ is to perform these lines of pseudocode (log 12). -/
def State.issueOps (s : State) (ops : List SeqOp) : State := { s with seq := { s.seq with ops := ops } }

/-- `pc <- p`: a new phase starts at IDX = 0 (log 27), with nothing left of the old one. -/
def State.goto (s : State) (p : Phase) : State :=
  { s with seq := { s.seq with phase := p, idx := 0, ops := [] } }

/-- The next round of a phase's loop (R25, R141). DESIGN CHOICE (log 27): after the last round IDX holds the count, one
above the range that the rules give, until the phase changes. -/
def State.nextIdx (s : State) : State := { s with seq := { s.seq with idx := s.seq.idx + 1 } }

def State.setRun (s : State) (r : RunState) : State := { s with host := { s.host with st := r } }

/-! ## Backend A registers (41_backend_a_fifo.md R160 to R165) -/

/-- `TXF <- [] ; RXF <- []` (R160). -/
def State.flushFifos (s : State) : State := { s with a := { s.a with txf := [], rxf := [] } }

/-- Every sticky flag of SR cleared (R161). -/
def State.clearFlags (s : State) : State :=
  { s with a := { s.a with sr := { frameDone := false, xferDone := false, txErr := false, rxErr := false } } }

/-- `CR.EN <- 1` (R162). -/
def State.enable (s : State) : State := { s with a := { s.a with en := true } }

/-- `WIDTH`, `RXMSK` and `TXMSK` written, every other field of TCR kept (R163). -/
def State.setCtl (s : State) (w : Width) (rxmsk txmsk : Bool) : State :=
  { s with a := { s.a with tcr := { s.a.tcr with width := w, rxmsk := rxmsk, txmsk := txmsk } } }

/-- `TCR.CONT` and `TCR.CONTC` (R169, R175). -/
def State.setCont (s : State) (v : Bool) : State :=
  { s with a := { s.a with tcr := { s.a.tcr with cont := v, contc := v } } }

/-- A byte at the tail of TXF (R34). -/
def State.pushTx (s : State) (b : Byte) : State := { s with a := { s.a with txf := s.a.txf ++ [b] } }

/-- A byte at the tail of RXF (R35). -/
def State.pushRx (s : State) (b : Byte) : State := { s with a := { s.a with rxf := s.a.rxf ++ [b] } }

/-- The head of RXF, popped: SEQ holds it, RXF holds the rest (R165). -/
def State.popRx (s : State) (b : Byte) (rest : List Byte) : State :=
  { s with a := { s.a with rxf := rest }, seq := { s.seq with popData := b } }

/-- `SR.FRAME_DONE <- 1` (R166, R167). -/
def State.frameDone (s : State) : State :=
  { s with a := { s.a with sr := { s.a.sr with frameDone := true } } }

/-- `SR.XFER_DONE <- 1` (R175). -/
def State.xferDone (s : State) : State :=
  { s with a := { s.a with sr := { s.a.sr with xferDone := true } } }

/-! ## BUF (20_memory.md R70, R72) -/

def State.readBuf (s : State) (i : BitVec 32) : Byte := Memory.read s.buf i.toNat

def State.writeBuf (s : State) (i : BitVec 32) (b : Byte) : State :=
  { s with buf := Memory.write s.buf i.toNat b }

/-! ## Chip-select (43_linemux_and_cs.md R256) -/

/-- `cs_req` rises in CS_IDLE: CS_SETUP, `emit(CS_LOW)`, in the step that raises the request (R169, R203). -/
def State.csRise (s : State) : State :=
  if s.csReq && decide (s.cs = .idle) then { s.emit .csLow with cs := .setup } else s

/-! ## Backend B (42_backend_b_lut.md R204) -/

/-- `finish(fail)` (R204). -/
def State.finish (s : State) (fail : Bool) : State :=
  { s with b := { s.b with sts := { done := true, fail := fail, busy := false } } }

/-- `SLOT <- SLOT + 1`; the next opcode's BIDX starts at 0 (R43, R204; log 14). -/
def State.advanceSlot (s : State) : State :=
  { s with b := { s.b with slot := s.b.slot + 1, bidx := 0 } }

def State.nextBidx (s : State) : State := { s with b := { s.b with bidx := s.b.bidx + 1 } }

/-- After a data byte: the next byte, or the next opcode after the last one (R210, R211). -/
def State.dataAdvance (s : State) : State :=
  if s.b.bidx + 1 = s.b.ipLen then s.advanceSlot else s.nextBidx

/-- The user sequence, table words 4 to 7 (R202). -/
def Lut.loadUser (l : Lut) (p0 p1 p2 p3 : Word) : Lut := { l with w4 := p0, w5 := p1, w6 := p2, w7 := p3 }

/-- The bootstrap sequence, table words 0 to 3 (R132). -/
def Lut.loadBoot (l : Lut) (p0 p1 p2 p3 : Word) : Lut := { l with w0 := p0, w1 := p1, w2 := p2, w3 := p3 }

end Sys2Proof.Machine
end

