-- ==== Sys2Proof/Machine/CtlOp.lean ====
section
/-! DEFINITION. Backend A's controller operations, each one register access of SEQ (41_backend_a_fifo.md R160
to R165). -/

namespace Sys2Proof.Machine

/-- FLUSH (R160): both FIFOs empty. `CR.EN` is kept, whatever `e` says (log 16). -/
def execFlush (_e : Bool) (s : State) : Host.Outcome State Fault Refusal := .next s.flushFifos

/-- CLRFLAGS (R161). -/
def execClrflags (s : State) : Host.Outcome State Fault Refusal := .next s.clearFlags

/-- ENABLE (R162). -/
def execEnable (s : State) : Host.Outcome State Fault Refusal := .next s.enable

/-- SETCTL (R163): `WIDTH`, `RXMSK`, `TXMSK` are written; `CONT`, `CONTC`, `PCS`, `FRAMESZ`, `CPOL`, `CPHA` are
"unchanged", whatever the word's copies of them say (log 16). -/
def execSetctl (_cpol _cpha _cont _contc r t : Bool) (w : Width) (s : State) :
    Host.Outcome State Fault Refusal :=
  .next (s.setCtl w r t)

/-- PUSH (R164). -/
def execPush (d : Byte) (s : State) : Host.Outcome State Fault Refusal :=
  if s.txFull then .fault .txOverflow else .next (s.pushTx d)

/-- POP (R165); "a pop of an empty FIFO ... must fault, not return a value". -/
def execPop (_d : Byte) (s : State) : Host.Outcome State Fault Refusal :=
  match s.a.rxf with
  | [] => .fault .rxUnderflow
  | b :: rest => .next (s.popRx b rest)

end Sys2Proof.Machine
end

