-- ==== Sys2Proof/Machine/HostCmd.lean ====
section
/-! DEFINITION. The two host commands, CONFIGURE and TRANSFER (40_host_commands.md R130 to R134). -/

namespace Sys2Proof.Machine

/-- `mode == 3` selects `CPOL = 1, CPHA = 1`; modes 0, 1 and 2 select 0, 0 (R131, R115). -/
def modeThree (cfgArg1 : Word) : Bool := decide (cfgArg1.extractLsb' 0 2 = 3)

/-- `apply_config_A` (R131). -/
def State.applyConfigA (s : State) : State :=
  let m := modeThree s.host.cfgArg1
  { s with a := { s.a with
      tcr := { s.a.tcr with cpol := m, cpha := m, framesz := 7, pcs := 0 }
      cfgr := { pcspol := false, master := true, baudDiv := Config.baudDiv s.params.inputClkHz s.host.cfgArg0 }
      fcr := { txwater := 0, rxwater := 0 } } }

/-- `apply_config_B` (R132). -/
def State.applyConfigB (s : State) : State :=
  { s with b := { s.b with
      mcr := { prefetchEn := true, bufferableEn := true, cacheableEn := true, rxclksrc := 0 }
      flashSize := s.host.cfgArg0
      flshcr1 := Flshcr1.ofWord s.host.cfgArg1
      lut := s.b.lut.loadBoot s.params.boot0 s.params.boot1 s.params.boot2 s.params.boot3 } }

/-- The configuration registers of the instance's backend at any value (60_exceptions.md R274, U10):
`CFGR`, `FCR`, `TCR.CPOL`, `TCR.CPHA` on Backend A; `MCR`, `FLSHCR0`, `FLSHCR1`, `LUT[0..3]` on Backend B. -/
def State.havocConfig (s : State) : State :=
  let v := fun i => Config.freeWord (s.env.free + i)
  let s' := { s with env := { s.env with free := s.env.free + 7 } }
  match s.params.backend with
  | .A =>
    { s' with a := { s'.a with
        cfgr := Cfgr.ofWord (v 0)
        fcr := Fcr.ofWord (v 1)
        tcr := { s'.a.tcr with cpol := (v 2).getLsbD 0, cpha := (v 2).getLsbD 1 } } }
  | .B =>
    { s' with b := { s'.b with
        mcr := Mcr.ofWord (v 0)
        flashSize := v 1
        flshcr1 := Flshcr1.ofWord (v 2)
        lut := s'.b.lut.loadBoot (v 3) (v 4) (v 5) (v 6) } }

/-- The configuration of the instance's backend. -/
def State.applyConfig (s : State) : State :=
  match s.params.backend with
  | .A => s.applyConfigA
  | .B => s.applyConfigB

/-- CONFIGURE (R130). The latch is tested before the arguments are read; `init_fail` is sampled once. -/
def execConfigure (s : State) : Host.Outcome State Fault Refusal :=
  if s.host.st = .xfer then .refused .commandDuringTransfer
  else if s.host.configured then .next (s.resultOk 0)
  else if s.env.pins.initFail then .next (s.havocConfig.raise .configFailure)
  else
    let t := s.applyConfig
    .next ({ t with host := { t.host with configured := true, st := .idle } }.resultOk 0)

/-- TRANSFER (R133): the command is rejected, or accepted and the sequencer starts at P_START. The transfer's
own steps are those of SEQ and ENGINE; its result is written when they end (R140). Reading a descriptor register
never written is a fault (R23, R277). -/
def execTransfer (s : State) : Host.Outcome State Fault Refusal :=
  match s.host.st with
  | .xfer => .refused .commandDuringTransfer
  | .uninit => .next (s.raise .notConfigured)
  | .idle =>
    match s.desc.verdict s.params.backend with
    | .unwritten => .fault .unwrittenDescriptor
    | .malformed c => .next (s.raise (.malformed c))
    | .accepted => .next ((s.setRun .xfer).goto .pStart)

end Sys2Proof.Machine
end

