-- ==== Sys2Proof/Machine/LutOp.lean ====
section
/-! DEFINITION. Backend B's table opcodes (42_backend_b_lut.md R205 to R212). READ and WRITE are taken one byte
per step, as R204 allows; an operand that R105 calls illegal is the sequence error of R212. -/

namespace Sys2Proof.Machine

/-- STOP (R205): "`SLOT` is not advanced". -/
def execStop (s : State) : Host.Outcome State Fault Refusal := .next (s.finish false)

/-- CMD (R206). -/
def execCmd (w : Width) (b : Byte) (s : State) : Host.Outcome State Fault Refusal :=
  .next (s.emit (.out w b)).advanceSlot

/-- RADDR (R207); an operand above 4 is illegal (R212). -/
def execRaddr (w : Width) (n : Byte) (s : State) : Host.Outcome State Fault Refusal :=
  if n.toNat ≤ 4 then
    .next (s.emitAll ((serialise s.b.ipAddr n.toNat).map (Event.out w))).advanceSlot
  else .next (s.finish true)

/-- MODE8 (R208). -/
def execMode8 (w : Width) (m : Byte) (s : State) : Host.Outcome State Fault Refusal :=
  .next (s.emit (.out w m)).advanceSlot

/-- DUMMY (R209): the operand counts cycles, the width is not used. -/
def execDummy (_w : Width) (c : Byte) (s : State) : Host.Outcome State Fault Refusal :=
  .next (s.emit (.dmy c.toNat)).advanceSlot

/-- WRITE (R210). -/
def execWrite (w : Width) (_x : Byte) (s : State) : Host.Outcome State Fault Refusal :=
  if s.b.ipXtype ≠ .write then .next (s.finish true)
  else if s.b.bidx < s.b.ipLen then .next (s.emit (.out w (s.readBuf s.b.bidx))).dataAdvance
  else .next s.advanceSlot

/-- One sampled byte of READ: `r <- draw(periph) ; emit(IN(1 << W, r)) ; MemWrite(BUF, BIDX, 1, r)` (R211). -/
def State.readByte (s : State) (w : Width) : State :=
  (s.takeFree.emit (.inp w s.drawn)).writeBuf s.b.bidx s.drawn

/-- READ (R211). -/
def execRead (w : Width) (_x : Byte) (s : State) : Host.Outcome State Fault Refusal :=
  if s.b.ipXtype ≠ .read then .next (s.finish true)
  else if s.b.bidx < s.b.ipLen then .next (s.readByte w).dataAdvance
  else .next s.advanceSlot

end Sys2Proof.Machine
end

