-- ==== Sys2Proof/Machine/SeqStep.lean ====
section
/-! DEFINITION. Backend A's sequencer steps (41_backend_a_fifo.md R169 to R175). A step's meaning makes the
lines of its pseudocode, in order, the lines that SEQ is to perform; each line is then a step of SEQ of its
own, so that ENGINE can step between any two ("SEQ and ENGINE interleave freely", R10; log 12). A loop hands
over one round at a time, and the same step runs again for the next IDX. -/

namespace Sys2Proof.Machine

/-- A.START (R169). SEQ goes on to P_INSTR once chip-select is asserted, which is at once unless the interval
of the transfer before is still running (R256; log 12). -/
def execAStart (s : State) : Host.Outcome State Fault Refusal :=
  .next (s.issueOps [flushOp s.a.en, clrflagsOp, enableOp, .contOn, .wait .csAsserted, .goto .pInstr])

/-- A.INSTR (R170). -/
def execAInstr (s : State) : Host.Outcome State Fault Refusal :=
  if s.desc.instrPresent then
    .next (s.issueOps [setctlOp s.a.tcr s.desc.instrLw true false, pushOp s.desc.instrContent,
      .wait .txDrained, .goto .pAddr])
  else .next (s.goto .pAddr)

/-- The pushes of A.ADDR: `for IDX in 0..k-1: PUSH(MemRead(SCRATCH, IDX, 1))`, unguarded (R171). -/
def scratchPushes (scratch : Memory) (k : Nat) : List SeqOp :=
  (List.range k).flatMap fun i => [pushOp (Memory.read scratch i), .nextIdx]

/-- A.ADDR (R171). SCRATCH has 32 bytes (10_state.md R36); a descriptor that passed validation gives no more
(R311). -/
def execAAddr (s : State) : Host.Outcome State Fault Refusal :=
  if s.desc.addrPresent then
    if 32 < s.desc.addrBytes.length then .fault .scratchBound
    else
      let scratch := Memory.store s.a.scratch 0 s.desc.addrBytes
      .next ({ s with a := { s.a with scratch := scratch } }.issueOps
        (setctlOp s.a.tcr s.desc.addrLw true false ::
          scratchPushes scratch s.desc.addrBytes.length ++ [SeqOp.wait .txDrained, SeqOp.goto .pDummy]))
  else .next (s.goto .pDummy)

/-- A.DUMMY (R172): one round for each dummy frame, always at 4 lines. -/
def execADummy (s : State) : Host.Outcome State Fault Refusal :=
  if s.desc.dummyPresent && decide (s.seq.idx < s.desc.dummyFrames) then
    .next (s.issueOps [setctlOp s.a.tcr 4 false true, .wait .rxAvail, popOp, .nextIdx])
  else .next (s.goto .pData)

/-- A.DATA, write direction (R173). -/
def execADataW (s : State) : Host.Outcome State Fault Refusal :=
  if s.desc.dataPresent then
    if s.seq.idx < s.desc.length then
      .next (s.issueOps [setctlOp s.a.tcr s.desc.dataLw true false, .wait .txNotFull,
        pushOp (s.readBuf s.seq.idx), .nextIdx])
    else .next (s.issueOps [.wait .txDrained, .goto .pEnd])
  else .next (s.goto .pEnd)

/-- A.DATA, read direction; with no data phase the step does nothing (R174). -/
def execADataR (s : State) : Host.Outcome State Fault Refusal :=
  if s.desc.dataPresent && decide (s.seq.idx < s.desc.length) then
    .next (s.issueOps [setctlOp s.a.tcr s.desc.dataLw false true, .wait .rxAvail, popOp, .bufStore, .nextIdx])
  else .next (s.goto .pEnd)

/-- A.END (R175). Its requirement is a wait (log 13); `SR.XFER_DONE` is set when chip-select deasserts
(10_state.md R28) and the result is written only after that (43_linemux_and_cs.md R259). -/
def execAEnd (s : State) : Host.Outcome State Fault Refusal :=
  .next (s.issueOps [.wait .readyToEnd, .contOff, .wait .csReleased, .xferDone, .result])

end Sys2Proof.Machine
end

