-- ==== Sys2Proof/Machine/Dispatch.lean ====
section
/-! DEFINITION. The one dispatch from an instruction to its meaning. -/

namespace Sys2Proof.Machine

def exec (i : Instr) (s : State) : Host.Outcome State Fault Refusal :=
  match i with
  | .stop => Sys2Proof.Machine.execStop s
  | .cmd w b => Sys2Proof.Machine.execCmd w b s
  | .raddr w n => Sys2Proof.Machine.execRaddr w n s
  | .mode8 w m => Sys2Proof.Machine.execMode8 w m s
  | .write w x => Sys2Proof.Machine.execWrite w x s
  | .read w x => Sys2Proof.Machine.execRead w x s
  | .dummy w c => Sys2Proof.Machine.execDummy w c s
  | .configure => Sys2Proof.Machine.execConfigure s
  | .transfer => Sys2Proof.Machine.execTransfer s
  | .flush e => Sys2Proof.Machine.execFlush e s
  | .clrflags => Sys2Proof.Machine.execClrflags s
  | .enable => Sys2Proof.Machine.execEnable s
  | .setctl p a c d r t w => Sys2Proof.Machine.execSetctl p a c d r t w s
  | .push d => Sys2Proof.Machine.execPush d s
  | .pop d => Sys2Proof.Machine.execPop d s
  | .aStart => Sys2Proof.Machine.execAStart s
  | .aInstr => Sys2Proof.Machine.execAInstr s
  | .aAddr => Sys2Proof.Machine.execAAddr s
  | .aDummy => Sys2Proof.Machine.execADummy s
  | .aDataW => Sys2Proof.Machine.execADataW s
  | .aDataR => Sys2Proof.Machine.execADataR s
  | .aEnd => Sys2Proof.Machine.execAEnd s

end Sys2Proof.Machine
end

