-- ==== Sys2Proof/Machine/Agents.lean ====
section
/-! DEFINITION. The agents (00_scope.md R10): what each does when it is its turn. A turn in which an agent has
no step leaves the machine as it is, so a wait that is never met is an infinite execution (60_exceptions.md
R276). -/

namespace Sys2Proof.Machine

/-! ## ENGINE, Backend A: the shifter (41_backend_a_fifo.md R166, R167) -/

/-- What both frames need: `CR.EN`, chip-select in CS_ACTIVE, `stall` false (R166, R167). -/
def State.shifterOn (s : State) : Bool := s.a.en && decide (s.cs = .active) && !s.env.pins.stall

/-- `FSR.RXCOUNT < RXFIFO_DEPTH`. -/
def State.rxRoom (s : State) : Bool := decide (s.a.rxf.length < s.params.rxDepth)

/-- The received byte of a frame goes to the tail of RXF: `r <- draw(periph) ; push(RXF, r)`. -/
def State.receive (s : State) : State := s.takeFree.pushRx s.drawn

/-- TX_FRAME (R166), of the byte `b` at the head of TXF and the rest behind it. -/
def State.txFrame (s : State) (b : Byte) (rest : List Byte) : State :=
  let s1 := { s with a := { s.a with txf := rest } }.emit (.out s.a.tcr.width b)
  (if s.a.tcr.rxmsk then s1 else s1.receive).frameDone

/-- The receive-only frame's event and byte (R167): in P_DUMMY a `DMY` of `8 / w` cycles and a byte of no given
value, otherwise an `IN` of the peripheral's byte. -/
def State.rxSample (s : State) : State :=
  let w := s.a.tcr.width
  if s.seq.phase = .pDummy then (s.takeFree.pushRx s.freeByte).emit (.dmy (8 / w.lines))
  else (s.takeFree.pushRx s.drawn).emit (.inp w s.drawn)

/-- RX_FRAME (R167): the request is consumed. -/
def State.rxFrame (s : State) : State :=
  let t := s.rxSample
  { t with a := { t.a with tcr := { t.a.tcr with txmsk := false } } }.frameDone

/-- ENGINE's turn on Backend A: the frame that is enabled, if one is. -/
def State.engineA (s : State) : State :=
  if !s.shifterOn then s
  else match s.a.txf with
    | b :: rest => if !s.a.tcr.txmsk && (s.a.tcr.rxmsk || s.rxRoom) then s.txFrame b rest else s
    | [] => if s.a.tcr.txmsk && s.rxRoom then s.rxFrame else s

/-! ## ENGINE, Backend B: the table engine (42_backend_b_lut.md R204, R212, R213) -/

/-- Enabled: `STS.BUSY`, chip-select in CS_ACTIVE, `stall` false (R204). -/
def State.tableOn (s : State) : Bool := s.b.sts.busy && decide (s.cs = .active) && !s.env.pins.stall

/-- The half-word at SLOT, from table word `4 * IPCR1.SEQ + SLOT / 2` (R43, R204). -/
def State.fetchHalf (s : State) : Option Half :=
  (s.b.lut.get (4 * s.b.ipSeq.toNat + s.b.slot.toNat / 2)).map fun w =>
    if s.b.slot.toNat % 2 = 0 then lowHalf w else highHalf w

/-- ENGINE_STEP (R204). An external failure comes before the fetch (R213); an illegal half-word ends the
sequence with no bus event (R212). -/
def State.engineB (s : State) : Host.Outcome State Fault Refusal :=
  if !s.tableOn then .next s
  else if s.env.pins.extFail then .next (s.finish true)
  else if 8 ≤ s.b.slot.toNat then .next (s.finish false)
  else match s.fetchHalf with
    | none => .fault .lutIndex
    | some h =>
      match decode ⟨.lut, h.setWidth 32⟩ with
      | .error _ => .next (s.finish true)
      | .ok i => exec i s

def State.engineTurn (s : State) : Host.Outcome State Fault Refusal :=
  match s.params.backend with
  | .A => .next s.engineA
  | .B => s.engineB

/-! ## SEQ -/

/-- ISSUE (R203). -/
def State.issueRequest (s : State) : State :=
  { s with b := { s.b with
      ipAddr := s.desc.issueAddr, ipXtype := s.desc.issueXtype, ipSeq := 1, ipLen := s.desc.issueLen
      sts := { done := false, fail := false, busy := true }, slot := 0, bidx := 0 } }.csRise

/-- `BUF` after a hardware failure of a read: any value below `data.length` (R215, R280, U8). -/
def State.havocBuf (s : State) : State :=
  if s.desc.dataPresent && s.desc.dirRead then
    { s.takeFree with buf := Memory.fill s.buf (Config.freeByte s.env.free) s.desc.length.toNat }
  else s

/-- The end of a TRANSFER (R140): PHASE and STATE idle, the result written (R139, R215). -/
def State.endTransfer (s : State) : State :=
  let t := (s.setRun .idle).goto .pIdle
  if decide (s.params.backend = .B) && s.b.sts.fail then t.havocBuf.raise .hwFailure
  else t.resultOk (s.desc.okCount s.params.backend)

/-- One line of pseudocode that is not a register access. -/
def State.runLine (s : State) : SeqOp → State
  | .ctl _ _ => s
  | .wait _ => s
  | .contOn => (s.setCont true).csRise
  | .contOff => s.setCont false
  | .nextIdx => s.nextIdx
  | .bufStore => s.writeBuf s.seq.idx s.seq.popData
  | .goto p => s.goto p
  | .xferDone => s.xferDone
  | .load p0 p1 p2 p3 => { s with b := { s.b with lut := s.b.lut.loadUser p0 p1 p2 p3 } }
  | .issue => s.issueRequest
  | .result => s.endTransfer

/-- SEQ performs the line `op`, with `rest` behind it. A register access is decoded and executed. A wait that
does not hold leaves SEQ where it is: "SEQ has no step while `p` is false" (R168). -/
def State.runOp (s : State) (op : SeqOp) (rest : List SeqOp) : Host.Outcome State Fault Refusal :=
  match op with
  | .ctl p v =>
    match decode ⟨.ctl p, v⟩ with
    | .ok i => exec i (s.issueOps rest)
    | .error _ => .refused .undecodableControlWord
  | .wait p => .next (if s.holds p then s.issueOps rest else s)
  | op => .next ((s.issueOps rest).runLine op)

/-- The sequencer step that PHASE names, with A.DATA's direction (R136, R137; the SEQSTEP rows). -/
def State.fetchStep (s : State) : Except DecodeError Instr :=
  decode ⟨.seq s.desc.dirWrite, s.seq.phase.code.setWidth 32⟩

/-- SEQ on Backend B between lines (R216): compile, load and issue in P_START, the wait for completion in
P_DATA, the result in P_END once chip-select is released (R259). Other phases have no step. -/
def State.seqB (s : State) : State :=
  match s.seq.phase with
  | .pStart =>
    s.issueOps [.load (programWord s.desc.opcodes 0) (programWord s.desc.opcodes 1)
      (programWord s.desc.opcodes 2) (programWord s.desc.opcodes 3), .issue, .goto .pData]
  | .pData => s.issueOps [.wait .done, .goto .pEnd]
  | .pEnd => s.issueOps [.wait .csReleased, .result]
  | .pIdle => s
  | .pInstr => s
  | .pAddr => s
  | .pDummy => s

/-- SEQ's turn: the next line if one is left, otherwise the step PHASE names. -/
def State.seqTurn (s : State) : Host.Outcome State Fault Refusal :=
  match s.seq.ops with
  | op :: rest => s.runOp op rest
  | [] =>
    match s.params.backend with
    | .B => .next s.seqB
    | .A =>
      match s.fetchStep with
      | .ok i => exec i s
      | .error _ => .next s

/-! ## The chip-select machine (43_linemux_and_cs.md R256) -/

/-- One transition of the machine. It keeps no time: a timed transition may be taken at any turn (log 15). -/
def State.csTurn (s : State) : State :=
  match s.cs with
  | .idle => s.csRise
  | .setup => { s with cs := .active }
  | .active => if s.csReq then s else { s with cs := .hold }
  | .hold => { s.emit .csHigh with cs := .interval }
  | .interval => { s with cs := .idle }

/-! ## HOST (10_state.md R46) -/

/-- A host write of `CFG_ARG0` to `CFG_ARG3`. -/
def HostPort.writeArg (h : HostPort) (i : BitVec 2) (v : Word) : HostPort :=
  if i = 0 then { h with cfgArg0 := v }
  else if i = 1 then { h with cfgArg1 := v }
  else if i = 2 then { h with cfgArg2 := v }
  else { h with cfgArg3 := v }

/-- A host write of register `n`: `CMD` starts a command, `CFG_ARG` and D registers are written, every other
register is read-only or does not exist (R46, R273). -/
def State.hostWrite (s : State) (n : BitVec 8) (v : Word) : Host.Outcome State Fault Refusal :=
  if n = 0 then
    match decode ⟨.cmd, v⟩ with
    | .ok i => exec i s
    | .error _ => .refused .unknownCommand
  else if s.host.st = .xfer then .refused .hostBlocked
  else if n.extractLsb' 2 6 = 1 then .next { s with host := s.host.writeArg (n.extractLsb' 0 2) v }
  else if n.extractLsb' 3 5 = 1 then .next { s with desc := s.desc.hostWrite (n.extractLsb' 0 3) v }
  else if (s.regImage n).isSome then .refused .readOnlyRegister
  else .refused .noSuchRegister

/-- A host read of register `n`: "A host read has no side effect" (R46); the word goes to the read data. -/
def State.hostRead (s : State) (n : BitVec 8) : Host.Outcome State Fault Refusal :=
  if s.host.st = .xfer then .refused .hostBlocked
  else if n = 0 then .refused .writeOnlyRegister
  else match s.regImage n with
    | some v => .next { s with host := { s.host with rdata := v } }
    | none => .refused .noSuchRegister

/-- A host write of its own buffer, which it may not touch during a transfer (20_memory.md R84). -/
def State.hostWriteBuf (s : State) (i : BitVec 32) (b : Byte) : Host.Outcome State Fault Refusal :=
  if s.host.st = .xfer then .refused .hostBlocked else .next (s.writeBuf i b)

/-- A host read of its own buffer, which it may not touch during a transfer either (20_memory.md R70, R84). The
byte goes to the read data, zero-extended (log 18). -/
def State.hostReadBuf (s : State) (i : BitVec 32) : Host.Outcome State Fault Refusal :=
  if s.host.st = .xfer then .refused .hostBlocked
  else .next { s with host := { s.host with rdata := (s.readBuf i).setWidth 32 } }

def State.hostTurn (s : State) : HostAct → Host.Outcome State Fault Refusal
  | .writeReg n v => s.hostWrite n v
  | .readReg n => s.hostRead n
  | .writeBuf i b => s.hostWriteBuf i b
  | .readBuf i => s.hostReadBuf i

/-! ## The environment -/

/-- Reset at any time (70_reset_and_hazards.md R300). The parameters, the host's buffer and what is outside the
block stay (log 24); the trace that the reset cuts joins what the peripheral has seen (log 8). -/
def State.resetTurn (s : State) : State :=
  { State.resetWith s.params with buf := s.buf, env := { s.env with past := s.env.past ++ [s.trace] } }

/-- The inputs of R6 take new levels (log 9). -/
def State.setPins (s : State) (p : Pins) : State := { s with env := { s.env with pins := p } }

/-- One turn (R10; log 1). -/
def State.turn (s : State) : Turn → Host.Outcome State Fault Refusal
  | .host act => s.hostTurn act
  | .seq => s.seqTurn
  | .engine => s.engineTurn
  | .cs => .next s.csTurn
  | .setPins p => .next (s.setPins p)
  | .reset => .next s.resetTurn

/-- The state with its first turn taken off the list, and that turn; a free value chooses when the list is
empty (log 1). -/
def State.nextTurn (s : State) : Turn × State :=
  match s.env.turns with
  | [] => (Config.turn s.env.free, s.takeFree)
  | t :: ts => (t, { s with env := { s.env with turns := ts } })

/-! ## Where each instruction is fetched from, for `State.withFetchWord` -/

/-- `t` is the next turn. -/
def State.turnFirst (s : State) (t : Turn) : State :=
  { s with env := { s.env with turns := t :: s.env.turns } }

/-- Instance `k`. -/
def State.onBackend (s : State) (k : Backend) : State := { s with params := { s.params with backend := k } }

/-- D6 with the direction `write` or `read`, which selects between A.DATA_W and A.DATA_R (R137). -/
def Desc.withDirection (d : Desc) (dirWrite : Bool) : Desc :=
  { d with d6 := (d.d6 &&& ~~~3#32) ||| (if dirWrite then 2#32 else 1#32) }

/-- The state in which the very next step fetches the bits of `c` from the place of `c`: a table slot with
the table engine running, a host write of CMD, the first of SEQ's register accesses, or PHASE. -/
def State.place (s : State) (c : CodeWord) : State :=
  match c.space with
  | .lut =>
    let s := (s.onBackend .B).turnFirst .engine
    { s with
      b := { s.b with lut := { s.b.lut with w4 := c.bits }, ipSeq := 1, slot := 0
                      sts := { s.b.sts with busy := true } }
      cs := .active
      env := { s.env with pins := { s.env.pins with stall := false, extFail := false } } }
  | .cmd => s.turnFirst (.host (.writeReg 0 c.bits))
  | .ctl p => (s.issueOps (.ctl p c.bits :: s.seq.ops)).turnFirst .seq
  | .seq d =>
    let s := (s.onBackend .A).turnFirst .seq
    { s with
      seq := { s.seq with phase := Phase.ofCode (c.bits.setWidth 3), ops := [] }
      desc := if c.bits = 5 then s.desc.withDirection d else s.desc }

/-- The place of a bare word of the opcode table (log 17); a word that is no instruction stands in the first
place of its length. -/
def wordPlace (nbits w : Nat) : CodeWord :=
  match tablePlace nbits w with
  | some (c, _) => c
  | none => (tablePlaces nbits w).headD ⟨.cmd, 0⟩

end Sys2Proof.Machine
end

