-- ==== Sys2Proof/Machine/Step.lean ====
section
/-! DEFINITION. The step of the machine: one turn of one agent (00_scope.md R10). -/

namespace Sys2Proof.Machine

def step (s : State) : Host.Outcome State Fault Refusal :=
  s.nextTurn.2.turn s.nextTurn.1

/-- `s` with the bare word `w` of the opcode table stored where the next step fetches its instruction
(logs 3 and 17). -/
def State.withFetchWord (s : State) (nbits w : Nat) : State := s.place (wordPlace nbits w)

end Sys2Proof.Machine
end

