-- ==== Sys2Proof/Machine/LineMux.lean ====
section
/-! DEFINITION. Bus events down to lines and clock cycles (43_linemux_and_cs.md R250 to R262) and the cycle
counts of 70_reset_and_hazards.md R313. These are views: no step reads them. -/

namespace Sys2Proof.Machine

/-- `cycles(w) = 8 / w` (R250). -/
def cyclesOf (w : Width) : Nat := 8 / w.lines

/-- The bit of a byte on line `IOj` in cycle `k` at width `w`: bit `7 - (k * w) - (w - 1 - j)` (R251). -/
def laneBit (w : Width) (k j : Nat) : Nat := 7 - k * w.lines - (w.lines - 1 - j)

/-- The level that `OUT(w, b)` drives on `IOj` in cycle `k` (R251); `none` where nothing is driven. -/
def outLevel (w : Width) (b : Byte) (k j : Nat) : Option Bool :=
  if k < cyclesOf w ∧ j < w.lines then some (b.getLsbD (laneBit w k j)) else none

/-- The level MSTS drives on `IOj` in cycle `k` of an event: data lines are driven during `OUT` only (R253). -/
def drivenLevel (e : Event) (k j : Nat) : Option Bool :=
  match e with
  | .out w b => outLevel w b k j
  | .inp _ _ => none
  | .dmy _ => none
  | .csLow => none
  | .csHigh => none

/-- The level that the byte of `IN(w, b)` puts on `IOj` in cycle `k`: IO1 carries bit `7 - k` at one line, the lines
of R251 carry its bits at two and four; `none` on a line that is not sampled (R252). -/
def inLevel (w : Width) (b : Byte) (k j : Nat) : Option Bool :=
  match w with
  | .w1 => if k < 8 ∧ j = 1 then some (b.getLsbD (7 - k)) else none
  | .w2 => outLevel .w2 b k j
  | .w4 => outLevel .w4 b k j

/-- The level an event fixes on `IOj`: what MSTS drives during `OUT`, what the peripheral's byte is sampled from
during `IN` (R251, R252). -/
def eventLevel (e : Event) (k j : Nat) : Option Bool :=
  match e with
  | .out w b => outLevel w b k j
  | .inp w b => inLevel w b k j
  | .dmy _ => none
  | .csLow => none
  | .csHigh => none

/-- The level of `IOj` in cycle `k` of the event `e` emitted from `s`: what the event fixes, or whatever the platform
makes it, which no two events need share (R252, R253, U13; log 22). -/
def State.padLevel (s : State) (e : Event) (k j : Nat) : Bool :=
  (eventLevel e k j).getD (Config.padLevel s.env.free s.env.past s.trace e k j)

/-- The line that bit `i` of a byte is sampled from: IO1 at one line, otherwise the line of R251 (R252). -/
def sampleLine (w : Width) (i : Nat) : Nat :=
  match w with
  | .w1 => 1
  | .w2 => i % 2
  | .w4 => i % 4

/-- The cycle that bit `i` of a byte is moved in (R251). -/
def bitCycle (w : Width) (i : Nat) : Nat := (7 - i) / w.lines

/-- The byte sampled by `IN(w, _)` from the levels of the lines, by cycle and line (R252). -/
def sampled (w : Width) (level : Nat → Nat → Bool) : Byte :=
  BitVec.ofFnLE fun i : Fin 8 => level (bitCycle w i) (sampleLine w i)

/-- Clock cycles of an event (R9, R262). -/
def clocksOf : Event → Nat
  | .out w _ => cyclesOf w
  | .inp w _ => cyclesOf w
  | .dmy c => c
  | .csLow => 0
  | .csHigh => 0

/-- Clocked cycles of a trace (R313). -/
def traceClocks (t : List Event) : Nat := (t.map clocksOf).sum

/-- `cycles_A` (R313). -/
def Desc.cyclesA (d : Desc) : Nat :=
  (if d.instrPresent then cyclesOf (widthOf d.instrLw) else 0) +
  (if d.addrPresent then cyclesOf (widthOf d.addrLw) * (d.addrSize + d.altSize) else 0) +
  2 * d.dummyFrames.toNat +
  (if d.dataPresent then cyclesOf (widthOf d.dataLw) * d.length.toNat else 0)

/-- `cycles_B` (R313). -/
def Desc.cyclesB (d : Desc) : Nat :=
  (if d.instrPresent then cyclesOf (widthOf d.instrLw) else 0) +
  (if d.raddrPresent then cyclesOf (widthOf d.addrLw) * d.addrSize else 0) +
  (if d.modePresent then cyclesOf (widthOf d.altLw) else 0) +
  d.dummyCycles.toNat +
  (if d.dataPresent then cyclesOf (widthOf d.dataLw) * d.length.toNat else 0)

/-- The chip-select pin, true for high: active-low (R44, R255). -/
def State.csPin (s : State) : Bool := !s.cs.asserted

/-- The level at which `SCK` idles: `CPOL` (R253, R262), which only Backend A's TCR holds. DESIGN CHOICE: on Backend B
it is a free value (log 25). -/
def State.sckIdle (s : State) : Bool :=
  match s.params.backend with
  | .A => s.a.tcr.cpol
  | .B => Config.sckIdleB

end Sys2Proof.Machine
end

