-- ==== Sys2Proof/Safety.lean ====
section
/-! DEFINITION. What claims are stated in: runs over a list of turns, the invariant of reachable states
(10_state.md R50 and the control points of R169 to R175 and R216), and the bus events a transfer has still to
make (41_backend_a_fifo.md R177, 42_backend_b_lut.md R217). -/

namespace Sys2Proof.Machine

/-! ## Runs -/

/-- The machine after the given turns, in order, stopping at the first stop. -/
def State.turns (s : State) : List Turn → Host.Outcome State Fault Refusal
  | [] => .next s
  | t :: ts =>
    match s.turn t with
    | .next s' => State.turns s' ts
    | .fault f => .fault f
    | .refused r => .refused r

/-- A turn of SEQ, ENGINE or the chip-select machine, or a change of an input: all that happens while the host
is blocked and no reset comes. -/
def agentTurn : Turn → Bool
  | .host _ => false
  | .seq => true
  | .engine => true
  | .cs => true
  | .setPins _ => true
  | .reset => false

/-- The first `n` bytes of the buffer. -/
def State.bufBytes (s : State) (n : Nat) : List Byte := (List.range n).map (Memory.read s.buf)

/-- Every descriptor register has been written by the host since reset (R302). -/
def Desc.allWritten (d : Desc) : Prop := d.written = 0xFF

/-- The opcodes that a descriptor's phases stand for on Backend B, in order, without the STOP (R110, R113). -/
def Desc.programB (d : Desc) : List Instr :=
  (if d.instrPresent then [Instr.cmd (widthOf d.instrLw) d.instrContent] else []) ++
  (if d.raddrPresent then [Instr.raddr (widthOf d.addrLw) (BitVec.ofNat 8 d.addrSize)] else []) ++
  (if d.modePresent then [Instr.mode8 (widthOf d.altLw) (d.altContent.setWidth 8)] else []) ++
  (if d.dummyPresent then [Instr.dummy .w4 (d.dummyCycles.setWidth 8)] else []) ++
  (if d.dataPresent then
    [if d.dirRead then Instr.read (widthOf d.dataLw) 0 else Instr.write (widthOf d.dataLw) 0] else [])

/-! ## Control points of Backend A -/

/-- Chip-select deasserted (R44). -/
def csOff (s : State) : Prop := s.cs = .idle ∨ s.cs = .interval

/-- Chip-select asserted and not being released. -/
def csOn (s : State) : Prop := s.cs = .setup ∨ s.cs = .active

/-- The request of a running transfer: both continuous bits set on an enabled controller (R256, R258). -/
def held (s : State) : Prop := s.a.en = true ∧ s.a.tcr.cont = true ∧ s.a.tcr.contc = true

/-- Nothing queued, nothing received, no request pending. -/
def fifosIdle (s : State) : Prop := s.a.txf = [] ∧ s.a.rxf = [] ∧ s.a.tcr.txmsk = false

/-- Between transfers (R50 (c)). -/
def restA (s : State) : Prop := csOff s ∧ fifosIdle s ∧ s.a.tcr.cont = false ∧ s.a.tcr.contc = false

/-- Inside a transfer, at a point where the width and the masks may change (R304). -/
def quietA (s : State) : Prop := held s ∧ csOn s ∧ fifosIdle s

/-- Inside a sending phase at width `w`: whatever is queued leaves at that width with receive masked. -/
def sendingA (s : State) (w : Width) : Prop :=
  held s ∧ csOn s ∧ s.a.rxf = [] ∧ s.a.tcr.txmsk = false ∧
    (s.a.txf ≠ [] → s.a.tcr.width = w ∧ s.a.tcr.rxmsk = true)

/-- A sending phase after its SETCTL. -/
def readyA (s : State) (w : Width) : Prop :=
  sendingA s w ∧ s.a.tcr.width = w ∧ s.a.tcr.rxmsk = true

/-- One byte has been received. -/
def gotA (s : State) : Prop := held s ∧ csOn s ∧ s.a.txf = [] ∧ s.a.tcr.txmsk = false ∧ s.a.rxf.length = 1

/-- A receive-only request at width `w` is pending or has been answered (R167). -/
def askedA (s : State) (w : Width) : Prop :=
  held s ∧ csOn s ∧ s.a.txf = [] ∧
    ((s.a.tcr.txmsk = true ∧ s.a.tcr.width = w ∧ s.a.rxf = []) ∨ (s.a.tcr.txmsk = false ∧ s.a.rxf.length = 1))

/-- The pushes of a list of bytes, with the loop's index. -/
def pushLines (bs : List Byte) : List SeqOp := bs.flatMap fun b => [pushOp b, .nextIdx]

def startPoint (s : State) : Prop :=
  (restA s ∧ (s.seq.ops = [] ∨
    (∃ e, s.seq.ops = [flushOp e, clrflagsOp, enableOp, .contOn, .wait .csAsserted, .goto .pInstr]) ∨
    s.seq.ops = [clrflagsOp, enableOp, .contOn, .wait .csAsserted, .goto .pInstr] ∨
    s.seq.ops = [enableOp, .contOn, .wait .csAsserted, .goto .pInstr] ∨
    (s.a.en = true ∧ s.seq.ops = [.contOn, .wait .csAsserted, .goto .pInstr]))) ∨
  (held s ∧ fifosIdle s ∧ (csOff s ∨ csOn s) ∧ s.seq.ops = [.wait .csAsserted, .goto .pInstr]) ∨
  (quietA s ∧ s.seq.ops = [.goto .pInstr])

def instrPoint (s : State) : Prop :=
  let w := widthOf s.desc.instrLw
  (quietA s ∧ s.seq.ops = []) ∨
  (quietA s ∧ ∃ t b, s.seq.ops = [setctlOp t s.desc.instrLw true false, pushOp b, .wait .txDrained, .goto .pAddr]) ∨
  (quietA s ∧ readyA s w ∧ ∃ b, s.seq.ops = [pushOp b, .wait .txDrained, .goto .pAddr]) ∨
  (readyA s w ∧ s.seq.ops = [.wait .txDrained, .goto .pAddr]) ∨
  (quietA s ∧ s.seq.ops = [.goto .pAddr])

def addrPoint (s : State) : Prop :=
  let w := widthOf s.desc.addrLw
  (quietA s ∧ s.seq.ops = []) ∨
  (quietA s ∧ ∃ t bs, bs.length ≤ s.desc.addrSize + s.desc.altSize ∧ s.seq.ops =
    setctlOp t s.desc.addrLw true false :: pushLines bs ++ [SeqOp.wait .txDrained, SeqOp.goto .pDummy]) ∨
  (readyA s w ∧ ∃ bs : List Byte, s.a.txf.length + bs.length ≤ s.desc.addrSize + s.desc.altSize ∧
    (s.seq.ops = pushLines bs ++ [SeqOp.wait .txDrained, SeqOp.goto .pDummy] ∨
     s.seq.ops = SeqOp.nextIdx :: pushLines bs ++ [SeqOp.wait .txDrained, SeqOp.goto .pDummy])) ∨
  (quietA s ∧ s.seq.ops = [.goto .pDummy])

def dummyPoint (s : State) : Prop :=
  (quietA s ∧ s.seq.ops = []) ∨
  (quietA s ∧ ∃ t, s.seq.ops = [setctlOp t 4 false true, .wait .rxAvail, popOp, .nextIdx]) ∨
  (askedA s .w4 ∧ s.seq.ops = [.wait .rxAvail, popOp, .nextIdx]) ∨
  (gotA s ∧ s.seq.ops = [popOp, .nextIdx]) ∨
  (quietA s ∧ s.seq.ops = [.nextIdx])

def writePoint (s : State) : Prop :=
  let w := widthOf s.desc.dataLw
  (quietA s ∧ s.seq.ops = []) ∨
  (s.desc.dataPresent = true ∧
    ((sendingA s w ∧ (s.seq.ops = [] ∨ s.seq.ops = [.wait .txDrained, .goto .pEnd] ∨
      ∃ t b, s.seq.ops = [setctlOp t s.desc.dataLw true false, .wait .txNotFull, pushOp b, .nextIdx])) ∨
    (readyA s w ∧ (s.seq.ops = [.nextIdx] ∨ ∃ b, s.seq.ops = [.wait .txNotFull, pushOp b, .nextIdx])) ∨
    (readyA s w ∧ s.a.txf.length < s.params.txDepth ∧ ∃ b, s.seq.ops = [pushOp b, .nextIdx]))) ∨
  (quietA s ∧ s.seq.ops = [.goto .pEnd])

def readPoint (s : State) : Prop :=
  let w := widthOf s.desc.dataLw
  (quietA s ∧ s.seq.ops = []) ∨
  (quietA s ∧ ∃ t, s.seq.ops = [setctlOp t s.desc.dataLw false true, .wait .rxAvail, popOp, .bufStore, .nextIdx]) ∨
  (askedA s w ∧ s.seq.ops = [.wait .rxAvail, popOp, .bufStore, .nextIdx]) ∨
  (gotA s ∧ s.seq.ops = [popOp, .bufStore, .nextIdx]) ∨
  (quietA s ∧ s.seq.ops = [.bufStore, .nextIdx]) ∨
  (quietA s ∧ s.seq.ops = [.nextIdx])

/-- Released: the request is gone, chip-select on its way up (R257). -/
def releasedA (s : State) : Prop := fifosIdle s ∧ s.a.tcr.cont = false ∧ s.a.tcr.contc = false

def endPoint (s : State) : Prop :=
  (quietA s ∧ s.seq.ops = []) ∨
  (quietA s ∧ s.seq.ops = [.wait .readyToEnd, .contOff, .wait .csReleased, .xferDone, .result]) ∨
  (quietA s ∧ s.seq.ops = [.contOff, .wait .csReleased, .xferDone, .result]) ∨
  (releasedA s ∧ s.seq.ops = [.wait .csReleased, .xferDone, .result]) ∨
  (restA s ∧ s.seq.ops = [.xferDone, .result]) ∨
  (restA s ∧ s.seq.ops = [.result])

/-- Where a Backend A instance can stand. -/
def pointA (s : State) : Prop :=
  match s.seq.phase with
  | .pIdle => restA s ∧ s.seq.ops = []
  | .pStart => startPoint s
  | .pInstr => instrPoint s
  | .pAddr => addrPoint s
  | .pDummy => dummyPoint s
  | .pData => if s.desc.dirWrite then writePoint s else readPoint s
  | .pEnd => endPoint s

/-! ## Control points of Backend B -/

/-- The table engine is at rest (R82). -/
def restB (s : State) : Prop := csOff s ∧ s.b.sts.busy = false

/-- A request is running or has ended (R42, R203, R204). -/
def issuedB (s : State) : Prop :=
  (s.b.sts.busy = true ∧ s.b.sts.done = false ∧ s.b.ipSeq = 1 ∧ s.b.slot.toNat ≤ 8 ∧ (csOff s ∨ csOn s)) ∨
  (s.b.sts.busy = false ∧ s.b.sts.done = true)

/-- The request has ended. -/
def endedB (s : State) : Prop := s.b.sts.busy = false ∧ s.b.sts.done = true

/-- Where a Backend B instance can stand. -/
def pointB (s : State) : Prop :=
  match s.seq.phase with
  | .pIdle => restB s ∧ s.seq.ops = []
  | .pStart =>
    (restB s ∧ (s.seq.ops = [] ∨ (∃ p0 p1 p2 p3, s.seq.ops = [.load p0 p1 p2 p3, .issue, .goto .pData]) ∨
      s.seq.ops = [.issue, .goto .pData])) ∨
    (issuedB s ∧ s.seq.ops = [.goto .pData])
  | .pInstr => False
  | .pAddr => False
  | .pDummy => False
  | .pData => (issuedB s ∧ (s.seq.ops = [] ∨ s.seq.ops = [.wait .done, .goto .pEnd])) ∨
      (endedB s ∧ s.seq.ops = [.goto .pEnd])
  | .pEnd => (endedB s ∧ (s.seq.ops = [] ∨ s.seq.ops = [.wait .csReleased, .result])) ∨
      (restB s ∧ s.seq.ops = [.result])

/-! ## The invariant -/

/-- What holds of every reachable state, whatever SEQ is doing (R50 and the rules it is derived from). -/
structure Base (s : State) : Prop where
  /-- R6: the depths are legal -/
  params : s.params.wf = true
  /-- R50 (a) -/
  latch : s.host.configured = true ↔ s.host.st ≠ .uninit
  /-- a transfer runs exactly while SEQ is in a phase (R21, R25) -/
  running : s.host.st = .xfer ↔ s.seq.phase ≠ .pIdle
  /-- a running transfer's descriptor has passed validation and is frozen (R133, R84) -/
  valid : s.host.st = .xfer → s.desc.validate s.params.backend = none
  /-- R50 (b) -/
  txBound : s.a.txf.length ≤ s.params.txDepth
  /-- R50 (b) -/
  rxBound : s.a.rxf.length ≤ s.params.rxDepth
  /-- R50 (e); WIDTH is never 3 by its type -/
  frame : s.a.tcr.framesz = 7 ∧ s.a.tcr.pcs = 0
  /-- R37: the shifter is never observed inside a frame -/
  shifter : s.a.shiftBusy = false
  /-- R50 (d) -/
  boot : s.params.backend = .B → s.host.configured = true →
    s.b.lut.w0 = s.params.boot0 ∧ s.b.lut.w1 = s.params.boot1 ∧ s.b.lut.w2 = s.params.boot2 ∧
      s.b.lut.w3 = s.params.boot3
  /-- BUF in its canonical form -/
  buf : Memory.wf s.buf = true
  /-- SCRATCH in its canonical form -/
  scratch : Memory.wf s.a.scratch = true
  /-- TRACE in the normal form of R9 -/
  trace : normalTrace s.trace = true

/-- The invariant of reachable states: the base and the control point, with R50 (c) and (f). -/
structure Inv (s : State) : Prop extends Base s where
  point : match s.params.backend with
    | .A => pointA s
    | .B => pointB s

end Sys2Proof.Machine
end

