-- ==== Sys2Proof/Certificates/Slice0/Obligations.lean ====
section
/-! DEFINITION. The statements about the model, each from the numbered rules of spec/ or, where it says so, from
a choice of the model that a log entry names. -/

open Sys2Proof Sys2Proof.Machine

/-! ## Encodings (30_encoding.md, 20_memory.md R71) -/

/-- O1. Decode and encode agree: every well-formed instruction, with every operand, is read back from its word
in its place (R100 to R105, R108, R160 to R165, R25). The place of a word is the model's reading of the opcode
table's equal words (log 17). -/
def Obligations.DecodeOfEncode : Prop :=
  ∀ i : Instr, i.wellFormed = true → decode (encode i) = .ok i

/-- O2. The other direction: a word that decodes is the word the encoder writes for that instruction, and the
instruction is well-formed, so no two words of one place are one instruction and no reserved encoding falls
through to a neighbour (R105). -/
def Obligations.EncodeOfDecode : Prop :=
  ∀ (c : CodeWord) (i : Instr), decode c = .ok i → i.wellFormed = true ∧ (encode i).bits = c.bits ∧
    ((encode i).space = c.space ∨ ∃ d d', (encode i).space = .seq d ∧ c.space = .seq d')

/-- O3. `encode` and `decode` of R100 are inverse on all triples and all half-words; the width code of 1, 2, 4
lines is 0, 1, 2, `lines(code) = 1 << code`, and code 3 comes from no legal width (R100, R103). -/
def Obligations.HalfWordFields : Prop :=
  (∀ (op : BitVec 6) (w : BitVec 2) (x : Byte), halfOp (encodeHalf op w x) = op ∧
    halfW (encodeHalf op w x) = w ∧ halfOperand (encodeHalf op w x) = x) ∧
  (∀ h : Half, encodeHalf (halfOp h) (halfW h) (halfOperand h) = h) ∧
  wcode 1 = 0 ∧ wcode 2 = 1 ∧ wcode 4 = 2 ∧ (∀ w : Width, w.lines = 1 <<< w.code.toNat) ∧
    ∀ lw : BitVec 3, lw = 0 ∨ lw = 1 ∨ lw = 2 ∨ lw = 4 → wcode lw ≠ 3

/-- O4. The illegal half-words are exactly those of R105. -/
def Obligations.IllegalHalfWords : Prop :=
  ∀ h : Half, (∃ e, decodeHalf h = .error e) ↔
    (halfOp h ≠ 0x00 ∧ halfOp h ≠ 0x01 ∧ halfOp h ≠ 0x02 ∧ halfOp h ≠ 0x07 ∧ halfOp h ≠ 0x08 ∧ halfOp h ≠ 0x09 ∧
      halfOp h ≠ 0x0C) ∨
    halfW h = 3 ∨
    (halfOp h = 0x00 ∧ (halfW h ≠ 0 ∨ halfOperand h ≠ 0)) ∨
    (halfOp h = 0x02 ∧ 4 < (halfOperand h).toNat)

/-- O5. Words written out from the spec's encodings decode to the instructions they stand for (V5 of
95_test_vectors.md; R108; R27 for the words of CR; the CTLOP and SEQSTEP rows of the opcode table). -/
def Obligations.SampleWords : Prop :=
  decode ⟨.lut, 0x0000⟩ = .ok .stop ∧
  decode ⟨.lut, 0x06EB⟩ = .ok (.cmd .w4 0xEB) ∧
  decode ⟨.lut, 0x0904⟩ = .ok (.raddr .w2 4) ∧
  decode ⟨.lut, 0x1DA5⟩ = .ok (.mode8 .w2 0xA5) ∧
  decode ⟨.lut, 0x2200⟩ = .ok (.write .w4 0) ∧
  decode ⟨.lut, 0x2500⟩ = .ok (.read .w2 0) ∧
  decode ⟨.lut, 0x3208⟩ = .ok (.dummy .w4 8) ∧
  decode ⟨.cmd, 2⟩ = .ok .transfer ∧
  decode ⟨.ctl .cr, 0x301⟩ = .ok (.flush true) ∧
  decode ⟨.ctl .cr, 1⟩ = .ok .enable ∧
  decode ⟨.ctl .tcr, 0x073A⟩ = .ok (.setctl false false true true true false .w4) ∧
  decode ⟨.seq false, 5⟩ = .ok .aDataR ∧ decode ⟨.seq true, 5⟩ = .ok .aDataW

/-- O6. Serialisation is most significant byte first, drops bits above the size, and gives 0 for a shift of 32
or more (R71). -/
def Obligations.SerialiseBigEndian : Prop :=
  ∀ (c : Word) (size : Nat), (serialise c size).length = size ∧
    ∀ i (h : i < (serialise c size).length), (serialise c size)[i].toNat = c.toNat / 256 ^ (size - 1 - i) % 256

/-- O7. Slot placement: opcode number `k` of a compiled program is in word `k / 2`, in the low half if `k` is
even and the high half if `k` is odd; the first is `prog[0][15:0]` (R201). -/
def Obligations.SlotPlacement : Prop :=
  ∀ d : Desc,
    (∀ k (h : k < d.opcodes.length),
      (if k % 2 = 0 then lowHalf (d.compile.getD (k / 2) 0) else highHalf (d.compile.getD (k / 2) 0)) = d.opcodes[k]) ∧
    ((d.compile.getD 0 0).extractLsb' 0 16 = d.opcodes.getD 0 0)

/-- O8. A compiled program has 4 words and at most 5 opcodes; decoded, it is the descriptor's phases in order with
their widths and operands: as fields, and each slot as the instruction; and what follows is STOP (R102, R113, R200). -/
def Obligations.CompileRoundTrip : Prop :=
  (∀ d : Desc, d.compile.length = 4 ∧ d.opcodes.length ≤ 5) ∧
  ∀ d : Desc, d.validate .B = none →
    decodeSeq d.compile = d.programB.map (fun i => decodeFields (lowHalf (encode i).bits)) ∧
    d.opcodes.map decodeHalf = d.programB.map Except.ok ∧
    ∀ k, d.opcodes.length ≤ k → k < 8 →
      decodeHalf (if k % 2 = 0 then lowHalf (d.compile.getD (k / 2) 0) else highHalf (d.compile.getD (k / 2) 0)) =
        .ok .stop

/-! ## Host commands and the host port (40_host_commands.md, 10_state.md) -/

/-- O9. CONFIGURE that succeeds on Backend A (R130, R131): what it writes, and nothing else. -/
def Obligations.ConfigureBackendA : Prop :=
  ∀ s : State, s.params.backend = .A → s.host.st ≠ .xfer → s.host.configured = false →
    s.env.pins.initFail = false →
    exec .configure s = .next { s with
      host := { s.host with configured := true, st := .idle, resStatus := 0, resCause := 0, resCount := 0 }
      a := { s.a with
        cfgr := { pcspol := false, master := true, baudDiv := Config.baudDiv s.params.inputClkHz s.host.cfgArg0 }
        fcr := { txwater := 0, rxwater := 0 }
        tcr := { s.a.tcr with
          cpol := decide (s.host.cfgArg1.toNat % 4 = 3), cpha := decide (s.host.cfgArg1.toNat % 4 = 3)
          framesz := 7, pcs := 0 } } }

/-- O10. CONFIGURE that succeeds on Backend B (R130, R132): what it writes, and nothing else. -/
def Obligations.ConfigureBackendB : Prop :=
  ∀ s : State, s.params.backend = .B → s.host.st ≠ .xfer → s.host.configured = false →
    s.env.pins.initFail = false →
    exec .configure s = .next { s with
      host := { s.host with configured := true, st := .idle, resStatus := 0, resCause := 0, resCount := 0 }
      b := { s.b with
        mcr := { prefetchEn := true, bufferableEn := true, cacheableEn := true, rxclksrc := 0 }
        flashSize := s.host.cfgArg0
        flshcr1 := { csSetup := s.host.cfgArg1.extractLsb' 0 8, csHold := s.host.cfgArg1.extractLsb' 8 8,
                     csInterval := s.host.cfgArg1.extractLsb' 16 8 }
        lut := { s.b.lut with w0 := s.params.boot0, w1 := s.params.boot1, w2 := s.params.boot2,
                              w3 := s.params.boot3 } } }

/-- O11. A second CONFIGURE writes no register but the result `Ok(0)` (R130, R310). -/
def Obligations.ConfigureAgain : Prop :=
  ∀ s : State, s.host.st ≠ .xfer → s.host.configured = true →
    exec .configure s = .next { s with host := { s.host with resStatus := 0, resCause := 0, resCount := 0 } }

/-- O12. A CONFIGURE that fails (R274, R280): the result registers, and the configuration registers of its
backend at values nothing is said of (the free values of log 11); the latch, STATE and everything else stay. -/
def Obligations.ConfigureFails : Prop :=
  ∀ s : State, s.host.st ≠ .xfer → s.host.configured = false → s.env.pins.initFail = true →
    ∃ t, exec .configure s = .next t ∧
      t.host = { s.host with resStatus := 1, resCause := 0, resCount := 0 } ∧
      t.params = s.params ∧ t.desc = s.desc ∧ t.seq = s.seq ∧ t.cs = s.cs ∧ t.buf = s.buf ∧ t.trace = s.trace ∧
      t.env.pins = s.env.pins ∧ t.env.turns = s.env.turns ∧ t.env.past = s.env.past ∧
      t.a = { s.a with cfgr := t.a.cfgr, fcr := t.a.fcr,
                       tcr := { s.a.tcr with cpol := t.a.tcr.cpol, cpha := t.a.tcr.cpha } } ∧
      t.b = { s.b with mcr := t.b.mcr, flashSize := t.b.flashSize, flshcr1 := t.b.flshcr1,
                       lut := { s.b.lut with w0 := t.b.lut.w0, w1 := t.b.lut.w1, w2 := t.b.lut.w2, w3 := t.b.lut.w3 } } ∧
      (s.params.backend = .A → t.b = s.b) ∧ (s.params.backend = .B → t.a = s.a)

/-- O13. TRANSFER before CONFIGURE is `NotConfigured`, whatever the descriptor holds; a written descriptor that
fails a check is `Malformed` with the cause of the first check that fails. Nothing but the result registers
changes (R134, R271, R272, R279, R280). -/
def Obligations.TransferRejected : Prop :=
  ∀ s : State,
    (s.host.st = .uninit →
      exec .transfer s = .next { s with host := { s.host with resStatus := 4, resCause := 0, resCount := 0 } }) ∧
    ∀ c : Cause, s.host.st = .idle → s.desc.allWritten → s.desc.validate s.params.backend = some c →
      exec .transfer s = .next { s with host := { s.host with resStatus := 2, resCause := c.code, resCount := 0 } }

/-- O14. The checks of `validate`, in their order, and the cause codes (R134, R271), on both backends. -/
def Obligations.ValidateChecks : Prop :=
  (∀ (d : Desc) (k : Backend), d.validate k =
    if (d.instrLw = 3 ∨ d.instrLw = 5 ∨ d.instrLw = 6 ∨ d.instrLw = 7) ∨
        (d.addrLw = 3 ∨ d.addrLw = 5 ∨ d.addrLw = 6 ∨ d.addrLw = 7) ∨
        (d.altLw = 3 ∨ d.altLw = 5 ∨ d.altLw = 6 ∨ d.altLw = 7) ∨
        (d.dataLw = 3 ∨ d.dataLw = 5 ∨ d.dataLw = 6 ∨ d.dataLw = 7) then some .badWidth
    else if d.direction = 3 then some .badDir
    else if 4 < d.addrSize then some .addrSize
    else if (k = .A ∧ 32 < d.altSize) ∨ (k = .B ∧ 1 < d.altSize) then some .altSize
    else if k = .A ∧ 0 < d.addrSize + d.altSize ∧ d.addrLw ≠ 0 ∧ 32 < d.addrSize + d.altSize then
      some .scratchOverflow
    else if k = .B ∧ 255 < d.dummyCycles.toNat then some .dummyRange
    else if d.length ≠ 0 ∧ d.dataLw ≠ 0 ∧ ¬ ((d.direction = 1 ∨ d.direction = 2) ∧ d.bufferPresent = true) then
      some .noBuffer
    else none) ∧
  Cause.badWidth.code = 1 ∧ Cause.badDir.code = 2 ∧ Cause.addrSize.code = 3 ∧ Cause.altSize.code = 4 ∧
    Cause.scratchOverflow.code = 5 ∧ Cause.dummyRange.code = 6 ∧ Cause.noBuffer.code = 7

/-- O15. A written, valid descriptor is accepted: STATE is XFER and the sequencer stands at P_START, IDX 0
(R133, R25). That IDX is 0 when a phase starts is log 27. -/
def Obligations.TransferAccepted : Prop :=
  ∀ s : State, s.host.st = .idle → s.desc.allWritten → s.desc.validate s.params.backend = none →
    exec .transfer s = .next { s with
      host := { s.host with st := .xfer }, seq := { s.seq with phase := .pStart, idx := 0, ops := [] } }

/-- O16. When a TRANSFER in IDLE stops with the model's fault for a descriptor register the host has not written,
and when it does not (R23, R277): D0, D2, D4 or D6 unwritten; all checks passed and D5, D7, or a D1 or D3 that a
present phase uses, unwritten; the buffer check reached and failed with D7 (on Backend B also D5) unwritten; the
dummy check reached and failed with D5 unwritten. Which registers a TRANSFER reads before it stops is the model's
reading of R134 (log 4). -/
def Obligations.TransferUnwritten : Prop :=
  ∀ s : State, s.host.st = .idle →
    (exec .transfer s = .fault .unwrittenDescriptor ↔
      (s.desc.has 0 = false ∨ s.desc.has 2 = false ∨ s.desc.has 4 = false ∨ s.desc.has 6 = false) ∨
      (s.desc.validate s.params.backend = none ∧
        (s.desc.has 5 = false ∨ s.desc.has 7 = false ∨
          (s.desc.usesAddr s.params.backend = true ∧ s.desc.has 1 = false) ∨
          (s.desc.usesAlt s.params.backend = true ∧ s.desc.has 3 = false))) ∨
      (s.desc.validate s.params.backend = some .noBuffer ∧
        (s.desc.has 7 = false ∨ (s.params.backend = .B ∧ s.desc.has 5 = false))) ∨
      (s.desc.validate s.params.backend = some .dummyRange ∧ s.desc.has 5 = false))

/-- O17. While a transfer runs every action of the host is refused: the commands under their own name, an unknown
code under its own, everything else as blocked (R84, R273, R312). That a read is refused too, of a register or of
BUF, and under which name, is the model's choice (log 18). -/
def Obligations.HostBlocked : Prop :=
  ∀ s : State, s.host.st = .xfer →
    exec .configure s = .refused .commandDuringTransfer ∧ exec .transfer s = .refused .commandDuringTransfer ∧
    (∀ n v, n ≠ 0 → s.turn (.host (.writeReg n v)) = .refused .hostBlocked) ∧
    (∀ v : Word, v ≠ 1 → v ≠ 2 → s.turn (.host (.writeReg 0 v)) = .refused .unknownCommand) ∧
    (∀ n, s.turn (.host (.readReg n)) = .refused .hostBlocked) ∧
    (∀ i b, s.turn (.host (.writeBuf i b)) = .refused .hostBlocked) ∧
    (∀ i, s.turn (.host (.readBuf i)) = .refused .hostBlocked)

/-- O18. Every register of R46. A host write of D`i` keeps the register's defined bits, reserved bits read 0, marks
D`i` as written and no other (R23), and no other register changes; a host write of CFG_ARG`i` likewise; a host write
of any other register than CMD is refused; a host read gives the register's image and has no other effect; a read of
CMD and a number that is not in the table of the backend are refused; the images, bit by bit (R27, R28, R30, R31, R32,
R39, R41, R42); a host write of a byte of BUF changes that byte alone, a read gives it (R24, R46, R70, R273). The read
data, and the refusal of a read of CMD, are the model's own (log 18); that a D or CFG_ARG register never written reads
as a value is log 4's and log 5's choice; that the bits no rule lists read 0 outside D0 to D7 is log 26's. -/
def Obligations.HostRegisters : Prop :=
  (∀ (s : State) (i : BitVec 3) (v : Word), s.host.st ≠ .xfer →
    let mask : Word := if i = 0 then 0x7FF else if i = 2 then 0x77 else if i = 4 then 0x73F else if i = 6 then 0x77
      else 0xFFFFFFFF
    ∃ t, s.turn (.host (.writeReg (8 + i.setWidth 8) v)) = .next t ∧
      t.regImage (8 + i.setWidth 8) = some (v &&& mask) ∧
      (∀ n, n ≠ 8 + i.setWidth 8 → t.regImage n = s.regImage n) ∧
      t.desc.has i.toNat = true ∧ (∀ j, j ≠ i.toNat → t.desc.has j = s.desc.has j) ∧
      t = { s with desc := t.desc }) ∧
  (∀ (s : State) (i : BitVec 2) (v : Word), s.host.st ≠ .xfer →
    ∃ t, s.turn (.host (.writeReg (4 + i.setWidth 8) v)) = .next t ∧ t.regImage (4 + i.setWidth 8) = some v ∧
      (∀ n, n ≠ 4 + i.setWidth 8 → t.regImage n = s.regImage n) ∧ t = { s with host := t.host }) ∧
  (∀ (s : State) (n : BitVec 8), s.host.st ≠ .xfer → n ≠ 0 →
    (∀ v, s.regImage n = some v →
      s.turn (.host (.readReg n)) = .next { s with host := { s.host with rdata := v } }) ∧
    (s.regImage n = none → s.turn (.host (.readReg n)) = .refused .noSuchRegister ∧
      ∀ v, s.turn (.host (.writeReg n v)) = .refused .noSuchRegister) ∧
    (∀ v x, s.regImage n = some x → n.toNat < 4 ∨ 16 ≤ n.toNat →
      s.turn (.host (.writeReg n v)) = .refused .readOnlyRegister) ∧
    s.turn (.host (.readReg 0)) = .refused .writeOnlyRegister ∧
    (∀ i : BitVec 32, s.turn (.host (.readBuf i)) =
      .next { s with host := { s.host with rdata := (Memory.read s.buf i.toNat).setWidth 32 } }) ∧
    (∀ (i : BitVec 32) (b : Byte), Memory.wf s.buf = true → ∃ m, s.turn (.host (.writeBuf i b)) =
      .next { s with buf := m } ∧ Memory.read m i.toNat = b ∧
      ∀ j, j ≠ i.toNat → Memory.read m j = Memory.read s.buf j)) ∧
  (∀ (s : State) (n : BitVec 8), s.regImage n = none ↔
    n = 0 ∨ (0x17 ≤ n.toNat ∧ (s.params.backend = .A ∨ n.toNat < 0x20 ∨ 0x28 ≤ n.toNat))) ∧
  ∀ s : State,
    (s.regImage 0x01).map BitVec.toNat = some ((match s.host.st with | .uninit => 0 | .idle => 1 | .xfer => 2) +
      2 ^ 8 * s.host.configured.toNat) ∧
    (s.regImage 0x02).map BitVec.toNat = some (s.host.resStatus.toNat + 2 ^ 8 * s.host.resCause.toNat) ∧
    s.regImage 0x03 = some s.host.resCount ∧
    s.regImage 0x04 = some s.host.cfgArg0 ∧ s.regImage 0x05 = some s.host.cfgArg1 ∧
    s.regImage 0x06 = some s.host.cfgArg2 ∧ s.regImage 0x07 = some s.host.cfgArg3 ∧
    s.regImage 0x08 = some s.desc.d0 ∧ s.regImage 0x09 = some s.desc.d1 ∧ s.regImage 0x0A = some s.desc.d2 ∧
    s.regImage 0x0B = some s.desc.d3 ∧ s.regImage 0x0C = some s.desc.d4 ∧ s.regImage 0x0D = some s.desc.d5 ∧
    s.regImage 0x0E = some s.desc.d6 ∧ s.regImage 0x0F = some s.desc.d7 ∧
    (s.params.backend = .A →
      (s.regImage 0x10).map BitVec.toNat = some s.a.en.toNat ∧
      (s.regImage 0x11).map BitVec.toNat = some (s.a.sr.frameDone.toNat + 2 * s.a.sr.xferDone.toNat +
        2 ^ 2 * s.a.sr.txErr.toNat + 2 ^ 3 * s.a.sr.rxErr.toNat + 2 ^ 24 * s.a.shiftBusy.toNat) ∧
      (s.regImage 0x12).map BitVec.toNat = some (s.a.txf.length % 256 + 2 ^ 16 * (s.a.rxf.length % 256)) ∧
      (s.regImage 0x13).map BitVec.toNat = some (s.params.txDepth % 256 + 2 ^ 8 * (s.params.rxDepth % 256)) ∧
      (s.regImage 0x14).map BitVec.toNat = some (s.a.tcr.width.lines / 2 + 2 ^ 2 * s.a.tcr.txmsk.toNat +
        2 ^ 3 * s.a.tcr.rxmsk.toNat + 2 ^ 4 * s.a.tcr.contc.toNat + 2 ^ 5 * s.a.tcr.cont.toNat +
        2 ^ 6 * s.a.tcr.pcs.toNat + 2 ^ 8 * s.a.tcr.framesz.toNat + 2 ^ 14 * s.a.tcr.cpha.toNat +
        2 ^ 15 * s.a.tcr.cpol.toNat) ∧
      (s.regImage 0x15).map BitVec.toNat = some (s.a.cfgr.pcspol.toNat + 2 * s.a.cfgr.master.toNat +
        2 ^ 8 * s.a.cfgr.baudDiv.toNat) ∧
      (s.regImage 0x16).map BitVec.toNat = some (s.a.fcr.txwater.toNat + 2 ^ 16 * s.a.fcr.rxwater.toNat)) ∧
    (s.params.backend = .B →
      (s.regImage 0x10).map BitVec.toNat = some (s.b.mcr.prefetchEn.toNat + 2 * s.b.mcr.bufferableEn.toNat +
        2 ^ 2 * s.b.mcr.cacheableEn.toNat + 2 ^ 4 * s.b.mcr.rxclksrc.toNat) ∧
      s.regImage 0x11 = some s.b.flashSize ∧
      (s.regImage 0x12).map BitVec.toNat = some (s.b.flshcr1.csSetup.toNat + 2 ^ 8 * s.b.flshcr1.csHold.toNat +
        2 ^ 16 * s.b.flshcr1.csInterval.toNat) ∧
      s.regImage 0x13 = some s.b.ipAddr ∧
      (s.regImage 0x14).map BitVec.toNat = some ((match s.b.ipXtype with | .command => 0 | .read => 1 | .write => 2) +
        2 ^ 4 * s.b.ipSeq.toNat) ∧
      s.regImage 0x15 = some s.b.ipLen ∧
      (s.regImage 0x16).map BitVec.toNat = some (s.b.sts.done.toNat + 2 * s.b.sts.fail.toNat +
        2 ^ 2 * s.b.sts.busy.toNat) ∧
      s.regImage 0x20 = some s.b.lut.w0 ∧ s.regImage 0x21 = some s.b.lut.w1 ∧ s.regImage 0x22 = some s.b.lut.w2 ∧
      s.regImage 0x23 = some s.b.lut.w3 ∧ s.regImage 0x24 = some s.b.lut.w4 ∧ s.regImage 0x25 = some s.b.lut.w5 ∧
      s.regImage 0x26 = some s.b.lut.w6 ∧ s.regImage 0x27 = some s.b.lut.w7)

/-- O19. `FSR` is always the two FIFO lengths, it is read-only to the host, and both counts are 0 after the reset of
every instance (R29, R46, R273). That its other bits read 0 is test vector V14; the name of the refusal while a
transfer runs is log 18. -/
def Obligations.FifoStatus : Prop :=
  (∀ s : State, Inv s → s.params.backend = .A → ∃ v, s.regImage 0x12 = some v ∧
    (v.extractLsb' 0 8).toNat = s.a.txf.length ∧ (v.extractLsb' 16 8).toNat = s.a.rxf.length ∧
    v.extractLsb' 8 8 = 0 ∧ v.extractLsb' 24 8 = 0 ∧
    ∀ x, s.turn (.host (.writeReg 0x12 x)) =
      .refused (if s.host.st = .xfer then .hostBlocked else .readOnlyRegister)) ∧
  ∀ p : Params, (State.resetWith p).a.txf = [] ∧ (State.resetWith p).a.rxf = []

/-- O20. The result of a transfer that ends (R139): the length, or 0 on Backend A and 1 on Backend B where there
is no data phase; on Backend B a hardware failure gives `HwFailure` with no count. The result changes no byte of BUF
but, after a hardware failure of a read, those below the length, which are free (R215, R280; log 11). -/
def Obligations.TransferResult : Prop :=
  ∀ s : State, s.seq.ops = [.result] → ∃ t, s.turn .seq = .next t ∧ t.host.st = .idle ∧ t.seq.phase = .pIdle ∧
    (s.params.backend = .A →
      t.host.resStatus = 0 ∧ t.host.resCause = 0 ∧
        t.host.resCount = if s.desc.length ≠ 0 ∧ s.desc.dataLw ≠ 0 then s.desc.length else 0) ∧
    (s.params.backend = .B → s.b.sts.fail = false →
      t.host.resStatus = 0 ∧ t.host.resCause = 0 ∧
        t.host.resCount = if s.desc.length ≠ 0 ∧ s.desc.dataLw ≠ 0 then s.desc.length else 1) ∧
    (s.params.backend = .B → s.b.sts.fail = true →
      t.host.resStatus = 3 ∧ t.host.resCause = 0 ∧ t.host.resCount = 0) ∧
    t.trace = s.trace ∧
    (Memory.wf s.buf = true → ∀ n : Nat, s.params.backend = .A ∨ s.b.sts.fail = false ∨
      s.desc.dataPresent = false ∨ s.desc.direction ≠ 1 ∨ s.desc.length.toNat ≤ n →
      Memory.read t.buf n = Memory.read s.buf n)

/-! ## Backend A's controller operations (41_backend_a_fifo.md R160 to R165) -/

/-- O21. FLUSH is the write of `CR` with `RTF` and `RRF` set; it empties both FIFOs, so both counts of FSR are 0,
and writes nothing else; SEQ performs it only with chip-select deasserted and the shifter idle (R160). That a word
whose copy of EN differs keeps EN too is the model's reading (log 16). -/
def Obligations.FlushOperation : Prop :=
  (∀ e : Bool, decode ⟨.ctl .cr, if e then 0x301 else 0x300⟩ = .ok (.flush e)) ∧
  (∀ (s : State) (e : Bool), exec (.flush e) s = .next { s with a := { s.a with txf := [], rxf := [] } }) ∧
  (∀ s : State, ({ s.a with txf := [], rxf := [] } : CtlA).fsrWord = 0) ∧
  ∀ (s : State) (e : Bool) (rest : List SeqOp), Inv s → s.params.backend = .A → s.seq.ops = flushOp e :: rest →
    s.cs.asserted = false ∧ s.a.shiftBusy = false

/-- O22. CLRFLAGS writes 1 to every sticky bit of SR; it clears the four sticky flags of SR and nothing else;
`SR.BUSY` is live and unaffected (R161). -/
def Obligations.ClearFlagsOperation : Prop :=
  decode ⟨.ctl .sr, 0xF⟩ = .ok .clrflags ∧
  ∀ s : State, ∃ t, exec .clrflags s = .next t ∧
    t = { s with a := { s.a with
      sr := { frameDone := false, xferDone := false, txErr := false, rxErr := false } } } ∧
    t.a.srWord = s.a.srWord &&& 0x01000000

/-- O23. ENABLE sets `CR.EN` and nothing else; nothing but reset clears it; the shifter steps only when it is set
(R162). The place of EN in the word is not stated here: the word 1 is among those of SampleWords (O5). -/
def Obligations.EnableOperation : Prop :=
  (∀ s : State, exec .enable s = .next { s with a := { s.a with en := true } }) ∧
  (∀ (s t : State) (x : Turn), s.a.en = true → x ≠ .reset → s.turn x = .next t → t.a.en = true) ∧
  (∀ s : State, s.params.backend = .A → s.a.en = false → s.turn .engine = .next s)

/-- O24. SETCTL writes WIDTH and the two masks; CONT, CONTC, PCS, FRAMESZ, CPOL, CPHA and everything else are
unchanged, whatever the word's kept fields say (R163, log 16). -/
def Obligations.SetctlOperation : Prop :=
  ∀ (s : State) (p a c d r t : Bool) (w : Width), exec (.setctl p a c d r t w) s =
    .next { s with a := { s.a with tcr := { s.a.tcr with width := w, rxmsk := r, txmsk := t } } }

/-- O25. No control change over queued bytes: whenever SEQ is about to write the width and the masks, no
receive-only request is pending, and either nothing is queued or the write changes nothing that the queued bytes
see (R163, R254, R304). -/
def Obligations.NoControlChangeOverQueue : Prop :=
  ∀ (s : State) (v : Word) (rest : List SeqOp) (p a c d r x : Bool) (w : Width), Inv s → s.params.backend = .A →
    s.seq.ops = .ctl .tcr v :: rest → decode ⟨.ctl .tcr, v⟩ = .ok (.setctl p a c d r x w) →
    s.a.tcr.txmsk = false ∧ (s.a.txf = [] ∨ (s.a.tcr.width = w ∧ s.a.tcr.rxmsk = r ∧ x = false))

/-- O26. PUSH puts the byte at the tail of TXF; into a full FIFO it is the fault TxOverflow (R164, R277). -/
def Obligations.PushOperation : Prop :=
  ∀ (s : State) (d : Byte),
    (s.a.txf.length < s.params.txDepth → exec (.push d) s = .next { s with a := { s.a with txf := s.a.txf ++ [d] } }) ∧
    (s.params.txDepth ≤ s.a.txf.length → exec (.push d) s = .fault .txOverflow)

/-- O27. POP is the read of the receive data port; it takes the head of RXF, so `FSR.RXCOUNT` falls by 1; of an
empty FIFO it is a fault, which SEQ never meets (R165). The byte goes to SEQ's latch, a field of the model's own
(log 12), and the data bits of a POP word change nothing (log 16). -/
def Obligations.PopOperation : Prop :=
  (∀ d : Byte, decode ⟨.ctl .rdr, d.setWidth 32⟩ = .ok (.pop d)) ∧
  (∀ (s : State) (d b : Byte) (rest : List Byte), s.a.rxf = b :: rest →
    exec (.pop d) s = .next { s with a := { s.a with rxf := rest }, seq := { s.seq with popData := b } } ∧
    ({ s.a with rxf := rest } : CtlA).fsrWord.extractLsb' 16 8 = s.a.fsrWord.extractLsb' 16 8 - 1) ∧
  (∀ (s : State) (d : Byte), s.a.rxf = [] → exec (.pop d) s = .fault .rxUnderflow) ∧
  ∀ (s : State) (rest : List SeqOp), Inv s → s.params.backend = .A → s.seq.ops = popOp :: rest → s.a.rxf ≠ []

/-! ## The shifter (R166, R167) -/

/-- O28. A TX frame: the head of TXF leaves at the present width; with receive masked nothing is received, with
receive open one byte of the peripheral goes to the tail of RXF (R166). -/
def Obligations.TxFrame : Prop :=
  ∀ (s : State) (b : Byte) (rest : List Byte), s.params.backend = .A → s.a.en = true → s.cs = .active →
    s.env.pins.stall = false → s.a.txf = b :: rest → s.a.tcr.txmsk = false →
    (s.a.tcr.rxmsk = true → s.turn .engine = .next { s with
      a := { s.a with txf := rest, sr := { s.a.sr with frameDone := true } }
      trace := s.trace ++ [.out s.a.tcr.width b] }) ∧
    (s.a.tcr.rxmsk = false → s.a.rxf.length < s.params.rxDepth → ∃ r, s.turn .engine = .next { s with
      a := { s.a with txf := rest, rxf := s.a.rxf ++ [r], sr := { s.a.sr with frameDone := true } }
      trace := s.trace ++ [.out s.a.tcr.width b]
      env := { s.env with free := s.env.free + 1 } }) ∧
    (s.a.tcr.rxmsk = false → s.params.rxDepth ≤ s.a.rxf.length → s.turn .engine = .next s)

/-- O29. A receive-only frame consumes the request: outside P_DUMMY an `IN` of the byte received, in P_DUMMY a
`DMY` of `8 / w` cycles and a byte nothing is said of (R167). -/
def Obligations.RxFrame : Prop :=
  ∀ s : State, s.params.backend = .A → s.a.en = true → s.cs = .active → s.env.pins.stall = false → s.a.txf = [] →
    s.a.tcr.txmsk = true →
    (s.a.rxf.length < s.params.rxDepth → ∃ r, s.turn .engine = .next { s with
      a := { s.a with rxf := s.a.rxf ++ [r], tcr := { s.a.tcr with txmsk := false }
                      sr := { s.a.sr with frameDone := true } }
      trace := emitTo s.trace
        (if s.seq.phase = .pDummy then .dmy (8 / s.a.tcr.width.lines) else .inp s.a.tcr.width r)
      env := { s.env with free := s.env.free + 1 } }) ∧
    (s.params.rxDepth ≤ s.a.rxf.length → s.turn .engine = .next s)

/-- O30. ENGINE has no step while it is stalled or chip-select is not in CS_ACTIVE, on either backend; with
nothing queued and no request the shifter has none (R166, R167, R204, R256, R276). -/
def Obligations.EngineHolds : Prop :=
  ∀ s : State,
    (s.env.pins.stall = true ∨ s.cs ≠ .active → s.turn .engine = .next s) ∧
    (s.params.backend = .A → s.a.txf = [] → s.a.tcr.txmsk = false → s.turn .engine = .next s) ∧
    (s.params.backend = .A → s.a.txf ≠ [] → s.a.tcr.txmsk = true → s.turn .engine = .next s) ∧
    (s.params.backend = .B → s.b.sts.busy = false → s.turn .engine = .next s)

/-! ## The sequencer's six steps (R169 to R175); that each line of their pseudocode is a turn of SEQ is the model's
reading of "SEQ and ENGINE interleave freely" (log 12) -/

/-- O31. A.START: seven turns of SEQ from a deasserted chip-select flush, clear, enable, set both continuous bits with
`CS_LOW`, and stand at P_INSTR (R169); while chip-select is not asserted SEQ holds at its wait (log 12). That IDX is 0
when a phase starts is log 27. -/
def Obligations.AStartStep : Prop :=
  (∀ s : State, exec .aStart s = .next { s with seq := { s.seq with
    ops := [flushOp s.a.en, clrflagsOp, enableOp, .contOn, .wait .csAsserted, .goto .pInstr] } }) ∧
  (∀ (s : State) (rest : List SeqOp), s.seq.ops = .wait .csAsserted :: rest → s.cs = .idle ∨ s.cs = .interval →
    s.turn .seq = .next s) ∧
  ∀ s : State, s.params.backend = .A → s.seq.phase = .pStart → s.seq.ops = [] → s.cs = .idle →
    s.turns (List.replicate 7 .seq) = .next { s with
      seq := { s.seq with phase := .pInstr, idx := 0, ops := [] }
      a := { s.a with txf := [], rxf := [], en := true
                      sr := { frameDone := false, xferDone := false, txErr := false, rxErr := false }
                      tcr := { s.a.tcr with cont := true, contc := true } }
      cs := .setup, trace := s.trace ++ [.csLow] }

/-- O32. A.INSTR, present: the width, receive masked, one push, one frame, the drain, P_ADDR; absent: nothing but
P_ADDR; while TXF is not drained SEQ has no step at the drain's wait (R170, R136, R168). That IDX is 0 when a phase
starts is log 27. -/
def Obligations.AInstrStep : Prop :=
  (∀ s : State, s.desc.instrLw ≠ 0 → exec .aInstr s = .next { s with seq := { s.seq with
    ops := [setctlOp s.a.tcr s.desc.instrLw true false, pushOp s.desc.instrContent, .wait .txDrained, .goto .pAddr] } }) ∧
  (∀ s : State, s.desc.instrLw = 0 → exec .aInstr s = .next { s with
    seq := { s.seq with phase := .pAddr, idx := 0, ops := [] } }) ∧
  (∀ (s : State) (rest : List SeqOp), s.seq.ops = .wait .txDrained :: rest → s.a.txf ≠ [] ∨ s.a.shiftBusy = true →
    s.turn .seq = .next s) ∧
  ∀ (s : State) (w : Width), s.params.backend = .A → s.seq.phase = .pInstr → s.seq.ops = [] →
    s.desc.instrLw.toNat = w.lines → s.a.en = true → s.cs = .active → s.env.pins.stall = false → s.a.txf = [] →
    0 < s.params.txDepth → s.a.shiftBusy = false →
    s.turns [.seq, .seq, .seq, .engine, .seq, .seq] = .next { s with
      seq := { s.seq with phase := .pAddr, idx := 0, ops := [] }
      a := { s.a with tcr := { s.a.tcr with width := w, rxmsk := true, txmsk := false }
                      sr := { s.a.sr with frameDone := true } }
      trace := s.trace ++ [.out w s.desc.instrContent] }

/-- O33. A.ADDR, present: the address bytes and the mode bytes go to SCRATCH, are pushed with no test for a full FIFO,
leave in order at the address width, and SEQ stands at P_DUMMY; absent: nothing but P_DUMMY (R171, R136, R138). What
IDX holds when a phase starts and after its last round is log 27. -/
def Obligations.AAddrStep : Prop :=
  (∀ s : State, s.desc.addrPresent = false → exec .aAddr s = .next { s with
    seq := { s.seq with phase := .pDummy, idx := 0, ops := [] } }) ∧
  (∀ s : State, s.desc.addrPresent = true → s.desc.addrSize + s.desc.altSize ≤ 32 → Memory.wf s.a.scratch = true →
    ∃ m ops, exec .aAddr s = .next { s with a := { s.a with scratch := m }, seq := { s.seq with ops := ops } } ∧
      (∀ i (h : i < s.desc.addrBytes.length), Memory.read m i = s.desc.addrBytes[i]) ∧
      (∀ i, s.desc.addrBytes.length ≤ i → Memory.read m i = Memory.read s.a.scratch i)) ∧
  ∀ (s : State) (w : Width), s.params.backend = .A → s.seq.phase = .pAddr → s.seq.ops = [] →
    s.desc.addrPresent = true → s.desc.addrLw.toNat = w.lines →
    s.desc.addrSize + s.desc.altSize ≤ 32 → s.desc.addrSize + s.desc.altSize ≤ s.params.txDepth →
    Memory.wf s.a.scratch = true → s.a.en = true → s.cs = .active → s.env.pins.stall = false → s.a.txf = [] →
    s.a.shiftBusy = false →
    let k := s.desc.addrSize + s.desc.altSize
    ∃ m, s.turns (List.replicate (2 + 2 * k) .seq ++ List.replicate k .engine ++ [.seq, .seq]) = .next { s with
      seq := { s.seq with phase := .pDummy, idx := 0, ops := [] }
      a := { s.a with scratch := m, tcr := { s.a.tcr with width := w, rxmsk := true, txmsk := false }
                      sr := { s.a.sr with frameDone := true } }
      trace := s.trace ++ (serialise s.desc.addrContent s.desc.addrSize ++
        serialise s.desc.altContent s.desc.altSize).map (Event.out w) }

/-- O34. The unguarded pushes meet a full FIFO: with more address and mode bytes than TXF is deep, a schedule in
which ENGINE takes no turn ends in TxOverflow (R171, R305, R277). -/
def Obligations.AddressOverflow : Prop :=
  ∀ s : State, s.params.backend = .A → s.seq.phase = .pAddr → s.seq.ops = [] → s.desc.addrPresent = true →
    lwLegal s.desc.addrLw = true → s.desc.addrSize + s.desc.altSize ≤ 32 → s.a.txf = [] →
    s.params.txDepth < s.desc.addrSize + s.desc.altSize →
    s.turns (List.replicate (3 + 2 * s.params.txDepth) .seq) = .fault .txOverflow

/-- O35. A.DUMMY: a round is a receive-only request at 4 lines, a `DMY(2)`, a wait and a pop of the byte, which is
discarded; the phase ends after `dummy_cycles / 2` rounds, and one cycle means no round and no width change; while no
byte has been received SEQ has no step at its wait (R172, R111, R168). What IDX holds when a phase starts and after its
last round is log 27. -/
def Obligations.ADummyStep : Prop :=
  (∀ s : State, s.seq.idx.toNat < s.desc.dummyCycles.toNat / 2 → exec .aDummy s = .next { s with seq := { s.seq with
    ops := [setctlOp s.a.tcr 4 false true, .wait .rxAvail, popOp, .nextIdx] } }) ∧
  (∀ s : State, s.desc.dummyCycles.toNat / 2 ≤ s.seq.idx.toNat → exec .aDummy s = .next { s with
    seq := { s.seq with phase := .pData, idx := 0, ops := [] } }) ∧
  (∀ (s : State) (rest : List SeqOp), s.seq.ops = .wait .rxAvail :: rest → s.a.rxf = [] → s.turn .seq = .next s) ∧
  ∀ s : State, s.params.backend = .A → s.seq.phase = .pDummy → s.seq.ops = [] →
    s.seq.idx.toNat < s.desc.dummyCycles.toNat / 2 → s.a.en = true → s.cs = .active → s.env.pins.stall = false →
    s.a.txf = [] → s.a.rxf = [] → 0 < s.params.rxDepth →
    ∃ r, s.turns [.seq, .seq, .engine, .seq, .seq, .seq] = .next { s with
      seq := { s.seq with idx := s.seq.idx + 1, popData := r }
      a := { s.a with tcr := { s.a.tcr with width := .w4, rxmsk := false, txmsk := false }
                      sr := { s.a.sr with frameDone := true } }
      trace := emitTo s.trace (.dmy 2), env := { s.env with free := s.env.free + 1 } }

/-- O36. A.DATA, write direction: a round sets the width with receive masked, waits for room and pushes `BUF[IDX]`;
after the last byte SEQ waits for the drain; with no data phase nothing happens; while TXF is full SEQ has no step at
its wait (R173, R136, R168). What IDX holds when a phase starts and after its last round is log 27. -/
def Obligations.ADataWriteStep : Prop :=
  (∀ s : State, s.desc.dataPresent = true → s.seq.idx.toNat < s.desc.length.toNat →
    exec .aDataW s = .next { s with seq := { s.seq with ops := [setctlOp s.a.tcr s.desc.dataLw true false,
      .wait .txNotFull, pushOp (Memory.read s.buf s.seq.idx.toNat), .nextIdx] } }) ∧
  (∀ s : State, s.desc.dataPresent = true → s.desc.length.toNat ≤ s.seq.idx.toNat →
    exec .aDataW s = .next { s with seq := { s.seq with ops := [.wait .txDrained, .goto .pEnd] } }) ∧
  (∀ s : State, s.desc.dataPresent = false → exec .aDataW s = .next { s with
    seq := { s.seq with phase := .pEnd, idx := 0, ops := [] } }) ∧
  (∀ (s : State) (rest : List SeqOp), s.seq.ops = .wait .txNotFull :: rest → s.params.txDepth ≤ s.a.txf.length →
    s.turn .seq = .next s) ∧
  ∀ (s : State) (w : Width), s.params.backend = .A → s.seq.phase = .pData → s.seq.ops = [] →
    s.desc.direction = 2 → s.desc.dataPresent = true → s.desc.dataLw.toNat = w.lines →
    s.seq.idx.toNat < s.desc.length.toNat → s.a.txf.length < s.params.txDepth →
    s.turns (List.replicate 5 .seq) = .next { s with
      seq := { s.seq with idx := s.seq.idx + 1 }
      a := { s.a with tcr := { s.a.tcr with width := w, rxmsk := true, txmsk := false }
                      txf := s.a.txf ++ [Memory.read s.buf s.seq.idx.toNat] } }

/-- O37. A.DATA, read direction: a round is one receive-only request at the data width, an `IN` of a byte, and that
byte stored at `BUF[IDX]`, every other byte of BUF untouched (R174, R136). What IDX holds when a phase starts and after
its last round is log 27. -/
def Obligations.ADataReadStep : Prop :=
  (∀ s : State, s.desc.dataPresent = true → s.seq.idx.toNat < s.desc.length.toNat →
    exec .aDataR s = .next { s with seq := { s.seq with ops := [setctlOp s.a.tcr s.desc.dataLw false true,
      .wait .rxAvail, popOp, .bufStore, .nextIdx] } }) ∧
  (∀ s : State, s.desc.dataPresent = false ∨ s.desc.length.toNat ≤ s.seq.idx.toNat → exec .aDataR s = .next { s with
    seq := { s.seq with phase := .pEnd, idx := 0, ops := [] } }) ∧
  ∀ (s : State) (w : Width), s.params.backend = .A → s.seq.phase = .pData → s.seq.ops = [] →
    s.desc.direction = 1 → s.desc.dataPresent = true → s.desc.dataLw.toNat = w.lines →
    s.seq.idx.toNat < s.desc.length.toNat → s.a.en = true → s.cs = .active → s.env.pins.stall = false →
    s.a.txf = [] → s.a.rxf = [] → 0 < s.params.rxDepth → Memory.wf s.buf = true →
    ∃ r m, s.turns [.seq, .seq, .engine, .seq, .seq, .seq, .seq] = .next { s with
      seq := { s.seq with idx := s.seq.idx + 1, popData := r }
      a := { s.a with tcr := { s.a.tcr with width := w, rxmsk := false, txmsk := false }
                      sr := { s.a.sr with frameDone := true } }
      buf := m, trace := s.trace ++ [.inp w r], env := { s.env with free := s.env.free + 1 } } ∧
      Memory.read m s.seq.idx.toNat = r ∧ ∀ j, j ≠ s.seq.idx.toNat → Memory.read m j = Memory.read s.buf j

/-- O38. A.END: both continuous bits cleared, the hold, `CS_HIGH`, `SR.XFER_DONE`, the result, STATE and PHASE idle;
while a byte is queued, in flight or requested, and while chip-select is still asserted, SEQ holds (R175, R140, R256,
R259). That its requirement is a wait is the model's reading (log 13). That IDX is 0 when a phase starts is log 27. -/
def Obligations.AEndStep : Prop :=
  (∀ s : State, exec .aEnd s = .next { s with seq := { s.seq with
    ops := [.wait .readyToEnd, .contOff, .wait .csReleased, .xferDone, .result] } }) ∧
  (∀ (s : State) (rest : List SeqOp), s.seq.ops = .wait .readyToEnd :: rest →
    s.a.txf ≠ [] ∨ s.a.shiftBusy = true ∨ s.a.tcr.txmsk = true → s.turn .seq = .next s) ∧
  (∀ (s : State) (rest : List SeqOp), s.seq.ops = .wait .csReleased :: rest → s.cs.asserted = true →
    s.turn .seq = .next s) ∧
  ∀ s : State, s.params.backend = .A → s.seq.phase = .pEnd → s.seq.ops = [] → s.cs = .active → s.a.txf = [] →
    s.a.shiftBusy = false → s.a.tcr.txmsk = false →
    s.turns [.seq, .seq, .seq, .cs, .cs, .seq, .seq, .seq] = .next { s with
      host := { s.host with st := .idle, resStatus := 0, resCause := 0,
                            resCount := if s.desc.dataPresent then s.desc.length else 0 }
      seq := { s.seq with phase := .pIdle, idx := 0, ops := [] }
      a := { s.a with tcr := { s.a.tcr with cont := false, contc := false }
                      sr := { s.a.sr with xferDone := true } }
      cs := .interval, trace := s.trace ++ [.csHigh] }

/-! ## Frames -/

/-- O39. The frame of the controller operations, the sequencer steps and the table opcodes: the parameters, the host
port's registers, the descriptor, chip-select, the inputs, the turns and the list of cut traces (log 8) stay; a
controller operation leaves the bus, Backend B and SEQ's place alone; a sequencer step leaves the bus, Backend B and all of Backend A but SCRATCH
alone; a table opcode leaves Backend A, SEQ and all of Backend B but SLOT, BIDX and STS alone; no byte of BUF
changes but the one a READ stores at BIDX (R160 to R165, R169 to R175, R205 to R211, R49). -/
def Obligations.InstructionFrame : Prop :=
  ∀ (s t : State) (i : Instr), i ≠ .configure → i ≠ .transfer → exec i s = .next t →
    t.params = s.params ∧ t.host = s.host ∧ t.desc = s.desc ∧ t.cs = s.cs ∧ t.env.pins = s.env.pins ∧
    t.env.turns = s.env.turns ∧ t.env.past = s.env.past ∧
    ((∃ p, (encode i).space = .ctl p) → t.b = s.b ∧ t.trace = s.trace ∧ t.env = s.env ∧
      t.seq = { s.seq with popData := t.seq.popData } ∧ ((∀ d, i ≠ .pop d) → t.seq = s.seq) ∧
      t.a.cfgr = s.a.cfgr ∧ t.a.fcr = s.a.fcr ∧ t.a.scratch = s.a.scratch ∧ t.a.shiftBusy = s.a.shiftBusy ∧
      ((∀ p a c d r x w, i ≠ .setctl p a c d r x w) → t.a.tcr = s.a.tcr) ∧
      (i ≠ .clrflags → t.a.sr = s.a.sr) ∧ (i ≠ .enable → t.a.en = s.a.en) ∧
      ((∀ d, i ≠ .push d) → (∀ e, i ≠ .flush e) → t.a.txf = s.a.txf) ∧
      ((∀ d, i ≠ .pop d) → (∀ e, i ≠ .flush e) → t.a.rxf = s.a.rxf)) ∧
    ((∃ d, (encode i).space = .seq d) → t.b = s.b ∧ t.trace = s.trace ∧ t.env = s.env ∧
      t.seq.popData = s.seq.popData ∧ t.a = { s.a with scratch := t.a.scratch } ∧ (i ≠ .aAddr → t.a = s.a)) ∧
    ((encode i).space = .lut → t.a = s.a ∧ t.seq = s.seq ∧
      t.b = { s.b with slot := t.b.slot, bidx := t.b.bidx, sts := t.b.sts }) ∧
    (Memory.wf s.buf = true → ∀ n : Nat,
      ((∃ w x, i = .read w x) → s.b.ipXtype = .read → s.b.bidx.toNat < s.b.ipLen.toNat → n ≠ s.b.bidx.toNat) →
      Memory.read t.buf n = Memory.read s.buf n)

/-! ## Backend B (42_backend_b_lut.md) -/

/-- O40. LOAD writes the four words of the compiled program to table words 4 to 7, always all four, and touches
neither the bootstrap words nor anything else; the table engine is idle (R202). Backend B's first step compiles and
hands over the load and the issue (R216); that each of them is a turn of SEQ is the model's reading (log 12). -/
def Obligations.LoadProgram : Prop :=
  (∀ (s : State) (p0 p1 p2 p3 : Word) (rest : List SeqOp), s.seq.ops = .load p0 p1 p2 p3 :: rest →
    s.turn .seq = .next { s with
      seq := { s.seq with ops := rest }
      b := { s.b with lut := { s.b.lut with w4 := p0, w5 := p1, w6 := p2, w7 := p3 } } }) ∧
  (∀ (s : State) (p0 p1 p2 p3 : Word) (rest : List SeqOp), Inv s → s.params.backend = .B →
    s.seq.ops = .load p0 p1 p2 p3 :: rest → s.b.sts.busy = false) ∧
  ∀ s : State, s.params.backend = .B → s.seq.phase = .pStart → s.seq.ops = [] →
    s.turn .seq = .next { s with seq := { s.seq with
      ops := [.load (s.desc.compile.getD 0 0) (s.desc.compile.getD 1 0) (s.desc.compile.getD 2 0)
        (s.desc.compile.getD 3 0), .issue, .goto .pData] } }

/-- O41. ISSUE writes the request registers, clears the status, starts at slot 0 and asserts chip-select; then SEQ
has no step while the sequence has not ended (R203, R214, R256). -/
def Obligations.IssueRequest : Prop :=
  (∀ (s : State) (rest : List SeqOp), s.seq.ops = .wait .done :: rest → s.b.sts.done = false →
    s.turn .seq = .next s) ∧
  ∀ (s : State) (rest : List SeqOp), s.params.backend = .B → s.seq.ops = .issue :: rest → s.cs = .idle →
    s.turn .seq = .next { s with
      seq := { s.seq with ops := rest }
      b := { s.b with
        ipAddr := if 0 < s.desc.addrSize ∧ s.desc.addrLw ≠ 0 then s.desc.addrContent else 0
        ipXtype := if s.desc.dataPresent = false then .command else if s.desc.direction = 1 then .read else .write
        ipSeq := 1, ipLen := if s.desc.dataPresent then s.desc.length else 0
        sts := { done := false, fail := false, busy := true }, slot := 0, bidx := 0 }
      cs := .setup, trace := s.trace ++ [.csLow] }

/-- O42. How a sequence ends, each time with no bus event: STOP, without failure and with SLOT not advanced; a failure
the environment chooses, before the fetch; a half-word that is illegal; and slot 8, without failure (R204, R205,
R212, R213). That ENGINE fails at every turn it takes while `ext_fail` is high is the model's reading of the choice
that R213 leaves (log 9). -/
def Obligations.SequenceEnds : Prop :=
  (∀ s : State, exec .stop s = .next { s with
    b := { s.b with sts := { done := true, fail := false, busy := false } } }) ∧
  ∀ s : State, s.params.backend = .B → s.b.sts.busy = true → s.cs = .active → s.env.pins.stall = false →
    (s.env.pins.extFail = true → s.turn .engine = .next { s with
      b := { s.b with sts := { done := true, fail := true, busy := false } } }) ∧
    (s.env.pins.extFail = false → 8 ≤ s.b.slot.toNat → s.turn .engine = .next { s with
      b := { s.b with sts := { done := true, fail := false, busy := false } } }) ∧
    (∀ h e, s.env.pins.extFail = false → s.b.slot.toNat < 8 → s.fetchHalf = some h → decodeHalf h = .error e →
      s.turn .engine = .next { s with b := { s.b with sts := { done := true, fail := true, busy := false } } })

/-- O43. CMD: its word at every width, its one bus event and SLOT + 1; the reserved width is illegal (R206). That
BIDX goes back to 0 with the slot is the model's reading (log 14); nothing else changes. -/
def Obligations.CmdOpcode : Prop :=
  (∀ (w : Width) (b : Byte), decode ⟨.lut, ((1#32 <<< 10) ||| (w.code.setWidth 32 <<< 8) ||| b.setWidth 32)⟩ =
    .ok (.cmd w b)) ∧
  (∀ b : Byte, decode ⟨.lut, ((1#32 <<< 10) ||| (3#32 <<< 8) ||| b.setWidth 32)⟩ = .error .reservedWidth) ∧
  ∀ (s : State) (w : Width) (b : Byte), exec (.cmd w b) s = .next { s with
    b := { s.b with slot := s.b.slot + 1, bidx := 0 }, trace := s.trace ++ [.out w b] }

/-- O44. RADDR: the low `n` bytes of IPCR0.ADDR leave most significant first, and SLOT + 1; `n` above 4 is the
sequence error (R207, R212). That BIDX goes back to 0 with the slot is the model's reading (log 14). -/
def Obligations.RaddrOpcode : Prop :=
  ∀ (s : State) (w : Width) (n : Byte),
    (n.toNat ≤ 4 → exec (.raddr w n) s = .next { s with
      b := { s.b with slot := s.b.slot + 1, bidx := 0 }
      trace := s.trace ++ (serialise s.b.ipAddr n.toNat).map (Event.out w) }) ∧
    (4 < n.toNat → exec (.raddr w n) s = .next { s with
      b := { s.b with sts := { done := true, fail := true, busy := false } } })

/-- O45. MODE8: its word at every width, its one bus event and SLOT + 1 (R208). That BIDX goes back to 0 with the
slot is the model's reading (log 14); nothing else changes. -/
def Obligations.Mode8Opcode : Prop :=
  (∀ (w : Width) (m : Byte), decode ⟨.lut, ((7#32 <<< 10) ||| (w.code.setWidth 32 <<< 8) ||| m.setWidth 32)⟩ =
    .ok (.mode8 w m)) ∧
  ∀ (s : State) (w : Width) (m : Byte), exec (.mode8 w m) s = .next { s with
    b := { s.b with slot := s.b.slot + 1, bidx := 0 }, trace := s.trace ++ [.out w m] }

/-- O46. DUMMY: the operand counts cycles whatever the width field says, and SLOT + 1 (R209). That BIDX goes back to
0 with the slot is the model's reading (log 14). -/
def Obligations.DummyOpcode : Prop :=
  ∀ (s : State) (w : Width) (c : Byte), exec (.dummy w c) s = .next { s with
    b := { s.b with slot := s.b.slot + 1, bidx := 0 }, trace := emitTo s.trace (.dmy c.toNat) }

/-- O47. WRITE, one byte a step: a request of another type is the sequence error; otherwise `BUF[BIDX]` leaves
and BIDX moves on, SLOT after the last byte; with no byte to send only SLOT moves (R210, R204). One byte a step, and
BIDX back to 0 with the slot, are the model's reading (log 14). -/
def Obligations.WriteOpcode : Prop :=
  ∀ (s : State) (w : Width) (x : Byte),
    (s.b.ipXtype ≠ .write → exec (.write w x) s = .next { s with
      b := { s.b with sts := { done := true, fail := true, busy := false } } }) ∧
    (s.b.ipXtype = .write → s.b.bidx.toNat + 1 < s.b.ipLen.toNat → exec (.write w x) s = .next { s with
      b := { s.b with bidx := s.b.bidx + 1 }
      trace := s.trace ++ [.out w (Memory.read s.buf s.b.bidx.toNat)] }) ∧
    (s.b.ipXtype = .write → s.b.bidx.toNat + 1 = s.b.ipLen.toNat → exec (.write w x) s = .next { s with
      b := { s.b with slot := s.b.slot + 1, bidx := 0 }
      trace := s.trace ++ [.out w (Memory.read s.buf s.b.bidx.toNat)] }) ∧
    (s.b.ipXtype = .write → s.b.ipLen.toNat ≤ s.b.bidx.toNat → exec (.write w x) s = .next { s with
      b := { s.b with slot := s.b.slot + 1, bidx := 0 } })

/-- O48. READ, one byte a step: a request of another type is the sequence error; otherwise one byte of the
peripheral is sampled, put on the trace and stored at `BUF[BIDX]`, every other byte of BUF untouched (R211). One byte
a step, and BIDX back to 0 with the slot, are the model's reading (log 14). -/
def Obligations.ReadOpcode : Prop :=
  ∀ (s : State) (w : Width) (x : Byte), Memory.wf s.buf = true →
    (s.b.ipXtype ≠ .read → exec (.read w x) s = .next { s with
      b := { s.b with sts := { done := true, fail := true, busy := false } } }) ∧
    (s.b.ipXtype = .read → s.b.bidx.toNat < s.b.ipLen.toNat → ∃ r m, exec (.read w x) s = .next { s with
      b := if s.b.bidx.toNat + 1 = s.b.ipLen.toNat then { s.b with slot := s.b.slot + 1, bidx := 0 }
        else { s.b with bidx := s.b.bidx + 1 }
      buf := m, trace := s.trace ++ [.inp w r], env := { s.env with free := s.env.free + 1 } } ∧
      Memory.read m s.b.bidx.toNat = r ∧ ∀ j, j ≠ s.b.bidx.toNat → Memory.read m j = Memory.read s.buf j) ∧
    (s.b.ipXtype = .read → s.b.ipLen.toNat ≤ s.b.bidx.toNat → exec (.read w x) s = .next { s with
      b := { s.b with slot := s.b.slot + 1, bidx := 0 } })

/-! ## Chip-select and lines (43_linemux_and_cs.md) -/

/-- O49. The five transitions of the chip-select machine and their events; a request that rises in CS_IDLE is
answered at once (R256). That the machine keeps no time is R256's own word (log 15). -/
def Obligations.ChipSelectMachine : Prop :=
  ∀ s : State, ∃ t, s.turn .cs = .next t ∧ t = { s with cs := t.cs, trace := t.trace } ∧
    (s.cs = .idle → s.csReq = true → t.cs = .setup ∧ t.trace = s.trace ++ [.csLow]) ∧
    (s.cs = .idle → s.csReq = false → t = s) ∧
    (s.cs = .setup → t.cs = .active ∧ t.trace = s.trace) ∧
    (s.cs = .active → s.csReq = true → t = s) ∧
    (s.cs = .active → s.csReq = false → t.cs = .hold ∧ t.trace = s.trace) ∧
    (s.cs = .hold → t.cs = .interval ∧ t.trace = s.trace ++ [.csHigh]) ∧
    (s.cs = .interval → t.cs = .idle ∧ t.trace = s.trace)

/-- O50. Hold before release, from every state of the invariant: chip-select stays asserted in every turn but the
chip-select machine's own from CS_HOLD and reset, and in CS_HOLD nothing is queued, in flight or requested (R257,
R258). -/
def Obligations.HoldBeforeRelease : Prop :=
  (∀ (s t : State) (x : Turn), s.cs.asserted = true → s.turn x = .next t → t.cs.asserted = false →
    (x = .cs ∧ s.cs = .hold) ∨ x = .reset) ∧
  ∀ s : State, Inv s → s.cs = .hold →
    (s.params.backend = .A → s.a.txf = [] ∧ s.a.shiftBusy = false ∧ s.a.tcr.txmsk = false ∧
      s.a.tcr.cont = false ∧ s.a.tcr.contc = false) ∧
    (s.params.backend = .B → s.b.sts.busy = false)

/-- O51. The line mux: at 4 lines IO3..IO0 carry bits 7..4 then 3..0, at 2 lines IO1, IO0 carry 7, 6 then 5, 4 and
so on, at 1 line IO0 carries bits 7 down to 0; a byte driven at 2 or 4 lines and sampled from the same lines is
the byte; at 1 line bit `7 - k` is sampled from IO1 in cycle `k`; only OUT drives, and no line at or above the
width; the byte of an IN event is the byte sampled from the levels of the pins during it, and the pins that OUT
drives have the driven level (R250 to R253). -/
def Obligations.LineMapping : Prop :=
  (∀ b : Byte, (∀ k < 2, ∀ j < 4, outLevel .w4 b k j = some (b.getLsbD (4 * (1 - k) + j))) ∧
    (∀ k < 4, ∀ j < 2, outLevel .w2 b k j = some (b.getLsbD (2 * (3 - k) + j))) ∧
    (∀ k < 8, outLevel .w1 b k 0 = some (b.getLsbD (7 - k)))) ∧
  (∀ (w : Width) (b : Byte), w ≠ .w1 → sampled w (fun k j => (outLevel w b k j).getD false) = b) ∧
  (∀ (level : Nat → Nat → Bool) (k : Nat), k < 8 → (sampled .w1 level).getLsbD (7 - k) = level k 1) ∧
  (∀ (w : Width) (b : Byte) (k j : Nat), w.lines ≤ j ∨ cyclesOf w ≤ k → outLevel w b k j = none) ∧
  (∀ (w : Width) (b : Byte) (c k j : Nat), drivenLevel (.inp w b) k j = none ∧ drivenLevel (.dmy c) k j = none ∧
    drivenLevel .csLow k j = none ∧ drivenLevel .csHigh k j = none) ∧
  ∀ (s : State) (w : Width) (b : Byte), sampled w (s.padLevel (.inp w b)) = b ∧
    ∀ (k j : Nat) (x : Bool), drivenLevel (.out w b) k j = some x → s.padLevel (.out w b) k j = x

/-- O52. The clocked length of a transfer that ends, whatever the interleaving: the cycles that it adds to the trace,
on each backend, on Backend B without failure (R313). No length below 2^32 is shut out on Backend B: that the hardware
bounds none is decision D38. -/
def Obligations.ClockedLength : Prop :=
  ∀ (s u t : State) (ts : List Turn), Inv s → s.host.st = .idle → exec .transfer s = .next u → u.host.st = .xfer →
    (∀ x ∈ ts, agentTurn x = true) → u.turns ts = .next t → t.host.st = .idle →
    (s.params.backend = .A → traceClocks t.trace = traceClocks s.trace +
      ((if s.desc.instrLw ≠ 0 then 8 / s.desc.instrLw.toNat else 0) +
      (if s.desc.addrPresent then 8 / s.desc.addrLw.toNat * (s.desc.addrSize + s.desc.altSize) else 0) +
      2 * (s.desc.dummyCycles.toNat / 2) +
      (if s.desc.dataPresent then 8 / s.desc.dataLw.toNat * s.desc.length.toNat else 0))) ∧
    (s.params.backend = .B → t.host.resStatus = 0 → traceClocks t.trace = traceClocks s.trace +
      ((if s.desc.instrLw ≠ 0 then 8 / s.desc.instrLw.toNat else 0) +
      (if s.desc.raddrPresent then 8 / s.desc.addrLw.toNat * s.desc.addrSize else 0) +
      (if s.desc.modePresent then 8 / s.desc.altLw.toNat else 0) +
      s.desc.dummyCycles.toNat +
      (if s.desc.dataPresent then 8 / s.desc.dataLw.toNat * s.desc.length.toNat else 0)))

/-! ## Whole transfers -/

/-- O53. Backend equivalence: a Backend A transfer and a Backend B transfer of one descriptor, both accepted and both
ended, the second without failure, each under any interleaving, put the same events on the bus, if the dummy count
is even, a mode byte is at the address width, and the data bytes (sent or sampled, those below the length of BUF
after the transfer) agree (R143). No length below 2^32 is shut out on Backend B: that the hardware bounds none is
decision D38. -/
def Obligations.BackendEquivalence : Prop :=
  ∀ (s u t : State) (ts : List Turn) (s' u' t' : State) (ts' : List Turn),
    Inv s → s.params.backend = .A → s.host.st = .idle → exec .transfer s = .next u → u.host.st = .xfer →
    (∀ x ∈ ts, agentTurn x = true) → u.turns ts = .next t → t.host.st = .idle →
    Inv s' → s'.params.backend = .B → s'.host.st = .idle → exec .transfer s' = .next u' → u'.host.st = .xfer →
    (∀ x ∈ ts', agentTurn x = true) → u'.turns ts' = .next t' → t'.host.st = .idle → t'.host.resStatus = 0 →
    s'.desc = s.desc → s.desc.dummyCycles.toNat % 2 = 0 → (s.desc.altSize = 1 → s.desc.altLw = s.desc.addrLw) →
    (s.desc.dataPresent = true → t'.bufBytes s.desc.length.toNat = t.bufBytes s.desc.length.toNat) →
    ∃ events, t.trace = s.trace ++ events ∧ t'.trace = s'.trace ++ events

/-- O54. The trace of a Backend A transfer that ends, whatever the interleaving of SEQ, ENGINE and the chip-select
machine and whatever the inputs do: exactly the events of R177, in that order, between one `CS_LOW` and one
`CS_HIGH`; in a read the sampled bytes are the ones in BUF, in a write and at and above the length BUF is
unchanged; the result is `Ok` of the count of R139 (R177, R79, R139, R140, R142). -/
def Obligations.TransferTraceA : Prop :=
  ∀ (s u t : State) (ts : List Turn), Inv s → s.params.backend = .A → s.host.st = .idle →
    exec .transfer s = .next u → u.host.st = .xfer → (∀ x ∈ ts, agentTurn x = true) →
    u.turns ts = .next t → t.host.st = .idle →
    t.trace = s.trace ++ s.desc.traceA (t.bufBytes s.desc.length.toNat) ∧
    t.host.resStatus = 0 ∧ t.host.resCount = s.desc.okCount .A ∧
    (∀ n, s.desc.dataPresent = false ∨ s.desc.dirWrite = true ∨ s.desc.length.toNat ≤ n →
      Memory.read t.buf n = Memory.read s.buf n)

/-- O55. The trace of a Backend B transfer that ends, whatever the interleaving. Without failure: exactly the events
of R217, in that order; in a read the sampled bytes are the ones in BUF; the result is `Ok` of the count of R139.
With a hardware failure: `CS_LOW`, a beginning of the events the sequence would have put there, its data bytes as many
as the length, and `CS_HIGH`, and the result `HwFailure`; in a write the bytes are those of BUF (R213, R261). On both, in a write and at and above the
length BUF is unchanged (R217, R79, R139, R142, R215). No length below 2^32 is shut out: that the hardware bounds none
is decision D38. -/
def Obligations.TransferTraceB : Prop :=
  ∀ (s u t : State) (ts : List Turn), Inv s → s.params.backend = .B → s.host.st = .idle →
    exec .transfer s = .next u → u.host.st = .xfer → (∀ x ∈ ts, agentTurn x = true) →
    u.turns ts = .next t → t.host.st = .idle →
    (t.host.resStatus = 0 →
      t.trace = s.trace ++ s.desc.traceB (t.bufBytes s.desc.length.toNat) ∧ t.host.resCount = s.desc.okCount .B) ∧
    (t.host.resStatus ≠ 0 → t.host.resStatus = 3 ∧ t.host.resCount = 0 ∧
      ∃ bytes first rest, bytes.length = s.desc.length.toNat ∧
        (s.desc.dirWrite = true → bytes = t.bufBytes s.desc.length.toNat) ∧
        t.trace = s.trace ++ (.csLow :: first ++ [.csHigh]) ∧
        s.desc.traceB bytes = .csLow :: first ++ rest ++ [.csHigh]) ∧
    (∀ n, s.desc.dataPresent = false ∨ s.desc.dirWrite = true ∨ s.desc.length.toNat ≤ n →
      Memory.read t.buf n = Memory.read s.buf n)

/-! ## The whole machine -/

/-- O56. A step runs the decoded instruction, in each of the four places a word can stand: a host write of CMD, a
register access of SEQ, the step PHASE names, the table slot at SLOT; SEQ's and the host's turns add only that the
line performed is taken off the list (R108, R160 to R165, R25, R204). -/
def Obligations.StepRunsDecoded : Prop :=
  ∀ (s : State) (x : Turn) (ts : List Turn) (i : Instr), s.env.turns = x :: ts →
    let u := { s with env := { s.env with turns := ts } }
    (∀ v, x = .host (.writeReg 0 v) → decode ⟨.cmd, v⟩ = .ok i → step s = exec i u) ∧
    (∀ p v rest, x = .seq → s.seq.ops = .ctl p v :: rest → decode ⟨.ctl p, v⟩ = .ok i →
      step s = exec i { u with seq := { u.seq with ops := rest } }) ∧
    (x = .seq → s.seq.ops = [] → s.params.backend = .A →
      decode ⟨.seq s.desc.dirWrite, s.seq.phase.code.setWidth 32⟩ = .ok i → step s = exec i u) ∧
    (∀ h, x = .engine → s.params.backend = .B → s.b.sts.busy = true → s.cs = .active → s.env.pins.stall = false →
      s.env.pins.extFail = false → s.b.slot.toNat < 8 → s.fetchHalf = some h →
      decode ⟨.lut, h.setWidth 32⟩ = .ok i → step s = exec i u)

/-- O57. The state after reset of every instance with legal depths meets the invariant, and has the values the spec
gives, with no descriptor register written (R23); `State.reset` is that of one instance (log 2); a reset turn leads
there from any state, with the parameters kept, with BUF and what is outside the block as they were, and with the
trace it cuts among what the peripheral has seen (R47, R50, R300; logs 8, 24). -/
def Obligations.ResetInvariant : Prop :=
  (∀ p : Params, p.wf = true → Inv (State.resetWith p)) ∧
  (∀ p : Params, let s := State.resetWith p
    s.params = p ∧ s.host.st = .uninit ∧ s.host.configured = false ∧ s.host.resStatus = 0 ∧ s.host.resCause = 0 ∧
    s.host.resCount = 0 ∧ (∀ i, s.desc.has i = false) ∧ s.seq.phase = .pIdle ∧ s.seq.idx = 0 ∧ s.a.en = false ∧ s.a.srWord = 0 ∧
    s.a.tcr.toWord = 0x0700 ∧ s.a.cfgr.pcspol = false ∧ s.a.cfgr.master = true ∧ s.a.fcr.toWord = 0 ∧ s.a.txf = [] ∧
    s.a.rxf = [] ∧ s.a.fsrWord = 0 ∧ s.a.shiftBusy = false ∧ s.b.mcr.toWord = 0 ∧ s.b.flashSize = 0 ∧
    s.b.flshcr1.toWord = 0 ∧ s.b.ipAddr = 0 ∧ s.b.ipcr1Word = 0 ∧ s.b.ipLen = 0 ∧ s.b.sts.toWord = 0 ∧
    s.b.slot = 0 ∧ s.b.bidx = 0 ∧ s.cs = .idle ∧ s.csPin = true ∧ s.trace = []) ∧
  State.reset = State.resetWith Params.default ∧ Params.default.wf = true ∧
  ∀ s : State, s.turn .reset = .next { State.resetWith s.params with
    buf := s.buf, env := { s.env with past := s.env.past ++ [s.trace] } }

/-- O58. Every step keeps the invariant: R50 (a) to (f), FRAMESZ 7 and PCS 0, the FIFO bounds, the bootstrap words,
the canonical memories, the trace in normal form, and the control points of the transfer (R50, R257, R304). -/
def Obligations.StepKeepsInvariant : Prop :=
  ∀ s t : State, Inv s → step s = .next t → Inv t

/-- O59. Where a step from the invariant stops: the two faults the spec names, TxOverflow only in an address phase
longer than TXF is deep (R305), and the refusals of a host action (R273); never a POP of an empty FIFO, a table
index out of range, a scratch index out of range or a control word that is no operation (R75, R165, R311). -/
def Obligations.WhereStepsStop : Prop :=
  ∀ s : State, Inv s →
    (∀ f, step s = .fault f →
      (f = .unwrittenDescriptor ∧ ∃ v, s.nextTurn.1 = .host (.writeReg 0 v)) ∨
      (f = .txOverflow ∧ s.nextTurn.1 = .seq ∧ s.params.backend = .A ∧ s.seq.phase = .pAddr ∧
        s.params.txDepth < s.desc.addrSize + s.desc.altSize)) ∧
    (∀ r, step s = .refused r → (∃ act, s.nextTurn.1 = .host act) ∧
      (r = .commandDuringTransfer ∨ r = .unknownCommand ∨ r = .hostBlocked ∨ r = .readOnlyRegister ∨
        r = .writeOnlyRegister ∨ r = .noSuchRegister))

/-- O60. What no agent of the block changes: the parameters are fixed; the engine never writes a descriptor field;
STATE leaves UNINIT only for IDLE, returns to UNINIT only by reset, and moves between IDLE and XFER only as R21
says (R21, R23, R48). -/
def Obligations.StateMachine : Prop :=
  ∀ (s t : State) (x : Turn), Inv s → s.turn x = .next t →
    t.params = s.params ∧
    (agentTurn x = true → t.desc = s.desc) ∧
    (t.host.st = s.host.st ∨
      (x = .host (.writeReg 0 1) ∧ s.host.st = .uninit ∧ t.host.st = .idle) ∨
      (x = .host (.writeReg 0 2) ∧ s.host.st = .idle ∧ t.host.st = .xfer) ∨
      (x = .seq ∧ s.host.st = .xfer ∧ t.host.st = .idle) ∨
      (x = .reset ∧ t.host.st = .uninit))
end

