-- ==== Sys2Proof/Laws/Memory.lean ====
section
/-! SUPPORT. Memory: a read after a write, and the canonical form under every memory operation. -/

namespace Sys2Proof.Machine

@[simp] theorem Memory.read_nil (i : Nat) : Memory.read [] i = Memory.unlisted := rfl

theorem Memory.above_read {k i : Nat} {m : Memory} (h : Memory.above k m = true) (hi : i ≤ k) :
    Memory.read m i = Memory.unlisted := by
  induction m with
  | nil => rfl
  | cons c m ih =>
    obtain ⟨j, v⟩ := c
    simp only [Memory.above, Bool.and_eq_true, decide_eq_true_eq] at h
    simp only [Memory.read]
    rw [if_neg (by omega), ih h.2]

theorem Memory.above_mono {k j : Nat} {m : Memory} (h : Memory.above k m = true) (hj : j ≤ k) :
    Memory.above j m = true := by
  induction m with
  | nil => rfl
  | cons c m ih =>
    obtain ⟨i, v⟩ := c
    simp only [Memory.above, Bool.and_eq_true, decide_eq_true_eq] at h ⊢
    exact ⟨by omega, ih h.2⟩

theorem Memory.wf_cons {k : Nat} {v : Byte} {m : Memory} :
    Memory.wf ((k, v) :: m) = true ↔ v ≠ Memory.unlisted ∧ Memory.above k m = true ∧ Memory.wf m = true := by
  simp [Memory.wf, and_assoc]

theorem Memory.write_above {k i : Nat} {m : Memory} {v : Byte} (h : Memory.above k m = true) (hi : k < i) :
    Memory.above k (Memory.write m i v) = true := by
  induction m with
  | nil =>
    simp only [Memory.write]
    split <;> simp [Memory.above, hi]
  | cons c m ih =>
    obtain ⟨j, w⟩ := c
    have h' := h
    simp only [Memory.above, Bool.and_eq_true, decide_eq_true_eq] at h
    simp only [Memory.write]
    split
    · split
      · exact h'
      · simp [Memory.above, h.1, h.2, hi]
    · split
      · split
        · exact h.2
        · simp [Memory.above, h.2, hi]
      · simp [Memory.above, h.1, ih h.2]

/-- A write keeps the canonical form. -/
theorem Memory.write_wf {m : Memory} (h : Memory.wf m = true) (i : Nat) (v : Byte) :
    Memory.wf (Memory.write m i v) = true := by
  induction m with
  | nil =>
    simp only [Memory.write]
    split
    · rfl
    · simpa [Memory.wf, Memory.above]
  | cons c m ih =>
    obtain ⟨j, w⟩ := c
    have hc := Memory.wf_cons.1 h
    simp only [Memory.write]
    split
    · rename_i hlt
      split
      · exact h
      · exact Memory.wf_cons.2 ⟨‹_›, by simp [Memory.above, hlt, Memory.above_mono hc.2.1 (le_of_lt hlt)], h⟩
    · split
      · rename_i hij
        subst hij
        split
        · exact hc.2.2
        · exact Memory.wf_cons.2 ⟨‹_›, hc.2.1, hc.2.2⟩
      · exact Memory.wf_cons.2 ⟨hc.1, Memory.write_above hc.2.1 (by omega), ih hc.2.2⟩

/-- A read after a write: the value at the written index, the old byte at every other. -/
theorem Memory.read_write {m : Memory} (h : Memory.wf m = true) (i j : Nat) (v : Byte) :
    Memory.read (Memory.write m i v) j = if j = i then v else Memory.read m j := by
  induction m with
  | nil =>
    simp only [Memory.write]
    by_cases hv : v = Memory.unlisted
    · simp [hv]
    · by_cases hj : j = i
      · simp [hv, Memory.read, hj]
      · simp [hv, Memory.read, hj, Ne.symm hj]
  | cons c m ih =>
    obtain ⟨k, w⟩ := c
    have hc := Memory.wf_cons.1 h
    simp only [Memory.write]
    by_cases hik : i < k
    · rw [if_pos hik]
      by_cases hv : v = Memory.unlisted
      · rw [if_pos hv]
        by_cases hj : j = i
        · subst hj
          simp only [Memory.read, if_pos, hv]
          rw [if_neg (by omega), Memory.above_read hc.2.1 (by omega)]
        · rw [if_neg hj]
      · rw [if_neg hv]
        by_cases hj : j = i
        · simp [Memory.read, hj]
        · simp [Memory.read, hj, Ne.symm hj]
    · rw [if_neg hik]
      by_cases hie : i = k
      · rw [if_pos hie]
        subst hie
        by_cases hv : v = Memory.unlisted
        · rw [if_pos hv]
          by_cases hj : j = i
          · subst hj; simp [hv, Memory.above_read hc.2.1 (Nat.le_refl _)]
          · simp [Memory.read, hj, Ne.symm hj]
        · rw [if_neg hv]
          by_cases hj : j = i
          · simp [Memory.read, hj]
          · simp [Memory.read, hj, Ne.symm hj]
      · rw [if_neg hie]
        simp only [Memory.read]
        by_cases hkj : k = j
        · subst hkj
          simp [Ne.symm hie]
        · rw [if_neg hkj, if_neg hkj, ih hc.2.2]

/-- Storing a list keeps the canonical form. -/
theorem Memory.store_wf {m : Memory} (h : Memory.wf m = true) (i : Nat) (bs : List Byte) :
    Memory.wf (Memory.store m i bs) = true := by
  induction bs generalizing m i with
  | nil => exact h
  | cons b bs ih => exact ih (Memory.write_wf h i b) (i + 1)

/-- A read after a list was stored: the list's byte inside it, the old byte outside. -/
theorem Memory.read_store {m : Memory} (h : Memory.wf m = true) (i j : Nat) (bs : List Byte) :
    Memory.read (Memory.store m i bs) j =
      if i ≤ j ∧ j < i + bs.length then bs.getD (j - i) Memory.unlisted else Memory.read m j := by
  induction bs generalizing m i with
  | nil =>
    rw [if_neg (by simp)]
    rfl
  | cons b bs ih =>
    rw [Memory.store, ih (Memory.write_wf h i b), Memory.read_write h]
    by_cases hji : j = i
    · subst hji; simp
    · by_cases hin : i ≤ j ∧ j < i + (b :: bs).length
      · have hin' : i + 1 ≤ j ∧ j < i + 1 + bs.length := by simp at hin; omega
        rw [if_pos hin', if_pos hin]
        obtain ⟨n, hn⟩ : ∃ n, j - i = n + 1 := ⟨j - i - 1, by omega⟩
        rw [hn, show j - (i + 1) = n by omega]
        simp
      · have hin' : ¬(i + 1 ≤ j ∧ j < i + 1 + bs.length) := by simp at hin; omega
        rw [if_neg hin', if_neg hin, if_neg hji]

/-- Filling keeps the canonical form. -/
theorem Memory.fill_wf {m : Memory} (h : Memory.wf m = true) (f : Nat → Byte) (n : Nat) :
    Memory.wf (Memory.fill m f n) = true := by
  induction n with
  | zero => exact h
  | succ n ih => exact Memory.write_wf ih n (f n)

/-- A read after a fill: `f` below `n`, the old byte from `n` up. -/
theorem Memory.read_fill {m : Memory} (h : Memory.wf m = true) (f : Nat → Byte) (n j : Nat) :
    Memory.read (Memory.fill m f n) j = if j < n then f j else Memory.read m j := by
  induction n with
  | zero => rfl
  | succ n ih =>
    rw [Memory.fill, Memory.read_write (Memory.fill_wf h f n), ih]
    by_cases hj : j = n
    · subst hj; simp
    · rw [if_neg hj]
      by_cases hlt : j < n
      · rw [if_pos hlt, if_pos (by omega)]
      · rw [if_neg hlt, if_neg (by omega)]

/-- The unlisted memory is canonical. -/
theorem Memory.wf_nil : Memory.wf [] = true := rfl

/-- Reset's memories are canonical. -/
theorem State.reset_memory_wf :
    Memory.wf State.reset.buf = true ∧ Memory.wf State.reset.a.scratch = true := ⟨rfl, rfl⟩

/-- Two canonical memories that read the same are the same list. -/
theorem Memory.ext_read {m n : Memory} (hm : Memory.wf m = true) (hn : Memory.wf n = true)
    (h : ∀ i, Memory.read m i = Memory.read n i) : m = n := by
  induction m generalizing n with
  | nil =>
    cases n with
    | nil => rfl
    | cons c n =>
      obtain ⟨k, v⟩ := c
      have hv := (Memory.wf_cons.1 hn).1
      have := h k
      simp [Memory.read] at this
      exact absurd this.symm hv
  | cons c m ih =>
    obtain ⟨k, v⟩ := c
    have hc := Memory.wf_cons.1 hm
    cases n with
    | nil =>
      have := h k
      simp [Memory.read] at this
      exact absurd this hc.1
    | cons d n =>
      obtain ⟨j, w⟩ := d
      have hd := Memory.wf_cons.1 hn
      have hkj : k = j := by
        rcases Nat.lt_trichotomy k j with hlt | heq | hgt
        · have hab : Memory.above k ((j, w) :: n) = true := by
            simp [Memory.above, hlt, Memory.above_mono hd.2.1 (le_of_lt hlt)]
          have := h k
          rw [Memory.above_read hab (Nat.le_refl _)] at this
          exact absurd (by simpa [Memory.read] using this) hc.1
        · exact heq
        · have hab : Memory.above j ((k, v) :: m) = true := by
            simp [Memory.above, hgt, Memory.above_mono hc.2.1 (le_of_lt hgt)]
          have := h j
          rw [Memory.above_read hab (Nat.le_refl _)] at this
          exact absurd (by simpa [Memory.read] using this.symm) hd.1
      subst hkj
      have hvw : v = w := by simpa [Memory.read] using h k
      subst hvw
      congr 1
      apply ih hc.2.2 hd.2.2
      intro i
      by_cases hik : k = i
      · subst hik
        rw [Memory.above_read hc.2.1 (Nat.le_refl _), Memory.above_read hd.2.1 (Nat.le_refl _)]
      · have := h i
        simpa [Memory.read, hik] using this

end Sys2Proof.Machine
end

