-- ==== Sys2Proof/Laws/State.lean ====
section
/-! SUPPORT. One lemma per field and update of State, so that no proof unfolds a record update. -/

namespace Sys2Proof.Machine

variable (s : State)

@[simp] theorem State.emit_params (e : Event) : (s.emit e).params = s.params := rfl
@[simp] theorem State.emit_host (e : Event) : (s.emit e).host = s.host := rfl
@[simp] theorem State.emit_desc (e : Event) : (s.emit e).desc = s.desc := rfl
@[simp] theorem State.emit_seq (e : Event) : (s.emit e).seq = s.seq := rfl
@[simp] theorem State.emit_a (e : Event) : (s.emit e).a = s.a := rfl
@[simp] theorem State.emit_b (e : Event) : (s.emit e).b = s.b := rfl
@[simp] theorem State.emit_cs (e : Event) : (s.emit e).cs = s.cs := rfl
@[simp] theorem State.emit_buf (e : Event) : (s.emit e).buf = s.buf := rfl
@[simp] theorem State.emit_trace (e : Event) : (s.emit e).trace = emitTo s.trace e := rfl
@[simp] theorem State.emit_env (e : Event) : (s.emit e).env = s.env := rfl

@[simp] theorem State.takeFree_params : (s.takeFree).params = s.params := rfl
@[simp] theorem State.takeFree_host : (s.takeFree).host = s.host := rfl
@[simp] theorem State.takeFree_desc : (s.takeFree).desc = s.desc := rfl
@[simp] theorem State.takeFree_seq : (s.takeFree).seq = s.seq := rfl
@[simp] theorem State.takeFree_a : (s.takeFree).a = s.a := rfl
@[simp] theorem State.takeFree_b : (s.takeFree).b = s.b := rfl
@[simp] theorem State.takeFree_cs : (s.takeFree).cs = s.cs := rfl
@[simp] theorem State.takeFree_buf : (s.takeFree).buf = s.buf := rfl
@[simp] theorem State.takeFree_trace : (s.takeFree).trace = s.trace := rfl
@[simp] theorem State.takeFree_env : (s.takeFree).env = { s.env with free := s.env.free + 1 } := rfl

@[simp] theorem State.resultOk_params (n : BitVec 32) : (s.resultOk n).params = s.params := rfl
@[simp] theorem State.resultOk_host (n : BitVec 32) : (s.resultOk n).host = { s.host with resStatus := 0, resCause := 0, resCount := n } := rfl
@[simp] theorem State.resultOk_desc (n : BitVec 32) : (s.resultOk n).desc = s.desc := rfl
@[simp] theorem State.resultOk_seq (n : BitVec 32) : (s.resultOk n).seq = s.seq := rfl
@[simp] theorem State.resultOk_a (n : BitVec 32) : (s.resultOk n).a = s.a := rfl
@[simp] theorem State.resultOk_b (n : BitVec 32) : (s.resultOk n).b = s.b := rfl
@[simp] theorem State.resultOk_cs (n : BitVec 32) : (s.resultOk n).cs = s.cs := rfl
@[simp] theorem State.resultOk_buf (n : BitVec 32) : (s.resultOk n).buf = s.buf := rfl
@[simp] theorem State.resultOk_trace (n : BitVec 32) : (s.resultOk n).trace = s.trace := rfl
@[simp] theorem State.resultOk_env (n : BitVec 32) : (s.resultOk n).env = s.env := rfl

@[simp] theorem State.raise_params (e : ErrorKind) : (s.raise e).params = s.params := rfl
@[simp] theorem State.raise_host (e : ErrorKind) : (s.raise e).host = { s.host with resStatus := e.code, resCause := e.cause, resCount := 0 } := rfl
@[simp] theorem State.raise_desc (e : ErrorKind) : (s.raise e).desc = s.desc := rfl
@[simp] theorem State.raise_seq (e : ErrorKind) : (s.raise e).seq = s.seq := rfl
@[simp] theorem State.raise_a (e : ErrorKind) : (s.raise e).a = s.a := rfl
@[simp] theorem State.raise_b (e : ErrorKind) : (s.raise e).b = s.b := rfl
@[simp] theorem State.raise_cs (e : ErrorKind) : (s.raise e).cs = s.cs := rfl
@[simp] theorem State.raise_buf (e : ErrorKind) : (s.raise e).buf = s.buf := rfl
@[simp] theorem State.raise_trace (e : ErrorKind) : (s.raise e).trace = s.trace := rfl
@[simp] theorem State.raise_env (e : ErrorKind) : (s.raise e).env = s.env := rfl

@[simp] theorem State.issueOps_params (l : List SeqOp) : (s.issueOps l).params = s.params := rfl
@[simp] theorem State.issueOps_host (l : List SeqOp) : (s.issueOps l).host = s.host := rfl
@[simp] theorem State.issueOps_desc (l : List SeqOp) : (s.issueOps l).desc = s.desc := rfl
@[simp] theorem State.issueOps_seq (l : List SeqOp) : (s.issueOps l).seq = { s.seq with ops := l } := rfl
@[simp] theorem State.issueOps_a (l : List SeqOp) : (s.issueOps l).a = s.a := rfl
@[simp] theorem State.issueOps_b (l : List SeqOp) : (s.issueOps l).b = s.b := rfl
@[simp] theorem State.issueOps_cs (l : List SeqOp) : (s.issueOps l).cs = s.cs := rfl
@[simp] theorem State.issueOps_buf (l : List SeqOp) : (s.issueOps l).buf = s.buf := rfl
@[simp] theorem State.issueOps_trace (l : List SeqOp) : (s.issueOps l).trace = s.trace := rfl
@[simp] theorem State.issueOps_env (l : List SeqOp) : (s.issueOps l).env = s.env := rfl

@[simp] theorem State.goto_params (p : Phase) : (s.goto p).params = s.params := rfl
@[simp] theorem State.goto_host (p : Phase) : (s.goto p).host = s.host := rfl
@[simp] theorem State.goto_desc (p : Phase) : (s.goto p).desc = s.desc := rfl
@[simp] theorem State.goto_seq (p : Phase) : (s.goto p).seq = { s.seq with phase := p, idx := 0, ops := [] } := rfl
@[simp] theorem State.goto_a (p : Phase) : (s.goto p).a = s.a := rfl
@[simp] theorem State.goto_b (p : Phase) : (s.goto p).b = s.b := rfl
@[simp] theorem State.goto_cs (p : Phase) : (s.goto p).cs = s.cs := rfl
@[simp] theorem State.goto_buf (p : Phase) : (s.goto p).buf = s.buf := rfl
@[simp] theorem State.goto_trace (p : Phase) : (s.goto p).trace = s.trace := rfl
@[simp] theorem State.goto_env (p : Phase) : (s.goto p).env = s.env := rfl

@[simp] theorem State.nextIdx_params : (s.nextIdx).params = s.params := rfl
@[simp] theorem State.nextIdx_host : (s.nextIdx).host = s.host := rfl
@[simp] theorem State.nextIdx_desc : (s.nextIdx).desc = s.desc := rfl
@[simp] theorem State.nextIdx_seq : (s.nextIdx).seq = { s.seq with idx := s.seq.idx + 1 } := rfl
@[simp] theorem State.nextIdx_a : (s.nextIdx).a = s.a := rfl
@[simp] theorem State.nextIdx_b : (s.nextIdx).b = s.b := rfl
@[simp] theorem State.nextIdx_cs : (s.nextIdx).cs = s.cs := rfl
@[simp] theorem State.nextIdx_buf : (s.nextIdx).buf = s.buf := rfl
@[simp] theorem State.nextIdx_trace : (s.nextIdx).trace = s.trace := rfl
@[simp] theorem State.nextIdx_env : (s.nextIdx).env = s.env := rfl

@[simp] theorem State.setRun_params (r : RunState) : (s.setRun r).params = s.params := rfl
@[simp] theorem State.setRun_host (r : RunState) : (s.setRun r).host = { s.host with st := r } := rfl
@[simp] theorem State.setRun_desc (r : RunState) : (s.setRun r).desc = s.desc := rfl
@[simp] theorem State.setRun_seq (r : RunState) : (s.setRun r).seq = s.seq := rfl
@[simp] theorem State.setRun_a (r : RunState) : (s.setRun r).a = s.a := rfl
@[simp] theorem State.setRun_b (r : RunState) : (s.setRun r).b = s.b := rfl
@[simp] theorem State.setRun_cs (r : RunState) : (s.setRun r).cs = s.cs := rfl
@[simp] theorem State.setRun_buf (r : RunState) : (s.setRun r).buf = s.buf := rfl
@[simp] theorem State.setRun_trace (r : RunState) : (s.setRun r).trace = s.trace := rfl
@[simp] theorem State.setRun_env (r : RunState) : (s.setRun r).env = s.env := rfl

@[simp] theorem State.flushFifos_params : (s.flushFifos).params = s.params := rfl
@[simp] theorem State.flushFifos_host : (s.flushFifos).host = s.host := rfl
@[simp] theorem State.flushFifos_desc : (s.flushFifos).desc = s.desc := rfl
@[simp] theorem State.flushFifos_seq : (s.flushFifos).seq = s.seq := rfl
@[simp] theorem State.flushFifos_a : (s.flushFifos).a = { s.a with txf := [], rxf := [] } := rfl
@[simp] theorem State.flushFifos_b : (s.flushFifos).b = s.b := rfl
@[simp] theorem State.flushFifos_cs : (s.flushFifos).cs = s.cs := rfl
@[simp] theorem State.flushFifos_buf : (s.flushFifos).buf = s.buf := rfl
@[simp] theorem State.flushFifos_trace : (s.flushFifos).trace = s.trace := rfl
@[simp] theorem State.flushFifos_env : (s.flushFifos).env = s.env := rfl

@[simp] theorem State.clearFlags_params : (s.clearFlags).params = s.params := rfl
@[simp] theorem State.clearFlags_host : (s.clearFlags).host = s.host := rfl
@[simp] theorem State.clearFlags_desc : (s.clearFlags).desc = s.desc := rfl
@[simp] theorem State.clearFlags_seq : (s.clearFlags).seq = s.seq := rfl
@[simp] theorem State.clearFlags_a : (s.clearFlags).a = { s.a with sr := ⟨false, false, false, false⟩ } := rfl
@[simp] theorem State.clearFlags_b : (s.clearFlags).b = s.b := rfl
@[simp] theorem State.clearFlags_cs : (s.clearFlags).cs = s.cs := rfl
@[simp] theorem State.clearFlags_buf : (s.clearFlags).buf = s.buf := rfl
@[simp] theorem State.clearFlags_trace : (s.clearFlags).trace = s.trace := rfl
@[simp] theorem State.clearFlags_env : (s.clearFlags).env = s.env := rfl

@[simp] theorem State.enable_params : (s.enable).params = s.params := rfl
@[simp] theorem State.enable_host : (s.enable).host = s.host := rfl
@[simp] theorem State.enable_desc : (s.enable).desc = s.desc := rfl
@[simp] theorem State.enable_seq : (s.enable).seq = s.seq := rfl
@[simp] theorem State.enable_a : (s.enable).a = { s.a with en := true } := rfl
@[simp] theorem State.enable_b : (s.enable).b = s.b := rfl
@[simp] theorem State.enable_cs : (s.enable).cs = s.cs := rfl
@[simp] theorem State.enable_buf : (s.enable).buf = s.buf := rfl
@[simp] theorem State.enable_trace : (s.enable).trace = s.trace := rfl
@[simp] theorem State.enable_env : (s.enable).env = s.env := rfl

@[simp] theorem State.setCtl_params (w : Width) (r t : Bool) : (s.setCtl w r t).params = s.params := rfl
@[simp] theorem State.setCtl_host (w : Width) (r t : Bool) : (s.setCtl w r t).host = s.host := rfl
@[simp] theorem State.setCtl_desc (w : Width) (r t : Bool) : (s.setCtl w r t).desc = s.desc := rfl
@[simp] theorem State.setCtl_seq (w : Width) (r t : Bool) : (s.setCtl w r t).seq = s.seq := rfl
@[simp] theorem State.setCtl_a (w : Width) (r t : Bool) : (s.setCtl w r t).a = { s.a with tcr := { s.a.tcr with width := w, rxmsk := r, txmsk := t } } := rfl
@[simp] theorem State.setCtl_b (w : Width) (r t : Bool) : (s.setCtl w r t).b = s.b := rfl
@[simp] theorem State.setCtl_cs (w : Width) (r t : Bool) : (s.setCtl w r t).cs = s.cs := rfl
@[simp] theorem State.setCtl_buf (w : Width) (r t : Bool) : (s.setCtl w r t).buf = s.buf := rfl
@[simp] theorem State.setCtl_trace (w : Width) (r t : Bool) : (s.setCtl w r t).trace = s.trace := rfl
@[simp] theorem State.setCtl_env (w : Width) (r t : Bool) : (s.setCtl w r t).env = s.env := rfl

@[simp] theorem State.setCont_params (v : Bool) : (s.setCont v).params = s.params := rfl
@[simp] theorem State.setCont_host (v : Bool) : (s.setCont v).host = s.host := rfl
@[simp] theorem State.setCont_desc (v : Bool) : (s.setCont v).desc = s.desc := rfl
@[simp] theorem State.setCont_seq (v : Bool) : (s.setCont v).seq = s.seq := rfl
@[simp] theorem State.setCont_a (v : Bool) : (s.setCont v).a = { s.a with tcr := { s.a.tcr with cont := v, contc := v } } := rfl
@[simp] theorem State.setCont_b (v : Bool) : (s.setCont v).b = s.b := rfl
@[simp] theorem State.setCont_cs (v : Bool) : (s.setCont v).cs = s.cs := rfl
@[simp] theorem State.setCont_buf (v : Bool) : (s.setCont v).buf = s.buf := rfl
@[simp] theorem State.setCont_trace (v : Bool) : (s.setCont v).trace = s.trace := rfl
@[simp] theorem State.setCont_env (v : Bool) : (s.setCont v).env = s.env := rfl

@[simp] theorem State.pushTx_params (b : Byte) : (s.pushTx b).params = s.params := rfl
@[simp] theorem State.pushTx_host (b : Byte) : (s.pushTx b).host = s.host := rfl
@[simp] theorem State.pushTx_desc (b : Byte) : (s.pushTx b).desc = s.desc := rfl
@[simp] theorem State.pushTx_seq (b : Byte) : (s.pushTx b).seq = s.seq := rfl
@[simp] theorem State.pushTx_a (b : Byte) : (s.pushTx b).a = { s.a with txf := s.a.txf ++ [b] } := rfl
@[simp] theorem State.pushTx_b (b : Byte) : (s.pushTx b).b = s.b := rfl
@[simp] theorem State.pushTx_cs (b : Byte) : (s.pushTx b).cs = s.cs := rfl
@[simp] theorem State.pushTx_buf (b : Byte) : (s.pushTx b).buf = s.buf := rfl
@[simp] theorem State.pushTx_trace (b : Byte) : (s.pushTx b).trace = s.trace := rfl
@[simp] theorem State.pushTx_env (b : Byte) : (s.pushTx b).env = s.env := rfl

@[simp] theorem State.pushRx_params (b : Byte) : (s.pushRx b).params = s.params := rfl
@[simp] theorem State.pushRx_host (b : Byte) : (s.pushRx b).host = s.host := rfl
@[simp] theorem State.pushRx_desc (b : Byte) : (s.pushRx b).desc = s.desc := rfl
@[simp] theorem State.pushRx_seq (b : Byte) : (s.pushRx b).seq = s.seq := rfl
@[simp] theorem State.pushRx_a (b : Byte) : (s.pushRx b).a = { s.a with rxf := s.a.rxf ++ [b] } := rfl
@[simp] theorem State.pushRx_b (b : Byte) : (s.pushRx b).b = s.b := rfl
@[simp] theorem State.pushRx_cs (b : Byte) : (s.pushRx b).cs = s.cs := rfl
@[simp] theorem State.pushRx_buf (b : Byte) : (s.pushRx b).buf = s.buf := rfl
@[simp] theorem State.pushRx_trace (b : Byte) : (s.pushRx b).trace = s.trace := rfl
@[simp] theorem State.pushRx_env (b : Byte) : (s.pushRx b).env = s.env := rfl

@[simp] theorem State.popRx_params (b : Byte) (r : List Byte) : (s.popRx b r).params = s.params := rfl
@[simp] theorem State.popRx_host (b : Byte) (r : List Byte) : (s.popRx b r).host = s.host := rfl
@[simp] theorem State.popRx_desc (b : Byte) (r : List Byte) : (s.popRx b r).desc = s.desc := rfl
@[simp] theorem State.popRx_seq (b : Byte) (r : List Byte) : (s.popRx b r).seq = { s.seq with popData := b } := rfl
@[simp] theorem State.popRx_a (b : Byte) (r : List Byte) : (s.popRx b r).a = { s.a with rxf := r } := rfl
@[simp] theorem State.popRx_b (b : Byte) (r : List Byte) : (s.popRx b r).b = s.b := rfl
@[simp] theorem State.popRx_cs (b : Byte) (r : List Byte) : (s.popRx b r).cs = s.cs := rfl
@[simp] theorem State.popRx_buf (b : Byte) (r : List Byte) : (s.popRx b r).buf = s.buf := rfl
@[simp] theorem State.popRx_trace (b : Byte) (r : List Byte) : (s.popRx b r).trace = s.trace := rfl
@[simp] theorem State.popRx_env (b : Byte) (r : List Byte) : (s.popRx b r).env = s.env := rfl

@[simp] theorem State.frameDone_params : (s.frameDone).params = s.params := rfl
@[simp] theorem State.frameDone_host : (s.frameDone).host = s.host := rfl
@[simp] theorem State.frameDone_desc : (s.frameDone).desc = s.desc := rfl
@[simp] theorem State.frameDone_seq : (s.frameDone).seq = s.seq := rfl
@[simp] theorem State.frameDone_a : (s.frameDone).a = { s.a with sr := { s.a.sr with frameDone := true } } := rfl
@[simp] theorem State.frameDone_b : (s.frameDone).b = s.b := rfl
@[simp] theorem State.frameDone_cs : (s.frameDone).cs = s.cs := rfl
@[simp] theorem State.frameDone_buf : (s.frameDone).buf = s.buf := rfl
@[simp] theorem State.frameDone_trace : (s.frameDone).trace = s.trace := rfl
@[simp] theorem State.frameDone_env : (s.frameDone).env = s.env := rfl

@[simp] theorem State.xferDone_params : (s.xferDone).params = s.params := rfl
@[simp] theorem State.xferDone_host : (s.xferDone).host = s.host := rfl
@[simp] theorem State.xferDone_desc : (s.xferDone).desc = s.desc := rfl
@[simp] theorem State.xferDone_seq : (s.xferDone).seq = s.seq := rfl
@[simp] theorem State.xferDone_a : (s.xferDone).a = { s.a with sr := { s.a.sr with xferDone := true } } := rfl
@[simp] theorem State.xferDone_b : (s.xferDone).b = s.b := rfl
@[simp] theorem State.xferDone_cs : (s.xferDone).cs = s.cs := rfl
@[simp] theorem State.xferDone_buf : (s.xferDone).buf = s.buf := rfl
@[simp] theorem State.xferDone_trace : (s.xferDone).trace = s.trace := rfl
@[simp] theorem State.xferDone_env : (s.xferDone).env = s.env := rfl

@[simp] theorem State.writeBuf_params (i : BitVec 32) (b : Byte) : (s.writeBuf i b).params = s.params := rfl
@[simp] theorem State.writeBuf_host (i : BitVec 32) (b : Byte) : (s.writeBuf i b).host = s.host := rfl
@[simp] theorem State.writeBuf_desc (i : BitVec 32) (b : Byte) : (s.writeBuf i b).desc = s.desc := rfl
@[simp] theorem State.writeBuf_seq (i : BitVec 32) (b : Byte) : (s.writeBuf i b).seq = s.seq := rfl
@[simp] theorem State.writeBuf_a (i : BitVec 32) (b : Byte) : (s.writeBuf i b).a = s.a := rfl
@[simp] theorem State.writeBuf_b (i : BitVec 32) (b : Byte) : (s.writeBuf i b).b = s.b := rfl
@[simp] theorem State.writeBuf_cs (i : BitVec 32) (b : Byte) : (s.writeBuf i b).cs = s.cs := rfl
@[simp] theorem State.writeBuf_buf (i : BitVec 32) (b : Byte) : (s.writeBuf i b).buf = Memory.write s.buf i.toNat b := rfl
@[simp] theorem State.writeBuf_trace (i : BitVec 32) (b : Byte) : (s.writeBuf i b).trace = s.trace := rfl
@[simp] theorem State.writeBuf_env (i : BitVec 32) (b : Byte) : (s.writeBuf i b).env = s.env := rfl

@[simp] theorem State.finish_params (f : Bool) : (s.finish f).params = s.params := rfl
@[simp] theorem State.finish_host (f : Bool) : (s.finish f).host = s.host := rfl
@[simp] theorem State.finish_desc (f : Bool) : (s.finish f).desc = s.desc := rfl
@[simp] theorem State.finish_seq (f : Bool) : (s.finish f).seq = s.seq := rfl
@[simp] theorem State.finish_a (f : Bool) : (s.finish f).a = s.a := rfl
@[simp] theorem State.finish_b (f : Bool) : (s.finish f).b = { s.b with sts := ⟨true, f, false⟩ } := rfl
@[simp] theorem State.finish_cs (f : Bool) : (s.finish f).cs = s.cs := rfl
@[simp] theorem State.finish_buf (f : Bool) : (s.finish f).buf = s.buf := rfl
@[simp] theorem State.finish_trace (f : Bool) : (s.finish f).trace = s.trace := rfl
@[simp] theorem State.finish_env (f : Bool) : (s.finish f).env = s.env := rfl

@[simp] theorem State.advanceSlot_params : (s.advanceSlot).params = s.params := rfl
@[simp] theorem State.advanceSlot_host : (s.advanceSlot).host = s.host := rfl
@[simp] theorem State.advanceSlot_desc : (s.advanceSlot).desc = s.desc := rfl
@[simp] theorem State.advanceSlot_seq : (s.advanceSlot).seq = s.seq := rfl
@[simp] theorem State.advanceSlot_a : (s.advanceSlot).a = s.a := rfl
@[simp] theorem State.advanceSlot_b : (s.advanceSlot).b = { s.b with slot := s.b.slot + 1, bidx := 0 } := rfl
@[simp] theorem State.advanceSlot_cs : (s.advanceSlot).cs = s.cs := rfl
@[simp] theorem State.advanceSlot_buf : (s.advanceSlot).buf = s.buf := rfl
@[simp] theorem State.advanceSlot_trace : (s.advanceSlot).trace = s.trace := rfl
@[simp] theorem State.advanceSlot_env : (s.advanceSlot).env = s.env := rfl

@[simp] theorem State.nextBidx_params : (s.nextBidx).params = s.params := rfl
@[simp] theorem State.nextBidx_host : (s.nextBidx).host = s.host := rfl
@[simp] theorem State.nextBidx_desc : (s.nextBidx).desc = s.desc := rfl
@[simp] theorem State.nextBidx_seq : (s.nextBidx).seq = s.seq := rfl
@[simp] theorem State.nextBidx_a : (s.nextBidx).a = s.a := rfl
@[simp] theorem State.nextBidx_b : (s.nextBidx).b = { s.b with bidx := s.b.bidx + 1 } := rfl
@[simp] theorem State.nextBidx_cs : (s.nextBidx).cs = s.cs := rfl
@[simp] theorem State.nextBidx_buf : (s.nextBidx).buf = s.buf := rfl
@[simp] theorem State.nextBidx_trace : (s.nextBidx).trace = s.trace := rfl
@[simp] theorem State.nextBidx_env : (s.nextBidx).env = s.env := rfl

@[simp] theorem State.setPins_params (p : Pins) : (s.setPins p).params = s.params := rfl
@[simp] theorem State.setPins_host (p : Pins) : (s.setPins p).host = s.host := rfl
@[simp] theorem State.setPins_desc (p : Pins) : (s.setPins p).desc = s.desc := rfl
@[simp] theorem State.setPins_seq (p : Pins) : (s.setPins p).seq = s.seq := rfl
@[simp] theorem State.setPins_a (p : Pins) : (s.setPins p).a = s.a := rfl
@[simp] theorem State.setPins_b (p : Pins) : (s.setPins p).b = s.b := rfl
@[simp] theorem State.setPins_cs (p : Pins) : (s.setPins p).cs = s.cs := rfl
@[simp] theorem State.setPins_buf (p : Pins) : (s.setPins p).buf = s.buf := rfl
@[simp] theorem State.setPins_trace (p : Pins) : (s.setPins p).trace = s.trace := rfl
@[simp] theorem State.setPins_env (p : Pins) : (s.setPins p).env = { s.env with pins := p } := rfl

@[simp] theorem State.turnFirst_params (t : Turn) : (s.turnFirst t).params = s.params := rfl
@[simp] theorem State.turnFirst_host (t : Turn) : (s.turnFirst t).host = s.host := rfl
@[simp] theorem State.turnFirst_desc (t : Turn) : (s.turnFirst t).desc = s.desc := rfl
@[simp] theorem State.turnFirst_seq (t : Turn) : (s.turnFirst t).seq = s.seq := rfl
@[simp] theorem State.turnFirst_a (t : Turn) : (s.turnFirst t).a = s.a := rfl
@[simp] theorem State.turnFirst_b (t : Turn) : (s.turnFirst t).b = s.b := rfl
@[simp] theorem State.turnFirst_cs (t : Turn) : (s.turnFirst t).cs = s.cs := rfl
@[simp] theorem State.turnFirst_buf (t : Turn) : (s.turnFirst t).buf = s.buf := rfl
@[simp] theorem State.turnFirst_trace (t : Turn) : (s.turnFirst t).trace = s.trace := rfl
@[simp] theorem State.turnFirst_env (t : Turn) : (s.turnFirst t).env = { s.env with turns := t :: s.env.turns } := rfl

@[simp] theorem State.resetTurn_params : s.resetTurn.params = s.params := rfl
@[simp] theorem State.resetTurn_buf : s.resetTurn.buf = s.buf := rfl
@[simp] theorem State.resetTurn_trace : s.resetTurn.trace = [] := rfl
@[simp] theorem State.resetTurn_env : s.resetTurn.env = { s.env with past := s.env.past ++ [s.trace] } := rfl

end Sys2Proof.Machine
end

