-- ==== Sys2Proof/Laws/Ops.lean ====
section
/-! SUPPORT. What each shared operation can do, said once: the decoding of SEQ's register accesses, the trace
operations, the chip-select request, a host write of a descriptor register, the values of register images. -/

namespace Sys2Proof.Machine

/-! ## SEQ's register accesses decode to the operations they stand for -/

theorem decode_flush (e : Bool) : decode ⟨.ctl .cr, (encode (.flush e)).bits⟩ = .ok (.flush e) := by
  cases e <;> decide

theorem decode_clrflags : decode ⟨.ctl .sr, 0xF⟩ = .ok .clrflags := by decide

theorem decode_enable : decode ⟨.ctl .cr, 1⟩ = .ok .enable := by decide

theorem decode_pop : decode ⟨.ctl .rdr, 0⟩ = .ok (.pop 0) := by decide

theorem extract_setWidth_byte (b : Byte) :
    (b.setWidth 32).extractLsb' 8 24 = 0 ∧ (b.setWidth 32).extractLsb' 0 8 = b := by
  constructor
  · apply BitVec.eq_of_toNat_eq
    have := b.isLt
    simp [BitVec.extractLsb'_toNat, Nat.shiftRight_eq_div_pow]
    omega
  · apply BitVec.eq_of_toNat_eq
    have := b.isLt
    simp [BitVec.extractLsb'_toNat]
    omega

theorem decode_push (b : Byte) : decode ⟨.ctl .tdr, b.setWidth 32⟩ = .ok (.push b) := by
  simp [decode, decodeCtl, extract_setWidth_byte]

theorem decode_tcrWord (p a c d r t : Bool) (w : Width) (h : (r && t) = false) :
    decode ⟨.ctl .tcr, tcrWord p a c d r t w.code⟩ = .ok (.setctl p a c d r t w) := by
  revert h
  cases p <;> cases a <;> cases c <;> cases d <;> cases r <;> cases t <;> cases w <;> decide

theorem wcode_legal (lw : BitVec 3) (h : lwLegal lw = true) : wcode lw = (widthOf lw).code := by
  revert lw
  decide

/-- SETCTL at a legal line width decodes to a write of that width and those masks (R163). -/
theorem decode_setctl (t : Tcr) (lw : BitVec 3) (r x : Bool) (hl : lwLegal lw = true) (h : (r && x) = false) :
    ∃ p a c d, decode ⟨.ctl .tcr, tcrWord t.cpol t.cpha t.cont t.contc r x (wcode lw)⟩ =
      .ok (.setctl p a c d r x (widthOf lw)) :=
  ⟨_, _, _, _, by rw [wcode_legal lw hl]; exact decode_tcrWord _ _ _ _ _ _ _ h⟩

/-- Whatever is fetched from a table slot is a table opcode. -/
theorem decodeHalf_isLut {h : Half} {i : Instr} (hd : decodeHalf h = .ok i) :
    (encode i).space = .lut := by
  unfold decodeHalf at hd
  simp only at hd
  repeat' split at hd
  all_goals first
    | (cases hd; rfl)
    | cases hd

/-! ## Validation -/

theorem validate_shape {d : Desc} {k : Backend} (h : d.validate k = none) : d.checkShape k = none := by
  unfold Desc.validate at h
  split at h
  · cases h
  · assumption

theorem validate_widths {d : Desc} {k : Backend} (h : d.validate k = none) :
    lwLegal d.instrLw = true ∧ lwLegal d.addrLw = true ∧ lwLegal d.altLw = true ∧ lwLegal d.dataLw = true := by
  have hs := validate_shape h
  unfold Desc.checkShape at hs
  split at hs
  · cases hs
  · rename_i hn
    simpa [and_assoc] using hn

theorem validate_dir {d : Desc} {k : Backend} (h : d.validate k = none) : d.direction ≠ 3 := by
  have hs := validate_shape h
  unfold Desc.checkShape at hs
  repeat' split at hs
  all_goals first
    | (simp at hs; done)
    | assumption

/-- After validation on Backend A the address and mode bytes fit the scratch buffer (R134, R311). -/
theorem validate_scratch {d : Desc} (h : d.validate .A = none) (hp : d.addrPresent = true) :
    d.addrSize + d.altSize ≤ 32 := by
  have hs := validate_shape h
  unfold Desc.checkShape at hs
  repeat' split at hs
  all_goals first
    | (simp at hs; done)
    | simp_all

@[simp] theorem serialise_length (c : Word) (n : Nat) : (serialise c n).length = n := by simp [serialise]

@[simp] theorem addrBytes_length (d : Desc) : d.addrBytes.length = d.addrSize + d.altSize := by
  simp [Desc.addrBytes]

/-! ## The trace -/

theorem emitTo_ne_nil {t : List Event} {e : Event} (h : t ≠ [] ∨ e ≠ .dmy 0) : emitTo t e ≠ [] := by
  cases t with
  | nil =>
    simp only [emitTo]
    split <;> simp_all
  | cons x xs =>
    cases xs with
    | nil => cases x <;> cases e <;> simp [emitTo]
    | cons y ys => simp [emitTo]

/-- An event that is no DMY is appended. -/
theorem emitTo_append {e : Event} (h : ∀ c, e ≠ .dmy c) (t : List Event) : emitTo t e = t ++ [e] := by
  induction t with
  | nil => simp [emitTo, h 0]
  | cons x xs ih =>
    cases xs with
    | nil => cases x <;> cases e <;> simp_all [emitTo]
    | cons y ys => simp [emitTo] at ih ⊢; exact ih

@[simp] theorem emitTo_out (t : List Event) (w : Width) (b : Byte) : emitTo t (.out w b) = t ++ [.out w b] :=
  emitTo_append (by simp) t
@[simp] theorem emitTo_inp (t : List Event) (w : Width) (b : Byte) : emitTo t (.inp w b) = t ++ [.inp w b] :=
  emitTo_append (by simp) t
@[simp] theorem emitTo_csLow (t : List Event) : emitTo t .csLow = t ++ [.csLow] := emitTo_append (by simp) t
@[simp] theorem emitTo_csHigh (t : List Event) : emitTo t .csHigh = t ++ [.csHigh] := emitTo_append (by simp) t

/-- The normal form is kept by every emission. -/
theorem emitTo_normal {t : List Event} (h : normalTrace t = true) (e : Event) :
    normalTrace (emitTo t e) = true := by
  induction t with
  | nil =>
    simp only [emitTo]
    split
    · rfl
    · simpa [normalTrace]
  | cons x xs ih =>
    cases xs with
    | nil =>
      cases x <;> cases e <;> simp_all [emitTo, normalTrace]
      all_goals split <;> simp_all [normalTrace]
    | cons y ys =>
      have hy : normalTrace (y :: ys) = true := by
        cases x <;> cases y <;> simp_all [normalTrace]
      have ih' := ih hy
      simp only [emitTo]
      cases ys with
      | nil => cases x <;> cases y <;> cases e <;> simp_all [emitTo, normalTrace]
      | cons z zs => cases x <;> cases y <;> simp_all [emitTo, normalTrace]

@[simp] theorem State.emitAll_params (s : State) (l : List Event) : (s.emitAll l).params = s.params := by
  induction l generalizing s with
  | nil => rfl
  | cons e es ih => exact (ih (s.emit e)).trans rfl

theorem State.emitAll_eq (s : State) (l : List Event) :
    s.emitAll l = { s with trace := l.foldl emitTo s.trace } := by
  induction l generalizing s with
  | nil => rfl
  | cons e es ih => rw [State.emitAll, ih]; rfl

theorem foldl_emitTo_normal {t : List Event} (h : normalTrace t = true) (l : List Event) :
    normalTrace (l.foldl emitTo t) = true := by
  induction l generalizing t with
  | nil => exact h
  | cons e es ih => exact ih (emitTo_normal h e)

theorem foldl_emitTo_out (t : List Event) (w : Width) (bs : List Byte) :
    (bs.map (Event.out w)).foldl emitTo t = t ++ bs.map (Event.out w) := by
  induction bs generalizing t with
  | nil => simp
  | cons b bs ih => simp [ih]

/-! ## Chip-select -/

/-- `cs_req` rising in CS_IDLE is the one thing `csRise` can do (R256). -/
theorem State.csRise_cases (s : State) :
    (s.csReq = true ∧ s.cs = .idle ∧ s.csRise = { s with cs := .setup, trace := s.trace ++ [.csLow] }) ∨
    ((s.csReq = false ∨ s.cs ≠ .idle) ∧ s.csRise = s) := by
  unfold State.csRise
  by_cases h : s.csReq = true ∧ s.cs = .idle
  · left
    simp [h.1, h.2, State.emit]
  · right
    have : ¬((s.csReq && decide (s.cs = .idle)) = true) := by simpa using h
    rw [if_neg this]
    refine ⟨?_, rfl⟩
    by_cases hc : s.csReq = true
    · exact .inr fun hi => h ⟨hc, hi⟩
    · exact .inl (by simpa using hc)

/-! ## A host write of a descriptor register (R23, R24) -/

theorem Desc.hostWrite_written (d : Desc) (i : BitVec 3) (v : Word) :
    (d.hostWrite i v).written = d.written ||| (1#8 <<< i.toNat) := by
  have hc : i = 0 ∨ i = 1 ∨ i = 2 ∨ i = 3 ∨ i = 4 ∨ i = 5 ∨ i = 6 ∨ i = 7 := by
    revert i
    decide
  rcases hc with rfl | rfl | rfl | rfl | rfl | rfl | rfl | rfl <;> rfl

/-- A host write of D`i` marks D`i` as written, and leaves every other mark. -/
theorem Desc.hostWrite_has (d : Desc) (i : BitVec 3) (v : Word) (j : Nat) :
    (d.hostWrite i v).has j = (decide (j = i.toNat) || d.has j) := by
  have hi := i.isLt
  unfold Desc.has
  rw [Desc.hostWrite_written, BitVec.getLsbD_or, BitVec.getLsbD_shiftLeft, BitVec.getLsbD_one]
  by_cases hj : j = i.toNat
  · subst hj
    simp [hi]
  · by_cases h : j < i.toNat
    · simp [h, hj]
    · have : ¬(j - i.toNat = 0) := by omega
      simp [hj, this]

/-! ## Register images as numbers (R46) -/

theorem fieldAt_toNat {n : Nat} (v : BitVec n) (i : Nat) (h : n + i ≤ 32) : (fieldAt v i).toNat = v.toNat * 2 ^ i := by
  have h1 : v.toNat < 2 ^ 32 := lt_of_lt_of_le v.isLt (Nat.pow_le_pow_right (by omega) (by omega))
  have h2 : v.toNat * 2 ^ i < 2 ^ 32 :=
    calc v.toNat * 2 ^ i < 2 ^ n * 2 ^ i := Nat.mul_lt_mul_of_pos_right v.isLt (Nat.two_pow_pos i)
      _ = 2 ^ (n + i) := (Nat.pow_add ..).symm
      _ ≤ 2 ^ 32 := Nat.pow_le_pow_right (by omega) h
  rw [fieldAt, BitVec.toNat_shiftLeft, BitVec.toNat_setWidth, Nat.shiftLeft_eq, Nat.mod_eq_of_lt h1,
    Nat.mod_eq_of_lt h2]

theorem bitAt_toNat (b : Bool) (i : Nat) (h : i < 32) : (bitAt b i).toNat = b.toNat * 2 ^ i := by
  refine (fieldAt_toNat (BitVec.ofBool b) i (by omega)).trans ?_
  cases b <;> rfl

/-- Two parts of a word that share no bit add up. -/
theorem or_toNat {x y : Word} {m c k : Nat} (hx : x.toNat = m) (hm : m < 2 ^ k) (hy : y.toNat = c * 2 ^ k) :
    (x ||| y).toNat = m + 2 ^ k * c := by
  rw [BitVec.toNat_or, hx, hy, Nat.mul_comm, Nat.or_comm, ← Nat.two_pow_add_eq_or_of_lt hm, Nat.add_comm]

end Sys2Proof.Machine
end

