-- ==== Sys2Proof/Laws/Invariant.lean ====
section
/-! SUPPORT. The base of the invariant under each shared operation, and the control points of Backend A and
Backend B under each agent's turn. -/

namespace Sys2Proof.Machine

variable {s : State}

/-! ## The base under the operations that cannot break it -/

theorem Base.issueOps (h : Base s) (l : List SeqOp) : Base (s.issueOps l) :=
  ⟨h.params, h.latch, h.running, h.valid, h.txBound, h.rxBound, h.frame, h.shifter, h.boot, h.buf, h.scratch, h.trace⟩

theorem Base.nextIdx (h : Base s) : Base s.nextIdx :=
  ⟨h.params, h.latch, h.running, h.valid, h.txBound, h.rxBound, h.frame, h.shifter, h.boot, h.buf, h.scratch, h.trace⟩

theorem Base.takeFree (h : Base s) : Base s.takeFree :=
  ⟨h.params, h.latch, h.running, h.valid, h.txBound, h.rxBound, h.frame, h.shifter, h.boot, h.buf, h.scratch, h.trace⟩

theorem Base.setEnv (h : Base s) (e : Env) : Base { s with env := e } :=
  ⟨h.params, h.latch, h.running, h.valid, h.txBound, h.rxBound, h.frame, h.shifter, h.boot, h.buf, h.scratch, h.trace⟩

theorem Base.setCs (h : Base s) (c : CsState) : Base { s with cs := c } :=
  ⟨h.params, h.latch, h.running, h.valid, h.txBound, h.rxBound, h.frame, h.shifter, h.boot, h.buf, h.scratch, h.trace⟩

theorem Base.flushFifos (h : Base s) : Base s.flushFifos :=
  ⟨h.params, h.latch, h.running, h.valid, Nat.zero_le _, Nat.zero_le _, h.frame, h.shifter, h.boot, h.buf, h.scratch, h.trace⟩

theorem Base.clearFlags (h : Base s) : Base s.clearFlags :=
  ⟨h.params, h.latch, h.running, h.valid, h.txBound, h.rxBound, h.frame, h.shifter, h.boot, h.buf, h.scratch, h.trace⟩

theorem Base.enable (h : Base s) : Base s.enable :=
  ⟨h.params, h.latch, h.running, h.valid, h.txBound, h.rxBound, h.frame, h.shifter, h.boot, h.buf, h.scratch, h.trace⟩

theorem Base.setCtl (h : Base s) (w : Width) (r t : Bool) : Base (s.setCtl w r t) :=
  ⟨h.params, h.latch, h.running, h.valid, h.txBound, h.rxBound, h.frame, h.shifter, h.boot, h.buf, h.scratch, h.trace⟩

theorem Base.setCont (h : Base s) (v : Bool) : Base (s.setCont v) :=
  ⟨h.params, h.latch, h.running, h.valid, h.txBound, h.rxBound, h.frame, h.shifter, h.boot, h.buf, h.scratch, h.trace⟩

theorem Base.frameDone (h : Base s) : Base s.frameDone :=
  ⟨h.params, h.latch, h.running, h.valid, h.txBound, h.rxBound, h.frame, h.shifter, h.boot, h.buf, h.scratch, h.trace⟩

theorem Base.xferDone (h : Base s) : Base s.xferDone :=
  ⟨h.params, h.latch, h.running, h.valid, h.txBound, h.rxBound, h.frame, h.shifter, h.boot, h.buf, h.scratch, h.trace⟩

theorem Base.finish (h : Base s) (f : Bool) : Base (s.finish f) :=
  ⟨h.params, h.latch, h.running, h.valid, h.txBound, h.rxBound, h.frame, h.shifter, h.boot, h.buf, h.scratch, h.trace⟩

theorem Base.advanceSlot (h : Base s) : Base s.advanceSlot :=
  ⟨h.params, h.latch, h.running, h.valid, h.txBound, h.rxBound, h.frame, h.shifter, h.boot, h.buf, h.scratch, h.trace⟩

theorem Base.nextBidx (h : Base s) : Base s.nextBidx :=
  ⟨h.params, h.latch, h.running, h.valid, h.txBound, h.rxBound, h.frame, h.shifter, h.boot, h.buf, h.scratch, h.trace⟩

theorem Base.dataAdvance (h : Base s) : Base s.dataAdvance := by
  unfold State.dataAdvance
  split
  · exact h.advanceSlot
  · exact h.nextBidx

theorem Base.resultOk (h : Base s) (n : BitVec 32) : Base (s.resultOk n) :=
  ⟨h.params, h.latch, h.running, h.valid, h.txBound, h.rxBound, h.frame, h.shifter, h.boot, h.buf, h.scratch, h.trace⟩

theorem Base.raise (h : Base s) (e : ErrorKind) : Base (s.raise e) :=
  ⟨h.params, h.latch, h.running, h.valid, h.txBound, h.rxBound, h.frame, h.shifter, h.boot, h.buf, h.scratch, h.trace⟩

theorem Base.emit (h : Base s) (e : Event) : Base (s.emit e) :=
  ⟨h.params, h.latch, h.running, h.valid, h.txBound, h.rxBound, h.frame, h.shifter, h.boot, h.buf, h.scratch,
    emitTo_normal h.trace e⟩

theorem Base.emitAll (h : Base s) (l : List Event) : Base (s.emitAll l) := by
  induction l generalizing s with
  | nil => exact h
  | cons e es ih => exact ih (h.emit e)

theorem Base.writeBuf (h : Base s) (i : BitVec 32) (b : Byte) : Base (s.writeBuf i b) :=
  ⟨h.params, h.latch, h.running, h.valid, h.txBound, h.rxBound, h.frame, h.shifter, h.boot,
    Memory.write_wf h.buf _ _, h.scratch, h.trace⟩

theorem Base.csRise (h : Base s) : Base s.csRise := by
  unfold State.csRise
  split
  · exact (h.emit .csLow).setCs .setup
  · exact h

theorem Base.goto (h : Base s) {p : Phase} (hs : s.seq.phase ≠ .pIdle) (hp : p ≠ .pIdle) : Base (s.goto p) :=
  ⟨h.params, h.latch, ⟨fun _ => hp, fun _ => h.running.2 hs⟩, h.valid, h.txBound, h.rxBound, h.frame, h.shifter, h.boot, h.buf,
    h.scratch, h.trace⟩

theorem Base.pushTx (h : Base s) (b : Byte) (hf : s.a.txf.length < s.params.txDepth) : Base (s.pushTx b) :=
  ⟨h.params, h.latch, h.running, h.valid, by simpa using hf, h.rxBound, h.frame, h.shifter, h.boot, h.buf,
    h.scratch, h.trace⟩

theorem Base.pushRx (h : Base s) (b : Byte) (hr : s.a.rxf.length < s.params.rxDepth) : Base (s.pushRx b) :=
  ⟨h.params, h.latch, h.running, h.valid, h.txBound, by simpa using hr, h.frame, h.shifter, h.boot, h.buf,
    h.scratch, h.trace⟩

theorem Base.popRx (h : Base s) {b : Byte} {r : List Byte} (hr : s.a.rxf = b :: r) : Base (s.popRx b r) :=
  ⟨h.params, h.latch, h.running, h.valid, h.txBound, by have := h.rxBound; simp [hr] at this; simp; omega,
    h.frame, h.shifter, h.boot, h.buf, h.scratch, h.trace⟩

theorem Base.setTxf (h : Base s) {b : Byte} {r : List Byte} (hr : s.a.txf = b :: r) :
    Base { s with a := { s.a with txf := r } } :=
  ⟨h.params, h.latch, h.running, h.valid, by have := h.txBound; simp [hr] at this; simp; omega, h.rxBound,
    h.frame, h.shifter, h.boot, h.buf, h.scratch, h.trace⟩

theorem Base.setTxmsk (h : Base s) (v : Bool) :
    Base { s with a := { s.a with tcr := { s.a.tcr with txmsk := v } } } :=
  ⟨h.params, h.latch, h.running, h.valid, h.txBound, h.rxBound, h.frame, h.shifter, h.boot, h.buf, h.scratch, h.trace⟩

theorem Base.setScratch (h : Base s) {m : Memory} (hm : Memory.wf m = true) :
    Base { s with a := { s.a with scratch := m } } :=
  ⟨h.params, h.latch, h.running, h.valid, h.txBound, h.rxBound, h.frame, h.shifter, h.boot, h.buf, hm, h.trace⟩

theorem Base.load (h : Base s) (p0 p1 p2 p3 : Word) :
    Base { s with b := { s.b with lut := s.b.lut.loadUser p0 p1 p2 p3 } } :=
  ⟨h.params, h.latch, h.running, h.valid, h.txBound, h.rxBound, h.frame, h.shifter, h.boot, h.buf, h.scratch, h.trace⟩

theorem Base.issueRequest (h : Base s) : Base s.issueRequest := by
  refine Base.csRise ?_
  exact ⟨h.params, h.latch, h.running, h.valid, h.txBound, h.rxBound, h.frame, h.shifter, h.boot, h.buf, h.scratch, h.trace⟩

theorem Base.havocBuf (h : Base s) : Base s.havocBuf := by
  unfold State.havocBuf
  split
  · exact ⟨h.params, h.latch, h.running, h.valid, h.txBound, h.rxBound, h.frame, h.shifter, h.boot,
      Memory.fill_wf h.buf _ _, h.scratch, h.trace⟩
  · exact h

theorem Base.configured (h : Base s) (hs : s.host.st ≠ .uninit) : s.host.configured = true := h.latch.2 hs

/-- The end of a transfer: PHASE and STATE idle together. -/
theorem Base.endTransfer (h : Base s) (hs : s.seq.phase ≠ .pIdle) : Base s.endTransfer := by
  have hx : s.host.st = .xfer := h.running.2 hs
  have ht : Base ((s.setRun .idle).goto .pIdle) := by
    refine ⟨h.params, ?_, ?_, ?_, h.txBound, h.rxBound, h.frame, h.shifter, h.boot, h.buf, h.scratch, h.trace⟩
    · simp [h.configured (by simp [hx])]
    · simp
    · simp
  unfold State.endTransfer
  simp only
  split
  · exact ht.havocBuf.raise _
  · exact ht.resultOk _

/-! ## Control points -/

theorem Inv.mkA (hb : Base s) (hk : s.params.backend = .A) (hp : pointA s) : Inv s :=
  ⟨hb, by rw [hk]; exact hp⟩

theorem Inv.mkB (hb : Base s) (hk : s.params.backend = .B) (hp : pointB s) : Inv s :=
  ⟨hb, by rw [hk]; exact hp⟩

theorem Inv.pointA (h : Inv s) (hk : s.params.backend = .A) : pointA s := by
  have := h.point
  rwa [hk] at this

theorem Inv.pointB (h : Inv s) (hk : s.params.backend = .B) : pointB s := by
  have := h.point
  rwa [hk] at this

/-! ### Running one line -/

theorem seqTurn_cons {op : SeqOp} {rest : List SeqOp} (ho : s.seq.ops = op :: rest) :
    s.seqTurn = s.runOp op rest := by
  unfold State.seqTurn
  rw [ho]

theorem runOp_wait {p : WaitPred} {rest : List SeqOp} :
    s.runOp (.wait p) rest = .next (if s.holds p then s.issueOps rest else s) := rfl

theorem runOp_flush {e : Bool} {rest : List SeqOp} :
    s.runOp (flushOp e) rest = .next (s.issueOps rest).flushFifos := by
  simp only [State.runOp, flushOp, decode_flush]
  rfl

theorem runOp_clrflags {rest : List SeqOp} : s.runOp clrflagsOp rest = .next (s.issueOps rest).clearFlags := by
  simp only [State.runOp, clrflagsOp, decode_clrflags]
  rfl

theorem runOp_enable {rest : List SeqOp} : s.runOp enableOp rest = .next (s.issueOps rest).enable := by
  simp only [State.runOp, enableOp, decode_enable]
  rfl

theorem runOp_setctl {t : Tcr} {lw : BitVec 3} {r x : Bool} {rest : List SeqOp} (hl : lwLegal lw = true)
    (h : (r && x) = false) :
    s.runOp (setctlOp t lw r x) rest = .next ((s.issueOps rest).setCtl (widthOf lw) r x) := by
  obtain ⟨p, a, c, d, hd⟩ := decode_setctl t lw r x hl h
  simp only [State.runOp, setctlOp, hd]
  rfl

theorem runOp_push {b : Byte} {rest : List SeqOp} :
    s.runOp (pushOp b) rest =
      if s.txFull then .fault .txOverflow else .next ((s.issueOps rest).pushTx b) := by
  simp only [State.runOp, pushOp, decode_push]
  rfl

theorem runOp_pop {rest : List SeqOp} :
    s.runOp popOp rest = match s.a.rxf with
      | [] => .fault .rxUnderflow
      | b :: r => .next ((s.issueOps rest).popRx b r) := by
  simp only [State.runOp, popOp, decode_pop]
  rfl

theorem runOp_contOn {rest : List SeqOp} :
    s.runOp .contOn rest = .next ((s.issueOps rest).setCont true).csRise := rfl

theorem txFull_iff : s.txFull = true ↔ s.params.txDepth ≤ s.a.txf.length := by simp [State.txFull]

/-! ### Fetching a step -/

theorem fetchStep_start (h : s.seq.phase = .pStart) : s.fetchStep = .ok .aStart := by
  unfold State.fetchStep; rw [h]; generalize s.desc.dirWrite = d; revert d; decide

theorem fetchStep_instr (h : s.seq.phase = .pInstr) : s.fetchStep = .ok .aInstr := by
  unfold State.fetchStep; rw [h]; generalize s.desc.dirWrite = d; revert d; decide

theorem fetchStep_addr (h : s.seq.phase = .pAddr) : s.fetchStep = .ok .aAddr := by
  unfold State.fetchStep; rw [h]; generalize s.desc.dirWrite = d; revert d; decide

theorem fetchStep_dummy (h : s.seq.phase = .pDummy) : s.fetchStep = .ok .aDummy := by
  unfold State.fetchStep; rw [h]; generalize s.desc.dirWrite = d; revert d; decide

theorem fetchStep_data (h : s.seq.phase = .pData) :
    s.fetchStep = .ok (if s.desc.dirWrite then .aDataW else .aDataR) := by
  unfold State.fetchStep; rw [h]; generalize s.desc.dirWrite = d; revert d; decide

theorem fetchStep_end (h : s.seq.phase = .pEnd) : s.fetchStep = .ok .aEnd := by
  unfold State.fetchStep; rw [h]; generalize s.desc.dirWrite = d; revert d; decide

theorem seqTurn_fetch {i : Instr} (ho : s.seq.ops = []) (hk : s.params.backend = .A)
    (hf : s.fetchStep = .ok i) : s.seqTurn = exec i s := by
  unfold State.seqTurn
  rw [ho]
  simp only [hk, hf]

/-! ### SEQ's turn on Backend A -/

/-- What SEQ's turn may do from the invariant on Backend A: keep it, or meet a full transmit FIFO in an
address phase longer than the FIFO is deep (R305). -/
def seqOutcome (s : State) : Host.Outcome State Fault Refusal → Prop
  | .next t => Inv t
  | .fault f => f = .txOverflow ∧ s.seq.phase = .pAddr ∧ s.params.txDepth < s.desc.addrSize + s.desc.altSize
  | .refused _ => False

theorem pointA_start {t : State} (h : t.seq.phase = .pStart) (p : startPoint t) : pointA t := by
  simpa only [pointA, h]

theorem pointA_instr {t : State} (h : t.seq.phase = .pInstr) (p : instrPoint t) : pointA t := by
  simpa only [pointA, h]

theorem pointA_addr {t : State} (h : t.seq.phase = .pAddr) (p : addrPoint t) : pointA t := by
  simpa only [pointA, h]

theorem pointA_dummy {t : State} (h : t.seq.phase = .pDummy) (p : dummyPoint t) : pointA t := by
  simpa only [pointA, h]

theorem pointA_write {t : State} (h : t.seq.phase = .pData) (hd : t.desc.dirWrite = true) (p : writePoint t) :
    pointA t := by
  simp only [pointA, h, hd]; exact p

theorem pointA_read {t : State} (h : t.seq.phase = .pData) (hd : t.desc.dirWrite = false) (p : readPoint t) :
    pointA t := by
  simp only [pointA, h, hd]; exact p

theorem pointA_end {t : State} (h : t.seq.phase = .pEnd) (p : endPoint t) : pointA t := by
  simpa only [pointA, h]

theorem pointA_idle {t : State} (h : t.seq.phase = .pIdle) (p : restA t) (ho : t.seq.ops = []) : pointA t := by
  simp only [pointA, h]; exact ⟨p, ho⟩

/-- A wait at the head: it passes to the next control point, or SEQ stays. -/
theorem seqOutcome_wait {p : WaitPred} {rest : List SeqOp} (h : Inv s) (ho : s.seq.ops = .wait p :: rest)
    (hn : s.holds p = true → Inv (s.issueOps rest)) : seqOutcome s s.seqTurn := by
  rw [seqTurn_cons ho, runOp_wait]
  by_cases hp : s.holds p = true
  · rw [if_pos hp]; exact hn hp
  · rw [if_neg hp]; exact h

theorem csOn_asserted (h : csOn s) : s.cs.asserted = true := by
  rcases h with h | h <;> simp [h, CsState.asserted]

theorem csOff_asserted (h : csOff s) : s.cs.asserted = false := by
  rcases h with h | h <;> simp [h, CsState.asserted]

theorem seq_start (h : Inv s) (hk : s.params.backend = .A) (hph : s.seq.phase = .pStart) :
    seqOutcome s s.seqTurn := by
  have hp := h.pointA hk
  have hb := h.toBase
  simp only [pointA, hph] at hp
  rcases hp with ⟨hr, ho | ⟨e, ho⟩ | ho | ho | ⟨hen, ho⟩⟩ | ⟨hh, hf, hc, ho⟩ | ⟨hq, ho⟩
  · rw [seqTurn_fetch ho hk (fetchStep_start hph)]
    exact Inv.mkA (hb.issueOps _) hk (pointA_start hph (.inl ⟨hr, .inr (.inl ⟨_, rfl⟩)⟩))
  · rw [seqTurn_cons ho, runOp_flush]
    exact Inv.mkA (hb.issueOps _).flushFifos hk (pointA_start hph (.inl
      ⟨⟨hr.1, ⟨rfl, rfl, hr.2.1.2.2⟩, hr.2.2⟩, .inr (.inr (.inl rfl))⟩))
  · rw [seqTurn_cons ho, runOp_clrflags]
    exact Inv.mkA (hb.issueOps _).clearFlags hk (pointA_start hph (.inl ⟨hr, .inr (.inr (.inr (.inl rfl)))⟩))
  · rw [seqTurn_cons ho, runOp_enable]
    exact Inv.mkA (hb.issueOps _).enable hk (pointA_start hph (.inl ⟨hr, .inr (.inr (.inr (.inr ⟨rfl, rfl⟩)))⟩))
  · rw [seqTurn_cons ho, runOp_contOn]
    refine Inv.mkA ((hb.issueOps _).setCont true).csRise ?_ ?_
    · rcases State.csRise_cases ((s.issueOps [.wait .csAsserted, .goto .pInstr]).setCont true) with ⟨_, _, e⟩ | ⟨_, e⟩ <;>
        (rw [e]; exact hk)
    · rcases State.csRise_cases ((s.issueOps [.wait .csAsserted, .goto .pInstr]).setCont true) with ⟨_, _, e⟩ | ⟨_, e⟩
      · rw [e]
        exact pointA_start hph (.inr (.inl ⟨⟨hen, rfl, rfl⟩, hr.2.1, .inr (.inl rfl), rfl⟩))
      · rw [e]
        exact pointA_start hph (.inr (.inl ⟨⟨hen, rfl, rfl⟩, hr.2.1, .inl hr.1, rfl⟩))
  · refine seqOutcome_wait h ho fun hw => Inv.mkA (hb.issueOps _) hk (pointA_start hph (.inr (.inr ⟨⟨hh, ?_, hf⟩, rfl⟩)))
    rcases hc with hc | hc
    · simp [State.holds, csOff_asserted hc] at hw
    · exact hc
  · rw [seqTurn_cons ho]
    exact Inv.mkA ((hb.issueOps _).goto (by simp [hph]) (by simp)) hk (pointA_instr rfl (.inl ⟨hq, rfl⟩))

theorem holds_drained (hw : s.holds .txDrained = true) : s.a.txf = [] := by
  simp [State.holds, State.txDrained] at hw; exact hw.1

/-- A sending phase that has drained is quiet. -/
theorem sendingA_drained {w : Width} (h : sendingA s w) (ht : s.a.txf = []) : quietA s :=
  ⟨h.1, h.2.1, ht, h.2.2.1, h.2.2.2.1⟩

theorem quietA_sending {w : Width} (h : quietA s) : sendingA s w :=
  ⟨h.1, h.2.1, h.2.2.2.1, h.2.2.2.2, fun hn => absurd h.2.2.1 hn⟩

/-- SETCTL of a sending phase (R163, R304). -/
theorem sendingA_setctl {w : Width} {l : List SeqOp} (h : sendingA s w) :
    readyA ((s.issueOps l).setCtl w true false) w :=
  ⟨⟨h.1, h.2.1, h.2.2.1, rfl, fun _ => ⟨rfl, rfl⟩⟩, rfl, rfl⟩

theorem readyA_push {w : Width} {b : Byte} {l : List SeqOp} (h : readyA s w) :
    readyA ((s.issueOps l).pushTx b) w :=
  ⟨⟨h.1.1, h.1.2.1, h.1.2.2.1, h.1.2.2.2.1, fun _ => h.2⟩, h.2⟩

theorem xfer_of_phase (h : Base s) (hp : s.seq.phase ≠ .pIdle) (hk : s.params.backend = .A) :
    s.desc.validate .A = none := by
  have := h.valid (h.running.2 hp)
  rwa [hk] at this

theorem seq_instr (h : Inv s) (hk : s.params.backend = .A) (hph : s.seq.phase = .pInstr) :
    seqOutcome s s.seqTurn := by
  have hp := h.pointA hk
  have hb := h.toBase
  have hv := validate_widths (xfer_of_phase hb (by simp [hph]) hk)
  simp only [pointA, hph] at hp
  rcases hp with ⟨hq, ho⟩ | ⟨hq, t, b, ho⟩ | ⟨hq, hr, b, ho⟩ | ⟨hr, ho⟩ | ⟨hq, ho⟩
  · rw [seqTurn_fetch ho hk (fetchStep_instr hph)]
    simp only [exec, execAInstr]
    split
    · exact Inv.mkA (hb.issueOps _) hk (pointA_instr hph (.inr (.inl ⟨hq, _, _, rfl⟩)))
    · exact Inv.mkA (hb.goto (by simp [hph]) (by simp)) hk (pointA_addr rfl (.inl ⟨hq, rfl⟩))
  · rw [seqTurn_cons ho, runOp_setctl hv.1 rfl]
    exact Inv.mkA ((hb.issueOps _).setCtl _ _ _) hk (pointA_instr hph (.inr (.inr (.inl
      ⟨⟨hq.1, hq.2.1, hq.2.2.1, hq.2.2.2.1, rfl⟩, sendingA_setctl (quietA_sending hq), _, rfl⟩))))
  · have hl : s.a.txf.length < s.params.txDepth := by
      have := hb.params
      simp [Params.wf] at this
      simp [hq.2.2.1]; omega
    rw [seqTurn_cons ho, runOp_push, if_neg (by rw [txFull_iff]; omega)]
    exact Inv.mkA ((hb.issueOps _).pushTx _ hl) hk (pointA_instr hph (.inr (.inr (.inr (.inl ⟨readyA_push hr, rfl⟩)))))
  · exact seqOutcome_wait h ho fun hw => Inv.mkA (hb.issueOps _) hk
      (pointA_instr hph (.inr (.inr (.inr (.inr ⟨sendingA_drained hr.1 (holds_drained hw), rfl⟩)))))
  · rw [seqTurn_cons ho]
    exact Inv.mkA ((hb.issueOps _).goto (by simp [hph]) (by simp)) hk (pointA_addr rfl (.inl ⟨hq, rfl⟩))

theorem pushLines_cons (b : Byte) (bs : List Byte) : pushLines (b :: bs) = pushOp b :: .nextIdx :: pushLines bs := rfl

/-- The pushes of A.ADDR are the pushes of a list of bytes. -/
theorem scratchPushes_eq (m : Memory) (k : Nat) :
    scratchPushes m k = pushLines ((List.range k).map (Memory.read m)) := by
  simp [scratchPushes, pushLines, List.flatMap_map]

theorem seq_addr (h : Inv s) (hk : s.params.backend = .A) (hph : s.seq.phase = .pAddr) :
    seqOutcome s s.seqTurn := by
  have hp := h.pointA hk
  have hb := h.toBase
  have hx := xfer_of_phase hb (by simp [hph]) hk
  have hv := validate_widths hx
  simp only [pointA, hph] at hp
  rcases hp with ⟨hq, ho⟩ | ⟨hq, t, bs, hl, ho⟩ | ⟨hr, bs, hl, ho | ho⟩ | ⟨hq, ho⟩
  · rw [seqTurn_fetch ho hk (fetchStep_addr hph)]
    simp only [exec, execAAddr]
    split
    · rename_i hpres
      have h32 := validate_scratch hx hpres
      rw [if_neg (by simp; omega)]
      refine Inv.mkA ((hb.setScratch (Memory.store_wf hb.scratch 0 s.desc.addrBytes)).issueOps _) hk
        (pointA_addr hph (.inr (.inl ⟨hq, s.a.tcr, (List.range s.desc.addrBytes.length).map
          (Memory.read (Memory.store s.a.scratch 0 s.desc.addrBytes)), ?_, ?_⟩)))
      · simp
      · simp [scratchPushes_eq]
    · exact Inv.mkA (hb.goto (by simp [hph]) (by simp)) hk (pointA_dummy rfl (.inl ⟨hq, rfl⟩))
  · rw [seqTurn_cons ho, runOp_setctl hv.2.1 rfl]
    exact Inv.mkA ((hb.issueOps _).setCtl _ _ _) hk (pointA_addr hph (.inr (.inr (.inl
      ⟨sendingA_setctl (quietA_sending hq), bs, by simpa [hq.2.2.1] using hl, .inl rfl⟩))))
  · cases bs with
    | nil =>
      exact seqOutcome_wait h ho fun hw => Inv.mkA (hb.issueOps _) hk
        (pointA_addr hph (.inr (.inr (.inr ⟨sendingA_drained hr.1 (holds_drained hw), rfl⟩))))
    | cons b bs =>
      rw [pushLines_cons] at ho
      rw [seqTurn_cons ho, runOp_push]
      by_cases hf : s.txFull = true
      · rw [if_pos hf]
        rw [txFull_iff] at hf
        exact ⟨rfl, hph, by simp at hl; omega⟩
      · rw [if_neg hf]
        rw [txFull_iff] at hf
        exact Inv.mkA ((hb.issueOps _).pushTx _ (by simpa using hf)) hk (pointA_addr hph (.inr (.inr (.inl
          ⟨readyA_push hr, bs, by simp at hl ⊢; omega, .inr rfl⟩))))
  · rw [seqTurn_cons ho]
    exact Inv.mkA (hb.issueOps _).nextIdx hk (pointA_addr hph (.inr (.inr (.inl ⟨hr, bs, hl, .inl rfl⟩))))
  · rw [seqTurn_cons ho]
    exact Inv.mkA ((hb.issueOps _).goto (by simp [hph]) (by simp)) hk (pointA_dummy rfl (.inl ⟨hq, rfl⟩))

/-- A receive-only request (R163, R167). -/
theorem quietA_ask {w : Width} {l : List SeqOp} (h : quietA s) :
    askedA ((s.issueOps l).setCtl w false true) w :=
  ⟨h.1, h.2.1, h.2.2.1, .inl ⟨rfl, rfl, h.2.2.2.1⟩⟩

theorem askedA_avail {w : Width} (h : askedA s w) (hw : s.holds .rxAvail = true) : gotA s := by
  rcases h with ⟨h1, h2, h3, ⟨_, _, h5⟩ | ⟨h4, h5⟩⟩
  · simp [State.holds, State.rxAvail, h5] at hw
  · exact ⟨h1, h2, h3, h4, h5⟩

/-- A pop of the one received byte. -/
theorem gotA_pop (h : gotA s) : ∃ b, s.a.rxf = [b] := List.length_eq_one_iff.1 h.2.2.2.2

theorem seq_dummy (h : Inv s) (hk : s.params.backend = .A) (hph : s.seq.phase = .pDummy) :
    seqOutcome s s.seqTurn := by
  have hp := h.pointA hk
  have hb := h.toBase
  simp only [pointA, hph] at hp
  rcases hp with ⟨hq, ho⟩ | ⟨hq, t, ho⟩ | ⟨ha, ho⟩ | ⟨hg, ho⟩ | ⟨hq, ho⟩
  · rw [seqTurn_fetch ho hk (fetchStep_dummy hph)]
    simp only [exec, execADummy]
    split
    · exact Inv.mkA (hb.issueOps _) hk (pointA_dummy hph (.inr (.inl ⟨hq, _, rfl⟩)))
    · refine Inv.mkA (hb.goto (by simp [hph]) (by simp)) hk ?_
      by_cases hd : s.desc.dirWrite = true
      · exact pointA_write rfl hd (.inl ⟨hq, rfl⟩)
      · exact pointA_read rfl (by simpa using hd) (.inl ⟨hq, rfl⟩)
  · rw [seqTurn_cons ho, runOp_setctl (by decide) rfl]
    exact Inv.mkA ((hb.issueOps _).setCtl _ _ _) hk (pointA_dummy hph (.inr (.inr (.inl ⟨quietA_ask hq, rfl⟩))))
  · exact seqOutcome_wait h ho fun hw => Inv.mkA (hb.issueOps _) hk
      (pointA_dummy hph (.inr (.inr (.inr (.inl ⟨askedA_avail ha hw, rfl⟩)))))
  · obtain ⟨b, hbx⟩ := gotA_pop hg
    rw [seqTurn_cons ho, runOp_pop, hbx]
    exact Inv.mkA ((hb.issueOps _).popRx hbx) hk (pointA_dummy hph (.inr (.inr (.inr (.inr
      ⟨⟨hg.1, hg.2.1, hg.2.2.1, rfl, hg.2.2.2.1⟩, rfl⟩)))))
  · rw [seqTurn_cons ho]
    exact Inv.mkA (hb.issueOps _).nextIdx hk (pointA_dummy hph (.inl ⟨hq, rfl⟩))

theorem seq_write (h : Inv s) (hk : s.params.backend = .A) (hph : s.seq.phase = .pData)
    (hd : s.desc.dirWrite = true) : seqOutcome s s.seqTurn := by
  have hp := h.pointA hk
  have hb := h.toBase
  have hv := validate_widths (xfer_of_phase hb (by simp [hph]) hk)
  simp only [pointA, hph, hd, if_true] at hp
  have hfetch : s.seq.ops = [] → sendingA s (widthOf s.desc.dataLw) →
      (s.desc.dataPresent = false → quietA s) → seqOutcome s s.seqTurn := by
    intro ho hs hq
    rw [seqTurn_fetch ho hk (fetchStep_data hph)]
    simp only [hd, if_true, exec, execADataW]
    split
    · rename_i hpres
      split
      · exact Inv.mkA (hb.issueOps _) hk
          (pointA_write hph hd (.inr (.inl ⟨hpres, .inl ⟨hs, .inr (.inr ⟨_, _, rfl⟩)⟩⟩)))
      · exact Inv.mkA (hb.issueOps _) hk
          (pointA_write hph hd (.inr (.inl ⟨hpres, .inl ⟨hs, .inr (.inl rfl)⟩⟩)))
    · rename_i hpres
      exact Inv.mkA (hb.goto (by simp [hph]) (by simp)) hk
        (pointA_end rfl (.inl ⟨hq (by simpa using hpres), rfl⟩))
  rcases hp with ⟨hq, ho⟩ | ⟨hpres, ⟨hs, ho | ho | ⟨t, b, ho⟩⟩ | ⟨hr, ho | ⟨b, ho⟩⟩ | ⟨hr, hl, b, ho⟩⟩ | ⟨hq, ho⟩
  · exact hfetch ho (quietA_sending hq) fun _ => hq
  · exact hfetch ho hs fun hn => by simp [hpres] at hn
  · exact seqOutcome_wait h ho fun hw => Inv.mkA (hb.issueOps _) hk (pointA_write hph hd
      (.inr (.inr ⟨sendingA_drained hs (holds_drained hw), rfl⟩)))
  · rw [seqTurn_cons ho, runOp_setctl hv.2.2.2 rfl]
    exact Inv.mkA ((hb.issueOps _).setCtl _ _ _) hk
      (pointA_write hph hd (.inr (.inl ⟨hpres, .inr (.inl ⟨sendingA_setctl hs, .inr ⟨_, rfl⟩⟩)⟩)))
  · rw [seqTurn_cons ho]
    exact Inv.mkA (hb.issueOps _).nextIdx hk (pointA_write hph hd (.inr (.inl ⟨hpres, .inl ⟨hr.1, .inl rfl⟩⟩)))
  · refine seqOutcome_wait h ho fun hw => Inv.mkA (hb.issueOps _) hk
      (pointA_write hph hd (.inr (.inl ⟨hpres, .inr (.inr ⟨hr, ?_, _, rfl⟩)⟩)))
    simp [State.holds, State.txFull] at hw
    exact hw
  · rw [seqTurn_cons ho, runOp_push, if_neg (by rw [txFull_iff]; omega)]
    exact Inv.mkA ((hb.issueOps _).pushTx _ hl) hk (pointA_write hph hd
      (.inr (.inl ⟨hpres, .inr (.inl ⟨readyA_push hr, .inl rfl⟩)⟩)))
  · rw [seqTurn_cons ho]
    exact Inv.mkA ((hb.issueOps _).goto (by simp [hph]) (by simp)) hk (pointA_end rfl (.inl ⟨hq, rfl⟩))

theorem seq_read (h : Inv s) (hk : s.params.backend = .A) (hph : s.seq.phase = .pData)
    (hd : s.desc.dirWrite = false) : seqOutcome s s.seqTurn := by
  have hp := h.pointA hk
  have hb := h.toBase
  have hv := validate_widths (xfer_of_phase hb (by simp [hph]) hk)
  simp only [pointA, hph, hd] at hp
  rcases hp with ⟨hq, ho⟩ | ⟨hq, t, ho⟩ | ⟨ha, ho⟩ | ⟨hg, ho⟩ | ⟨hq, ho⟩ | ⟨hq, ho⟩
  · rw [seqTurn_fetch ho hk (fetchStep_data hph)]
    simp only [hd, Bool.false_eq_true, if_false, exec, execADataR]
    split
    · exact Inv.mkA (hb.issueOps _) hk (pointA_read hph hd (.inr (.inl ⟨hq, _, rfl⟩)))
    · exact Inv.mkA (hb.goto (by simp [hph]) (by simp)) hk (pointA_end rfl (.inl ⟨hq, rfl⟩))
  · rw [seqTurn_cons ho, runOp_setctl hv.2.2.2 rfl]
    exact Inv.mkA ((hb.issueOps _).setCtl _ _ _) hk (pointA_read hph hd (.inr (.inr (.inl ⟨quietA_ask hq, rfl⟩))))
  · exact seqOutcome_wait h ho fun hw => Inv.mkA (hb.issueOps _) hk
      (pointA_read hph hd (.inr (.inr (.inr (.inl ⟨askedA_avail ha hw, rfl⟩)))))
  · obtain ⟨b, hbx⟩ := gotA_pop hg
    rw [seqTurn_cons ho, runOp_pop, hbx]
    exact Inv.mkA ((hb.issueOps _).popRx hbx) hk (pointA_read hph hd (.inr (.inr (.inr (.inr (.inl
      ⟨⟨hg.1, hg.2.1, hg.2.2.1, rfl, hg.2.2.2.1⟩, rfl⟩))))))
  · rw [seqTurn_cons ho]
    exact Inv.mkA ((hb.issueOps _).writeBuf _ _) hk (pointA_read hph hd (.inr (.inr (.inr (.inr (.inr ⟨hq, rfl⟩))))))
  · rw [seqTurn_cons ho]
    exact Inv.mkA (hb.issueOps _).nextIdx hk (pointA_read hph hd (.inl ⟨hq, rfl⟩))

theorem not_asserted_off (h : s.holds .csReleased = true) (hc : s.cs.asserted = false → csOff s) : csOff s :=
  hc (by simpa [State.holds] using h)

theorem asserted_off (h : s.cs.asserted = false) : csOff s := by
  revert h
  unfold csOff
  cases s.cs <;> simp [CsState.asserted]

/-- After `endTransfer` only the buffer, the result registers, the free counter, STATE and SEQ have changed. -/
theorem endTransfer_frame : s.endTransfer.params = s.params ∧ s.endTransfer.a = s.a ∧ s.endTransfer.b = s.b ∧
    s.endTransfer.cs = s.cs ∧ s.endTransfer.seq.phase = .pIdle ∧ s.endTransfer.seq.ops = [] := by
  unfold State.endTransfer State.havocBuf
  simp only
  repeat' split
  all_goals exact ⟨rfl, rfl, rfl, rfl, rfl, rfl⟩

theorem seq_end (h : Inv s) (hk : s.params.backend = .A) (hph : s.seq.phase = .pEnd) :
    seqOutcome s s.seqTurn := by
  have hp := h.pointA hk
  have hb := h.toBase
  simp only [pointA, hph] at hp
  rcases hp with ⟨hq, ho⟩ | ⟨hq, ho⟩ | ⟨hq, ho⟩ | ⟨hr, ho⟩ | ⟨hr, ho⟩ | ⟨hr, ho⟩
  · rw [seqTurn_fetch ho hk (fetchStep_end hph)]
    exact Inv.mkA (hb.issueOps _) hk (pointA_end hph (.inr (.inl ⟨hq, rfl⟩)))
  · exact seqOutcome_wait h ho fun hw => Inv.mkA (hb.issueOps _) hk (pointA_end hph (.inr (.inr (.inl ⟨hq, rfl⟩))))
  · rw [seqTurn_cons ho]
    exact Inv.mkA ((hb.issueOps _).setCont false) hk (pointA_end hph (.inr (.inr (.inr (.inl ⟨⟨hq.2.2, rfl, rfl⟩, rfl⟩)))))
  · refine seqOutcome_wait h ho fun hw => Inv.mkA (hb.issueOps _) hk
      (pointA_end hph (.inr (.inr (.inr (.inr (.inl ⟨⟨?_, hr⟩, rfl⟩))))))
    exact asserted_off (by simpa [State.holds] using hw)
  · rw [seqTurn_cons ho]
    exact Inv.mkA (hb.issueOps _).xferDone hk (pointA_end hph (.inr (.inr (.inr (.inr (.inr ⟨hr, rfl⟩))))))
  · rw [seqTurn_cons ho]
    show seqOutcome s (.next (s.issueOps []).endTransfer)
    obtain ⟨f1, f2, f3, f4, f5, f6⟩ := endTransfer_frame (s := s.issueOps [])
    refine Inv.mkA (Base.endTransfer (hb.issueOps _) (by simp [hph])) (by rw [f1]; exact hk) (pointA_idle f5 ?_ f6)
    unfold restA csOff fifosIdle
    rw [f2, f4]
    exact hr

/-! ### What carries a control point of Backend A from one state to another -/

/-- `t` has SEQ, descriptor and parameters of `s` and stands wherever `s` stands. -/
structure Carries (s t : State) : Prop where
  seq : t.seq = s.seq
  desc : t.desc = s.desc
  params : t.params = s.params
  en : t.a.en = s.a.en
  txLen : t.a.txf.length ≤ s.a.txf.length
  rest : restA s → restA t
  quiet : quietA s → quietA t
  sending : ∀ w, sendingA s w → sendingA t w
  ready : ∀ w, readyA s w → readyA t w
  got : gotA s → gotA t
  asked : ∀ w, askedA s w → askedA t w
  rising : held s ∧ fifosIdle s ∧ (csOff s ∨ csOn s) → held t ∧ fifosIdle t ∧ (csOff t ∨ csOn t)
  released : releasedA s → releasedA t

theorem pointA_carry {t : State} (c : Carries s t) (h : pointA s) : pointA t := by
  unfold pointA at h ⊢
  rw [c.seq]
  split
  all_goals rename_i hph
  all_goals rw [hph] at h
  all_goals simp only at h
  · exact ⟨c.rest h.1, h.2⟩
  · unfold startPoint at h ⊢
    rw [c.seq, c.en]
    exact h.imp (And.imp_left c.rest) (Or.imp
      (fun x => ⟨(c.rising ⟨x.1, x.2.1, x.2.2.1⟩).1, (c.rising ⟨x.1, x.2.1, x.2.2.1⟩).2.1,
        (c.rising ⟨x.1, x.2.1, x.2.2.1⟩).2.2, x.2.2.2⟩) (And.imp_left c.quiet))
  · unfold instrPoint at h ⊢
    rw [c.seq, c.desc]
    exact h.imp (And.imp_left c.quiet) (Or.imp (And.imp_left c.quiet) (Or.imp
      (fun x => ⟨c.quiet x.1, c.ready _ x.2.1, x.2.2⟩)
      (Or.imp (And.imp_left (c.ready _)) (And.imp_left c.quiet))))
  · unfold addrPoint at h ⊢
    rw [c.seq, c.desc]
    exact h.imp (And.imp_left c.quiet) (Or.imp (And.imp_left c.quiet) (Or.imp
      (fun x => ⟨c.ready _ x.1, x.2.imp fun bs y => ⟨Nat.le_trans (Nat.add_le_add_right c.txLen _) y.1, y.2⟩⟩)
      (And.imp_left c.quiet)))
  · unfold dummyPoint at h ⊢
    rw [c.seq]
    exact h.imp (And.imp_left c.quiet) (Or.imp (And.imp_left c.quiet) (Or.imp (And.imp_left (c.asked _))
      (Or.imp (And.imp_left c.got) (And.imp_left c.quiet))))
  · rw [c.desc]
    split
    · rename_i hd
      rw [if_pos hd] at h
      unfold writePoint at h ⊢
      rw [c.seq, c.desc, c.params]
      exact h.imp (And.imp_left c.quiet) (Or.imp (And.imp_right (Or.imp (And.imp_left (c.sending _))
        (Or.imp (And.imp_left (c.ready _)) fun x => ⟨c.ready _ x.1, Nat.lt_of_le_of_lt c.txLen x.2.1, x.2.2⟩)))
        (And.imp_left c.quiet))
    · rename_i hd
      rw [if_neg hd] at h
      unfold readPoint at h ⊢
      rw [c.seq, c.desc]
      exact h.imp (And.imp_left c.quiet) (Or.imp (And.imp_left c.quiet) (Or.imp (And.imp_left (c.asked _))
        (Or.imp (And.imp_left c.got) (Or.imp (And.imp_left c.quiet) (And.imp_left c.quiet)))))
  · unfold endPoint at h ⊢
    rw [c.seq]
    exact h.imp (And.imp_left c.quiet) (Or.imp (And.imp_left c.quiet) (Or.imp (And.imp_left c.quiet)
      (Or.imp (And.imp_left c.released) (Or.imp (And.imp_left c.rest) (And.imp_left c.rest)))))

/-! ### ENGINE's turn on Backend A -/

/-- The shifter at one turn: nothing, a TX frame with receive masked or not, or a receive-only frame. -/
theorem engineA_cases (s : State) : s.engineA = s ∨
    (∃ b rest, s.a.txf = b :: rest ∧ s.shifterOn = true ∧ s.a.tcr.txmsk = false ∧
      (s.a.tcr.rxmsk = true ∨ s.rxRoom = true) ∧ s.engineA = s.txFrame b rest) ∨
    (s.a.txf = [] ∧ s.shifterOn = true ∧ s.a.tcr.txmsk = true ∧ s.rxRoom = true ∧ s.engineA = s.rxFrame) := by
  unfold State.engineA
  by_cases hon : s.shifterOn = true
  · rw [if_neg (by simp [hon])]
    cases ht : s.a.txf with
    | nil =>
      simp only
      split
      · rename_i hc
        simp at hc
        exact .inr (.inr ⟨trivial, hon, hc.1, hc.2, rfl⟩)
      · exact .inl rfl
    | cons b rest =>
      simp only
      split
      · rename_i hc
        simp at hc
        exact .inr (.inl ⟨b, rest, rfl, hon, hc.1, hc.2, rfl⟩)
      · exact .inl rfl
  · rw [if_pos (by simp [hon])]
    exact .inl rfl

theorem txFrame_masked {b : Byte} {rest : List Byte} (hr : s.a.tcr.rxmsk = true) :
    s.txFrame b rest = ({ s with a := { s.a with txf := rest } }.emit (.out s.a.tcr.width b)).frameDone := by
  unfold State.txFrame
  simp only [hr, if_true]

theorem rxFrame_eq (s : State) : ∃ b t n, s.rxFrame =
    { s with a := { s.a with tcr := { s.a.tcr with txmsk := false }, rxf := s.a.rxf ++ [b],
                             sr := { s.a.sr with frameDone := true } },
             trace := t, env := { s.env with free := n } } := by
  unfold State.rxFrame State.rxSample
  simp only
  split
  · exact ⟨_, _, _, rfl⟩
  · exact ⟨_, _, _, rfl⟩

theorem Base.txFrame (h : Base s) {b : Byte} {rest : List Byte} (ht : s.a.txf = b :: rest)
    (hr : s.a.tcr.rxmsk = true ∨ s.rxRoom = true) : Base (s.txFrame b rest) := by
  unfold State.txFrame
  simp only
  split
  · exact ((h.setTxf ht).emit _).frameDone
  · rename_i hn
    refine Base.frameDone (Base.pushRx (Base.takeFree ((h.setTxf ht).emit _)) _ ?_)
    simpa [State.rxRoom] using hr.resolve_left hn

theorem Base.rxFrame (h : Base s) (hr : s.rxRoom = true) : Base s.rxFrame := by
  have hl : s.a.rxf.length < s.params.rxDepth := by simpa [State.rxRoom] using hr
  unfold State.rxFrame State.rxSample
  simp only
  split
  · exact (Base.setTxmsk ((h.takeFree.pushRx _ hl).emit _) false).frameDone
  · exact (Base.setTxmsk ((h.takeFree.pushRx _ hl).emit _) false).frameDone

theorem Base.engineA (h : Base s) : Base s.engineA := by
  rcases engineA_cases s with e | ⟨b, rest, ht, _, _, hr, e⟩ | ⟨_, _, _, hr, e⟩
  · rw [e]; exact h
  · rw [e]; exact h.txFrame ht hr
  · rw [e]; exact h.rxFrame hr

theorem Carries.refl (s : State) : Carries s s :=
  ⟨rfl, rfl, rfl, rfl, Nat.le_refl _, id, id, fun _ => id, fun _ => id, id, fun _ => id, id, id⟩

/-- From a control point a TX frame has receive masked: nothing else is ever queued. -/
theorem pointA_masked (h : pointA s) (ht : s.a.txf ≠ []) : s.a.tcr.rxmsk = true := by
  have hq : quietA s → s.a.tcr.rxmsk = true := fun q => absurd q.2.2.1 ht
  have hf : fifosIdle s → s.a.tcr.rxmsk = true := fun q => absurd q.1 ht
  have hs : ∀ w, sendingA s w → s.a.tcr.rxmsk = true := fun w q => (q.2.2.2.2 ht).2
  have hr : ∀ w, readyA s w → s.a.tcr.rxmsk = true := fun w q => q.2.2
  have hg : gotA s → s.a.tcr.rxmsk = true := fun q => absurd q.2.2.1 ht
  have ha : ∀ w, askedA s w → s.a.tcr.rxmsk = true := fun w q => absurd q.2.2.1 ht
  unfold pointA at h
  split at h
  · exact hf h.1.2.1
  · rcases h with h | h | h
    · exact hf h.1.2.1
    · exact hf h.2.1
    · exact hq h.1
  · rcases h with h | h | h | h | h
    exacts [hq h.1, hq h.1, hq h.1, hr _ h.1, hq h.1]
  · rcases h with h | h | h | h
    exacts [hq h.1, hq h.1, hr _ h.1, hq h.1]
  · rcases h with h | h | h | h | h
    exacts [hq h.1, hq h.1, ha _ h.1, hg h.1, hq h.1]
  · split at h
    · rcases h with h | ⟨-, h | h | h⟩ | h
      exacts [hq h.1, hs _ h.1, hr _ h.1, hr _ h.1, hq h.1]
    · rcases h with h | h | h | h | h | h
      exacts [hq h.1, hq h.1, ha _ h.1, hg h.1, hq h.1, hq h.1]
  · rcases h with h | h | h | h | h | h
    exacts [hq h.1, hq h.1, hq h.1, hf h.1.1, hf h.1.2.1, hf h.1.2.1]

theorem engineA_inv (h : Inv s) (hk : s.params.backend = .A) : Inv s.engineA := by
  have hp := h.pointA hk
  have hb := h.toBase.engineA
  rcases engineA_cases s with e | ⟨b, rest, ht, hon, hm, hr, e⟩ | ⟨ht, hon, hm, hr, e⟩
  · rw [e]; exact h
  · have hx := pointA_masked hp (by simp [ht])
    rw [txFrame_masked hx] at e
    rw [e] at hb ⊢
    refine Inv.mkA hb hk (pointA_carry (s := s) ⟨rfl, rfl, rfl, rfl, ?_, ?_, ?_, ?_, ?_, ?_, ?_, ?_, ?_⟩ hp)
    · simp [ht]
    · exact fun q => absurd q.2.1.1 (by simp [ht])
    · exact fun q => absurd q.2.2.1 (by simp [ht])
    · exact fun w q => ⟨q.1, q.2.1, q.2.2.1, q.2.2.2.1, fun _ => q.2.2.2.2 (by simp [ht])⟩
    · exact fun w q => ⟨⟨q.1.1, q.1.2.1, q.1.2.2.1, q.1.2.2.2.1, fun _ => q.2⟩, q.2⟩
    · exact fun q => absurd q.2.2.1 (by simp [ht])
    · exact fun w q => absurd q.2.2.1 (by simp [ht])
    · exact fun q => absurd q.2.1.1 (by simp [ht])
    · exact fun q => absurd q.1.1 (by simp [ht])
  · obtain ⟨b, t, n, e'⟩ := rxFrame_eq s
    rw [e'] at e
    rw [e] at hb ⊢
    refine Inv.mkA hb hk (pointA_carry (s := s) ⟨rfl, rfl, rfl, rfl, Nat.le_refl _, ?_, ?_, ?_, ?_, ?_, ?_, ?_, ?_⟩ hp)
    · exact fun q => absurd q.2.1.2.2 (by simp [hm])
    · exact fun q => absurd q.2.2.2.2 (by simp [hm])
    · exact fun w q => absurd q.2.2.2.1 (by simp [hm])
    · exact fun w q => absurd q.1.2.2.2.1 (by simp [hm])
    · exact fun q => absurd q.2.2.2.1 (by simp [hm])
    · intro w q
      refine ⟨q.1, q.2.1, q.2.2.1, .inr ⟨rfl, ?_⟩⟩
      rcases q.2.2.2 with ⟨_, _, hrx⟩ | ⟨hn, _⟩
      · simp [hrx]
      · simp [hm] at hn
    · exact fun q => absurd q.2.1.2.2 (by simp [hm])
    · exact fun q => absurd q.1.2.2 (by simp [hm])

/-! ### The chip-select machine's turn -/

/-- One transition changes `CS_STATE` and the trace; the request keeps chip-select asserted, and without a
request it stays deasserted (R256). -/
theorem csTurn_cases (s : State) : ∃ c t, s.csTurn = { s with cs := c, trace := t } ∧
    (s.csReq = true → csOn s → c = .setup ∨ c = .active) ∧
    (s.csReq = false → csOff s → c = .idle ∨ c = .interval) ∧
    (s.csReq = true → csOff s → (c = .idle ∨ c = .interval) ∨ c = .setup ∨ c = .active) := by
  unfold State.csTurn csOn csOff
  cases hc : s.cs with
  | idle =>
    rcases State.csRise_cases s with ⟨hr, hi, e⟩ | ⟨hr, e⟩
    · exact ⟨.setup, _, e, by simp [hr]⟩
    · exact ⟨.idle, s.trace, by simp only; rw [e]; cases s; cases hc; rfl, by simp⟩
  | setup => exact ⟨_, _, rfl, by simp⟩
  | active =>
    by_cases hr : s.csReq = true
    · exact ⟨.active, s.trace, by simp [hr, ← hc], by simp⟩
    · exact ⟨.hold, s.trace, by simp [hr], by simp [hr]⟩
  | hold => exact ⟨.interval, _, rfl, by simp⟩
  | interval => exact ⟨.idle, _, rfl, by simp⟩

theorem Base.csTurn (h : Base s) : Base s.csTurn := by
  unfold State.csTurn
  split
  · exact h.csRise
  · exact h.setCs _
  · split
    · exact h
    · exact h.setCs _
  · exact (h.emit _).setCs _
  · exact h.setCs _

theorem held_csReq (hk : s.params.backend = .A) (h : held s) : s.csReq = true := by
  simp [State.csReq, hk, h.1, h.2.1, h.2.2]

theorem rest_csReq (hk : s.params.backend = .A) (h : s.a.tcr.cont = false) : s.csReq = false := by
  simp [State.csReq, hk, h]

theorem csTurn_invA (h : Inv s) (hk : s.params.backend = .A) : Inv s.csTurn := by
  have hp := h.pointA hk
  have hb := h.toBase.csTurn
  obtain ⟨c, t, e, hon, hoff, hup⟩ := csTurn_cases s
  rw [e] at hb ⊢
  refine Inv.mkA hb hk (pointA_carry (s := s) ⟨rfl, rfl, rfl, rfl, Nat.le_refl _, ?_, ?_, ?_, ?_, ?_, ?_, ?_, ?_⟩ hp)
  · exact fun q => ⟨hoff (rest_csReq hk q.2.2.1) q.1, q.2⟩
  · exact fun q => ⟨q.1, hon (held_csReq hk q.1) q.2.1, q.2.2⟩
  · exact fun w q => ⟨q.1, hon (held_csReq hk q.1) q.2.1, q.2.2⟩
  · exact fun w q => ⟨⟨q.1.1, hon (held_csReq hk q.1.1) q.1.2.1, q.1.2.2⟩, q.2⟩
  · exact fun q => ⟨q.1, hon (held_csReq hk q.1) q.2.1, q.2.2⟩
  · exact fun w q => ⟨q.1, hon (held_csReq hk q.1) q.2.1, q.2.2⟩
  · exact fun q => ⟨q.1, q.2.1, q.2.2.elim (hup (held_csReq hk q.1)) fun o => .inr (hon (held_csReq hk q.1) o)⟩
  · exact id

theorem csTurn_invB (h : Inv s) (hk : s.params.backend = .B) : Inv s.csTurn := by
  have hp := h.pointB hk
  have hb := h.toBase.csTurn
  have hreq : s.csReq = s.b.sts.busy := by simp [State.csReq, hk]
  obtain ⟨c, t, e, hon, hoff, hup⟩ := csTurn_cases s
  rw [hreq] at hon hoff hup
  rw [e] at hb ⊢
  refine Inv.mkB hb hk ?_
  have hrest : restB s → restB { s with cs := c, trace := t } := fun q => ⟨hoff q.2 q.1, q.2⟩
  have hissued : issuedB s → issuedB { s with cs := c, trace := t } := fun q => q.imp
    (fun x => ⟨x.1, x.2.1, x.2.2.1, x.2.2.2.1, x.2.2.2.2.elim (hup x.1) fun o => .inr (hon x.1 o)⟩) id
  have hended : endedB s → endedB { s with cs := c, trace := t } := id
  unfold pointB at hp ⊢
  simp only
  split
  all_goals rename_i hph
  all_goals rw [hph] at hp
  all_goals simp only at hp
  · exact ⟨hrest hp.1, hp.2⟩
  · exact hp.imp (And.imp_left hrest) (And.imp_left hissued)
  · exact hp.imp (And.imp_left hissued) (And.imp_left hended)
  · exact hp.imp (And.imp_left hended) (And.imp_left hrest)

end Sys2Proof.Machine
end

