-- ==== Sys2Proof/Laws/InvariantB.lean ====
section
/-! SUPPORT. The control points of Backend B under each agent's turn, the host's turns, reset and the inputs,
on both backends. -/

namespace Sys2Proof.Machine

variable {s : State}

/-! ## The table engine -/

/-- What a table opcode may do: the sequence ends, the slot is kept, or it moves on by one. -/
structure LutStep (s t : State) : Prop where
  params : t.params = s.params
  host : t.host = s.host
  desc : t.desc = s.desc
  seq : t.seq = s.seq
  a : t.a = s.a
  cs : t.cs = s.cs
  lut : t.b.lut = s.b.lut
  ipSeq : t.b.ipSeq = s.b.ipSeq
  sts : t.b.sts = s.b.sts ∨ (t.b.sts.busy = false ∧ t.b.sts.done = true)
  slot : t.b.slot = s.b.slot ∨ t.b.slot = s.b.slot + 1

theorem LutStep.finish (f : Bool) : LutStep s (s.finish f) :=
  ⟨rfl, rfl, rfl, rfl, rfl, rfl, rfl, rfl, .inr ⟨rfl, rfl⟩, .inl rfl⟩

theorem LutStep.advanceSlot : LutStep s s.advanceSlot :=
  ⟨rfl, rfl, rfl, rfl, rfl, rfl, rfl, rfl, .inl rfl, .inr rfl⟩

theorem LutStep.dataAdvance : LutStep s s.dataAdvance := by
  unfold State.dataAdvance
  split
  · exact .advanceSlot
  · exact ⟨rfl, rfl, rfl, rfl, rfl, rfl, rfl, rfl, .inl rfl, .inl rfl⟩

/-- What stands before the opcode moved the trace, the buffer or the free counter only. -/
theorem LutStep.before {u t : State} (h : LutStep u t) (h1 : u.params = s.params) (h2 : u.host = s.host)
    (h3 : u.desc = s.desc) (h4 : u.seq = s.seq) (h5 : u.a = s.a) (h6 : u.cs = s.cs) (h7 : u.b = s.b) :
    LutStep s t :=
  ⟨h.params.trans h1, h.host.trans h2, h.desc.trans h3, h.seq.trans h4, h.a.trans h5, h.cs.trans h6,
    h7 ▸ h.lut, h7 ▸ h.ipSeq, h7 ▸ h.sts, h7 ▸ h.slot⟩

/-- Every table opcode answers a next state, and a `LutStep` (R205 to R212). -/
theorem exec_lut {i : Instr} (h : (encode i).space = .lut) (hb : Base s) :
    ∃ t, exec i s = .next t ∧ Base t ∧ LutStep s t := by
  cases i with
  | stop => exact ⟨_, rfl, hb.finish _, .finish _⟩
  | cmd w b => exact ⟨_, rfl, (hb.emit _).advanceSlot, LutStep.advanceSlot.before rfl rfl rfl rfl rfl rfl rfl⟩
  | raddr w n =>
    simp only [exec, execRaddr]
    split
    · refine ⟨_, rfl, (hb.emitAll _).advanceSlot, ?_⟩
      rw [State.emitAll_eq]
      exact LutStep.advanceSlot.before rfl rfl rfl rfl rfl rfl rfl
    · exact ⟨_, rfl, hb.finish _, .finish _⟩
  | mode8 w m => exact ⟨_, rfl, (hb.emit _).advanceSlot, LutStep.advanceSlot.before rfl rfl rfl rfl rfl rfl rfl⟩
  | write w x =>
    simp only [exec, execWrite]
    split
    · exact ⟨_, rfl, hb.finish _, .finish _⟩
    · split
      · exact ⟨_, rfl, (hb.emit _).dataAdvance, LutStep.dataAdvance.before rfl rfl rfl rfl rfl rfl rfl⟩
      · exact ⟨_, rfl, hb.advanceSlot, .advanceSlot⟩
  | read w x =>
    simp only [exec, execRead]
    split
    · exact ⟨_, rfl, hb.finish _, .finish _⟩
    · split
      · exact ⟨_, rfl, Base.dataAdvance ((hb.takeFree.emit _).writeBuf _ _),
          LutStep.dataAdvance.before rfl rfl rfl rfl rfl rfl rfl⟩
      · exact ⟨_, rfl, hb.advanceSlot, .advanceSlot⟩
  | dummy w c => exact ⟨_, rfl, (hb.emit _).advanceSlot, LutStep.advanceSlot.before rfl rfl rfl rfl rfl rfl rfl⟩
  | configure => simp [encode] at h
  | transfer => simp [encode] at h
  | flush e => simp [encode] at h
  | clrflags => simp [encode] at h
  | enable => simp [encode] at h
  | setctl p a c d r t w => simp [encode] at h
  | push d => simp [encode] at h
  | pop d => simp [encode] at h
  | aStart => simp [encode] at h
  | aInstr => simp [encode] at h
  | aAddr => simp [encode] at h
  | aDummy => simp [encode] at h
  | aDataW => simp [encode] at h
  | aDataR => simp [encode] at h
  | aEnd => simp [encode] at h

theorem decode_lut_half (h : Half) : decode ⟨.lut, h.setWidth 32⟩ = decodeHalf h := by
  have h1 : (h.setWidth 32).extractLsb' 16 16 = 0 := by
    apply BitVec.eq_of_toNat_eq
    have := h.isLt
    simp [BitVec.extractLsb'_toNat, Nat.shiftRight_eq_div_pow]
    omega
  have h2 : lowHalf (h.setWidth 32) = h := by
    apply BitVec.eq_of_toNat_eq
    have := h.isLt
    simp [lowHalf, BitVec.extractLsb'_toNat]
    omega
  simp only [decode, h1, if_true, h2]

/-- From sequence 1 every slot below 8 has its table word (R43, R204). -/
theorem fetchHalf_some (hi : s.b.ipSeq = 1) (hs : s.b.slot.toNat < 8) : ∃ h, s.fetchHalf = some h := by
  unfold State.fetchHalf
  rw [hi]
  have : ∃ w, s.b.lut.get (4 * (1 : BitVec 4).toNat + s.b.slot.toNat / 2) = some w := by
    have hc : s.b.slot.toNat / 2 = 0 ∨ s.b.slot.toNat / 2 = 1 ∨ s.b.slot.toNat / 2 = 2 ∨
        s.b.slot.toNat / 2 = 3 := by omega
    rcases hc with h | h | h | h <;> exact ⟨_, by rw [h]; rfl⟩
  obtain ⟨w, hw⟩ := this
  exact ⟨_, by rw [hw]; rfl⟩

/-- ENGINE's turn on Backend B: idle, or running a table opcode below slot 8, or ended. -/
theorem engineB_outcome (hb : Base s) (hi : s.b.sts.busy = true → s.b.ipSeq = 1) :
    ∃ t, s.engineB = .next t ∧ Base t ∧
      (t = s ∨ (s.b.sts.busy = true ∧ LutStep s t ∧
        (t.b.slot = s.b.slot ∨ s.b.slot.toNat < 8 ∨ (t.b.sts.busy = false ∧ t.b.sts.done = true)))) := by
  unfold State.engineB
  split
  · exact ⟨s, rfl, hb, .inl rfl⟩
  · rename_i hon
    have hbusy : s.b.sts.busy = true := by
      simp [State.tableOn] at hon; exact hon.1.1
    have hfin : ∀ f, ∃ t, (Host.Outcome.next (s.finish f) : Host.Outcome State Fault Refusal) = .next t ∧ Base t ∧
        (t = s ∨ (s.b.sts.busy = true ∧ LutStep s t ∧
          (t.b.slot = s.b.slot ∨ s.b.slot.toNat < 8 ∨ (t.b.sts.busy = false ∧ t.b.sts.done = true)))) :=
      fun f => ⟨_, rfl, hb.finish f, .inr ⟨hbusy, .finish f, .inl rfl⟩⟩
    split
    · exact hfin true
    · split
      · exact hfin false
      · rename_i hslot
        obtain ⟨h, hh⟩ := fetchHalf_some (hi hbusy) (by omega : s.b.slot.toNat < 8)
        rw [hh]
        simp only
        rw [decode_lut_half]
        split
        · exact hfin true
        · rename_i i hd
          obtain ⟨t, he, hbt, hl⟩ := exec_lut (decodeHalf_isLut hd) hb
          exact ⟨t, he, hbt, .inr ⟨hbusy, hl, .inr (.inl (by omega))⟩⟩

theorem engineB_inv (h : Inv s) (hk : s.params.backend = .B) : ∃ t, s.engineB = .next t ∧ Inv t := by
  have hp := h.pointB hk
  have hpi := hp
  have hiss : s.b.sts.busy = true → issuedB s := by
    intro hbusy
    have hr : restB s → issuedB s := fun q => absurd q.2 (by simp [hbusy])
    have he : endedB s → issuedB s := fun q => absurd q.1 (by simp [hbusy])
    unfold pointB at hp
    split at hp
    · exact hr hp.1
    · exact hp.elim (fun x => hr x.1) And.left
    · exact hp.elim
    · exact hp.elim
    · exact hp.elim
    · exact hp.elim And.left fun x => he x.1
    · exact hp.elim (fun x => he x.1) fun x => hr x.1
  obtain ⟨t, e, hbt, hc⟩ := engineB_outcome h.toBase fun hb => by
    rcases hiss hb with x | x
    · exact x.2.2.1
    · simp [hb] at x
  refine ⟨t, e, ?_⟩
  rcases hc with rfl | ⟨hbusy, hl, hslot⟩
  · exact h
  refine Inv.mkB hbt (by rw [hl.params]; exact hk) ?_
  have hq := (hiss hbusy).resolve_right (by simp [hbusy])
  have ht : issuedB t := by
    rcases hl.sts with hs | hs
    · refine .inl ⟨by rw [hs]; exact hbusy, by rw [hs]; exact hq.2.1, by rw [hl.ipSeq]; exact hq.2.2.1, ?_, ?_⟩
      · rcases hl.slot with e1 | e1
        · rw [e1]; exact hq.2.2.2.1
        · rcases hslot with e2 | e2 | e2
          · rw [e2]; exact hq.2.2.2.1
          · rw [e1, BitVec.toNat_add]
            simp
            omega
          · rw [hs] at e2; simp [hbusy] at e2
      · unfold csOff csOn
        rw [hl.cs]
        exact hq.2.2.2.2
    · exact .inr hs
  have hno : ¬ restB s := fun q => by simp [q.2] at hbusy
  have hne : ¬ endedB s := fun q => by simp [q.1] at hbusy
  unfold pointB at hp ⊢
  rw [hl.seq]
  split
  all_goals rename_i hph
  all_goals rw [hph] at hp
  all_goals simp only at hp
  · exact absurd hp.1 hno
  · exact .inr ⟨ht, (hp.resolve_left fun x => hno x.1).2⟩
  · exact .inl ⟨ht, (hp.resolve_right fun x => hne x.1).2⟩
  · exact (hp.elim (fun x => hne x.1) fun x => hno x.1).elim

/-! ## SEQ's turn on Backend B -/

theorem pointB_start {t : State} (h : t.seq.phase = .pStart)
    (p : (restB t ∧ (t.seq.ops = [] ∨ (∃ p0 p1 p2 p3, t.seq.ops = [.load p0 p1 p2 p3, .issue, .goto .pData]) ∨
      t.seq.ops = [.issue, .goto .pData])) ∨ (issuedB t ∧ t.seq.ops = [.goto .pData])) : pointB t := by
  simpa only [pointB, h]

theorem pointB_data {t : State} (h : t.seq.phase = .pData)
    (p : (issuedB t ∧ (t.seq.ops = [] ∨ t.seq.ops = [.wait .done, .goto .pEnd])) ∨
      (endedB t ∧ t.seq.ops = [.goto .pEnd])) : pointB t := by
  simpa only [pointB, h]

theorem pointB_end {t : State} (h : t.seq.phase = .pEnd)
    (p : (endedB t ∧ (t.seq.ops = [] ∨ t.seq.ops = [.wait .csReleased, .result])) ∨
      (restB t ∧ t.seq.ops = [.result])) : pointB t := by
  simpa only [pointB, h]

theorem pointB_idle {t : State} (h : t.seq.phase = .pIdle) (p : restB t) (ho : t.seq.ops = []) : pointB t := by
  simp only [pointB, h]; exact ⟨p, ho⟩

theorem seqTurn_nilB (ho : s.seq.ops = []) (hk : s.params.backend = .B) : s.seqTurn = .next s.seqB := by
  unfold State.seqTurn
  rw [ho]
  simp only [hk]

theorem issueRequest_eq (s : State) : ∃ c t, s.issueRequest = { s with
      b := { s.b with ipAddr := s.desc.issueAddr, ipXtype := s.desc.issueXtype, ipSeq := 1,
                      ipLen := s.desc.issueLen, sts := { done := false, fail := false, busy := true },
                      slot := 0, bidx := 0 }
      cs := c, trace := t } ∧ (csOff s → (c = .idle ∨ c = .interval) ∨ c = .setup ∨ c = .active) := by
  unfold State.issueRequest
  rcases State.csRise_cases ({ s with b := { s.b with
      ipAddr := s.desc.issueAddr, ipXtype := s.desc.issueXtype, ipSeq := 1, ipLen := s.desc.issueLen
      sts := { done := false, fail := false, busy := true }, slot := 0, bidx := 0 } }) with ⟨_, _, e⟩ | ⟨_, e⟩
  · exact ⟨_, _, e, fun _ => .inr (.inl rfl)⟩
  · exact ⟨_, _, e, fun h => .inl h⟩

theorem seq_invB (h : Inv s) (hk : s.params.backend = .B) (hph : s.seq.phase ≠ .pIdle) :
    ∃ t, s.seqTurn = .next t ∧ Inv t := by
  have hp := h.pointB hk
  have hb := h.toBase
  unfold pointB at hp
  split at hp
  · rename_i e; exact absurd e hph
  · rename_i hs
    rcases hp with ⟨hr, ho | ⟨p0, p1, p2, p3, ho⟩ | ho⟩ | ⟨hi, ho⟩
    · refine ⟨_, seqTurn_nilB ho hk, ?_⟩
      unfold State.seqB
      rw [hs]
      exact Inv.mkB (hb.issueOps _) hk (pointB_start hs (.inl ⟨hr, .inr (.inl ⟨_, _, _, _, rfl⟩)⟩))
    · refine ⟨_, seqTurn_cons ho, ?_⟩
      exact Inv.mkB ((hb.issueOps _).load p0 p1 p2 p3) hk (pointB_start hs (.inl ⟨hr, .inr (.inr rfl)⟩))
    · refine ⟨_, seqTurn_cons ho, ?_⟩
      have hbi := (hb.issueOps [.goto .pData]).issueRequest
      obtain ⟨c, t, e, hc⟩ := issueRequest_eq (s.issueOps [.goto .pData])
      show Inv (s.issueOps [.goto .pData]).issueRequest
      rw [e] at hbi ⊢
      exact Inv.mkB hbi hk (pointB_start hs (.inr ⟨.inl ⟨rfl, rfl, rfl, Nat.zero_le _, hc hr.1⟩, rfl⟩))
    · refine ⟨_, seqTurn_cons ho, ?_⟩
      exact Inv.mkB ((hb.issueOps _).goto hph (by simp)) hk (pointB_data rfl (.inl ⟨hi, .inl rfl⟩))
  · exact hp.elim
  · exact hp.elim
  · exact hp.elim
  · rename_i hs
    rcases hp with ⟨hi, ho | ho⟩ | ⟨he, ho⟩
    · refine ⟨_, seqTurn_nilB ho hk, ?_⟩
      unfold State.seqB
      rw [hs]
      exact Inv.mkB (hb.issueOps _) hk (pointB_data hs (.inl ⟨hi, .inr rfl⟩))
    · rw [seqTurn_cons ho, runOp_wait]
      refine ⟨_, rfl, ?_⟩
      split
      · rename_i hw
        have hd : s.b.sts.done = true := hw
        exact Inv.mkB (hb.issueOps _) hk (pointB_data hs (.inr ⟨hi.resolve_left (by simp [hd]), rfl⟩))
      · exact h
    · refine ⟨_, seqTurn_cons ho, ?_⟩
      exact Inv.mkB ((hb.issueOps _).goto hph (by simp)) hk (pointB_end rfl (.inl ⟨he, .inl rfl⟩))
  · rename_i hs
    rcases hp with ⟨he, ho | ho⟩ | ⟨hr, ho⟩
    · refine ⟨_, seqTurn_nilB ho hk, ?_⟩
      unfold State.seqB
      rw [hs]
      exact Inv.mkB (hb.issueOps _) hk (pointB_end hs (.inl ⟨he, .inr rfl⟩))
    · rw [seqTurn_cons ho, runOp_wait]
      refine ⟨_, rfl, ?_⟩
      split
      · rename_i hw
        exact Inv.mkB (hb.issueOps _) hk (pointB_end hs (.inr
          ⟨⟨asserted_off (by simpa [State.holds] using hw), he.1⟩, rfl⟩))
      · exact h
    · refine ⟨_, seqTurn_cons ho, ?_⟩
      show Inv (s.issueOps []).endTransfer
      obtain ⟨f1, f2, f3, f4, f5, f6⟩ := endTransfer_frame (s := s.issueOps [])
      refine Inv.mkB (Base.endTransfer (hb.issueOps _) hph) (by rw [f1]; exact hk) (pointB_idle f5 ?_ f6)
      unfold restB csOff
      rw [f3, f4]
      exact hr

/-! ## SEQ's turn between transfers -/

theorem fetchStep_idle (h : s.seq.phase = .pIdle) : s.fetchStep = .error .noStep := by
  unfold State.fetchStep; rw [h]; generalize s.desc.dirWrite = d; revert d; decide

theorem Inv.idle_ops (h : Inv s) (hph : s.seq.phase = .pIdle) : s.seq.ops = [] := by
  have hp := h.point
  split at hp
  · simp only [Machine.pointA, hph] at hp; exact hp.2
  · simp only [Machine.pointB, hph] at hp; exact hp.2

/-- "When idle, no step" (R25). -/
theorem seqTurn_idle (h : Inv s) (hph : s.seq.phase = .pIdle) : s.seqTurn = .next s := by
  unfold State.seqTurn
  rw [h.idle_ops hph]
  simp only
  split
  · unfold State.seqB; rw [hph]
  · rw [fetchStep_idle hph]

/-! ## The host's turns -/

theorem Inv.idle_phase (h : Inv s) (hx : s.host.st ≠ .xfer) : s.seq.phase = .pIdle := by
  by_cases hp : s.seq.phase = .pIdle
  · exact hp
  · exact absurd (h.running.2 hp) hx

/-- A change between transfers that leaves SEQ, the backend's request and chip-select alone. -/
theorem Inv.between {t : State} (h : Inv s) (hx : s.host.st ≠ .xfer) (hb : Base t) (hp : t.params = s.params)
    (hs : t.seq = s.seq) (hc : t.cs = s.cs) (htx : t.a.txf = s.a.txf) (hrx : t.a.rxf = s.a.rxf)
    (hm : t.a.tcr.txmsk = s.a.tcr.txmsk) (h1 : t.a.tcr.cont = s.a.tcr.cont) (h2 : t.a.tcr.contc = s.a.tcr.contc)
    (hy : t.b.sts = s.b.sts) : Inv t := by
  have hph := h.idle_phase hx
  have ho := h.idle_ops hph
  refine ⟨hb, ?_⟩
  have hpt := h.point
  rw [hp]
  split
  all_goals rename_i hk
  all_goals rw [hk] at hpt
  · refine pointA_idle (by rw [hs]; exact hph) ?_ (by rw [hs]; exact ho)
    simp only [Machine.pointA, hph] at hpt
    unfold restA csOff fifosIdle
    rw [hc, htx, hrx, hm, h1, h2]
    exact hpt.1
  · refine pointB_idle (by rw [hs]; exact hph) ?_ (by rw [hs]; exact ho)
    simp only [Machine.pointB, hph] at hpt
    unfold restB csOff
    rw [hc, hy]
    exact hpt.1

theorem Inv.raise (h : Inv s) (hx : s.host.st ≠ .xfer) (e : ErrorKind) : Inv (s.raise e) :=
  h.between hx (h.toBase.raise e) rfl rfl rfl rfl rfl rfl rfl rfl rfl

theorem Inv.resultOk (h : Inv s) (hx : s.host.st ≠ .xfer) (n : BitVec 32) : Inv (s.resultOk n) :=
  h.between hx (h.toBase.resultOk n) rfl rfl rfl rfl rfl rfl rfl rfl rfl

/-- CONFIGURE keeps the invariant wherever it is not refused (R130 to R132). -/
theorem configure_inv (h : Inv s) (hx : s.host.st ≠ .xfer) : ∃ t, execConfigure s = .next t ∧ Inv t := by
  have hb := h.toBase
  have hrun : ∀ p, s.seq.phase = p → (RunState.idle = .xfer ↔ p ≠ .pIdle) := by
    intro p hp
    simp [← hp, h.idle_phase hx]
  unfold execConfigure
  rw [if_neg hx]
  by_cases hc : s.host.configured = true
  · rw [if_pos hc]
    exact ⟨_, rfl, h.resultOk hx 0⟩
  · rw [if_neg hc]
    have hu : s.host.st = .uninit := by
      by_cases hu : s.host.st = .uninit
      · exact hu
      · exact absurd (hb.latch.2 hu) hc
    split
    · refine ⟨_, rfl, ?_⟩
      cases hk : s.params.backend with
      | A =>
        unfold State.havocConfig
        simp only [hk]
        refine h.between hx (Base.raise ?_ _) rfl rfl rfl rfl rfl rfl rfl rfl rfl
        exact ⟨h.params, h.latch, h.running, h.valid, h.txBound, h.rxBound, h.frame, h.shifter,
          fun hB => by simp [hk] at hB, h.buf, h.scratch, h.trace⟩
      | B =>
        unfold State.havocConfig
        simp only [hk]
        refine h.between hx (Base.raise ?_ _) rfl rfl rfl rfl rfl rfl rfl rfl rfl
        exact ⟨h.params, h.latch, h.running, h.valid, h.txBound, h.rxBound, h.frame, h.shifter,
          fun _ hC => absurd hC hc, h.buf, h.scratch, h.trace⟩
    · refine ⟨_, rfl, ?_⟩
      unfold State.applyConfig
      cases hk : s.params.backend with
      | A =>
        refine h.between hx (Base.resultOk ?_ _) rfl rfl rfl rfl rfl rfl rfl rfl rfl
        exact ⟨h.params, by simp, hrun _ rfl, by simp, h.txBound, h.rxBound, ⟨rfl, rfl⟩, h.shifter,
          fun hB => by simp [State.applyConfigA, hk] at hB, h.buf, h.scratch, h.trace⟩
      | B =>
        refine h.between hx (Base.resultOk ?_ _) rfl rfl rfl rfl rfl rfl rfl rfl rfl
        exact ⟨h.params, by simp, hrun _ rfl, by simp, h.txBound, h.rxBound, h.frame, h.shifter,
          fun _ _ => ⟨rfl, rfl, rfl, rfl⟩, h.buf, h.scratch, h.trace⟩

/-- An accepted descriptor has passed every check of R134. -/
theorem verdict_accepted {d : Desc} {k : Backend} (h : d.verdict k = .accepted) : d.validate k = none := by
  unfold Desc.verdict at h
  unfold Desc.validate
  split at h
  · cases h
  · split at h
    · cases h
    · split at h
      · cases h
      · split at h
        · cases h
        · split at h
          · cases h
          · split at h
            · cases h
            · assumption

/-- TRANSFER keeps the invariant where it answers a next state, and otherwise meets an unwritten descriptor
register (R133, R23). -/
theorem transfer_inv (h : Inv s) (hx : s.host.st ≠ .xfer) :
    (∃ t, execTransfer s = .next t ∧ Inv t) ∨ execTransfer s = .fault .unwrittenDescriptor := by
  have hph := h.idle_phase hx
  unfold execTransfer
  split
  · rename_i he; exact absurd he hx
  · exact .inl ⟨_, rfl, h.raise hx _⟩
  · rename_i hi
    split
    · exact .inr rfl
    · exact .inl ⟨_, rfl, h.raise hx _⟩
    · rename_i hv
      refine .inl ⟨_, rfl, ?_⟩
      have hb : Base ((s.setRun .xfer).goto .pStart) := by
        refine ⟨h.params, ?_, ?_, fun _ => verdict_accepted hv, h.txBound, h.rxBound, h.frame, h.shifter, h.boot,
          h.buf, h.scratch, h.trace⟩
        · simp [h.toBase.latch.2 (by simp [hi])]
        · simp
      have hpt := h.point
      refine ⟨hb, ?_⟩
      show match s.params.backend with | .A => _ | .B => _
      split
      all_goals rename_i hk
      all_goals rw [hk] at hpt
      · simp only [Machine.pointA, hph] at hpt
        exact pointA_start rfl (.inl ⟨hpt.1, .inl rfl⟩)
      · simp only [Machine.pointB, hph] at hpt
        exact pointB_start rfl (.inl ⟨hpt.1, .inl rfl⟩)

theorem decodeCmd_cases {v : Word} {i : Instr} (h : decode ⟨.cmd, v⟩ = .ok i) : i = .configure ∨ i = .transfer := by
  simp only [decode, decodeCmd] at h
  repeat' split at h
  all_goals cases h
  · exact .inl rfl
  · exact .inr rfl

/-- What a turn of the host may do from the invariant: keep it, be refused, or find an unwritten descriptor
register. -/
def hostOutcome : Host.Outcome State Fault Refusal → Prop
  | .next t => Inv t
  | .fault f => f = .unwrittenDescriptor
  | .refused r => r = .commandDuringTransfer ∨ r = .unknownCommand ∨ r = .hostBlocked ∨ r = .readOnlyRegister ∨
      r = .writeOnlyRegister ∨ r = .noSuchRegister

theorem hostTurn_inv (h : Inv s) (act : HostAct) : hostOutcome (s.hostTurn act) := by
  have hb := h.toBase
  cases act with
  | writeReg n v =>
    unfold State.hostTurn State.hostWrite
    simp only
    split
    · split
      · rename_i i hd
        by_cases hx : s.host.st = .xfer
        · rcases decodeCmd_cases hd with rfl | rfl
          · simp [exec, execConfigure, hx, hostOutcome]
          · simp [exec, execTransfer, hx, hostOutcome]
        · rcases decodeCmd_cases hd with rfl | rfl
          · obtain ⟨t, e, ht⟩ := configure_inv h hx
            simp only [exec, e]
            exact ht
          · rcases transfer_inv h hx with ⟨t, e, ht⟩ | e
            · simp only [exec, e]
              exact ht
            · simp only [exec, e]
              rfl
      · simp [hostOutcome]
    · split
      · simp [hostOutcome]
      · rename_i hx
        split
        · refine h.between hx ?_ rfl rfl rfl rfl rfl rfl rfl rfl rfl
          have e : (s.host.writeArg (n.extractLsb' 0 2) v).st = s.host.st ∧
              (s.host.writeArg (n.extractLsb' 0 2) v).configured = s.host.configured := by
            unfold HostPort.writeArg
            repeat' split
            all_goals exact ⟨rfl, rfl⟩
          refine ⟨h.params, ?_, ?_, ?_, h.txBound, h.rxBound, h.frame, h.shifter, ?_, h.buf, h.scratch, h.trace⟩
          · simp only [e]; exact h.latch
          · simp only [e]; exact h.running
          · simp only [e]; exact h.valid
          · simp only [e]; exact h.boot
        · split
          · refine h.between hx ?_ rfl rfl rfl rfl rfl rfl rfl rfl rfl
            exact ⟨h.params, h.latch, h.running, fun e => absurd e hx, h.txBound, h.rxBound, h.frame, h.shifter,
              h.boot, h.buf, h.scratch, h.trace⟩
          · split
            · simp [hostOutcome]
            · simp [hostOutcome]
  | readReg n =>
    unfold State.hostTurn State.hostRead
    simp only
    split
    · simp [hostOutcome]
    · rename_i hx
      split
      · simp [hostOutcome]
      · split
        · refine h.between hx ?_ rfl rfl rfl rfl rfl rfl rfl rfl rfl
          exact ⟨h.params, h.latch, h.running, h.valid, h.txBound, h.rxBound, h.frame, h.shifter, h.boot, h.buf,
            h.scratch, h.trace⟩
        · simp [hostOutcome]
  | writeBuf i b =>
    unfold State.hostTurn State.hostWriteBuf
    simp only
    split
    · simp [hostOutcome]
    · rename_i hx
      exact h.between hx (hb.writeBuf i b) rfl rfl rfl rfl rfl rfl rfl rfl rfl
  | readBuf i =>
    unfold State.hostTurn State.hostReadBuf
    simp only
    split
    · simp [hostOutcome]
    · rename_i hx
      refine h.between hx ?_ rfl rfl rfl rfl rfl rfl rfl rfl rfl
      exact ⟨h.params, h.latch, h.running, h.valid, h.txBound, h.rxBound, h.frame, h.shifter, h.boot, h.buf,
        h.scratch, h.trace⟩

/-! ## The environment -/

theorem Inv.setEnv (h : Inv s) (e : Env) : Inv { s with env := e } := ⟨h.toBase.setEnv e, h.point⟩

/-- The state after reset meets the invariant, for legal depths and a buffer in canonical form. -/
theorem resetWith_inv {p : Params} (hp : p.wf = true) {m : Memory} (hm : Memory.wf m = true) (e : Env) :
    Inv { State.resetWith p with buf := m, env := e } := by
  refine ⟨⟨hp, by simp [State.resetWith], by simp [State.resetWith], by simp [State.resetWith], Nat.zero_le _,
    Nat.zero_le _, ⟨rfl, rfl⟩, rfl, by simp [State.resetWith], hm, rfl, rfl⟩, ?_⟩
  show match p.backend with | .A => _ | .B => _
  split
  · exact pointA_idle rfl ⟨.inl rfl, ⟨rfl, rfl, rfl⟩, rfl, rfl⟩ rfl
  · exact pointB_idle rfl ⟨.inl rfl, rfl⟩ rfl

theorem resetTurn_inv (h : Inv s) : Inv s.resetTurn := resetWith_inv h.params h.buf _

end Sys2Proof.Machine
end

