-- ==== Sys2Proof/Laws/PerInstr.lean ====
section
/-! SUPPORT. The family RowFits: the encoder's word of every instruction has the fixed bits of its row of
spec/opcode_table.json and no bit beyond the row's length. -/

namespace Sys2Proof.Laws.RowFits

/-- The fixed bits of a row. -/
def mask : Instr → Word
  | .stop => 0xFFFF
  | .cmd _ _ => 0xFC00
  | .raddr _ _ => 0xFC00
  | .mode8 _ _ => 0xFC00
  | .write _ _ => 0xFC00
  | .read _ _ => 0xFC00
  | .dummy _ _ => 0xFC00
  | .configure => 0xFFFFFFFF
  | .transfer => 0xFFFFFFFF
  | .flush _ => 0xFFFFFFFE
  | .clrflags => 0xFFFFFFFF
  | .enable => 0xFFFFFFFF
  | .setctl _ _ _ _ _ _ _ => 0xFFFF3FC0
  | .push _ => 0xFFFFFF00
  | .pop _ => 0xFFFFFF00
  | .aStart => 0x7
  | .aInstr => 0x7
  | .aAddr => 0x7
  | .aDummy => 0x7
  | .aDataW => 0x7
  | .aDataR => 0x7
  | .aEnd => 0x7

/-- What the fixed bits are. -/
def pattern : Instr → Word
  | .stop => 0x0000
  | .cmd _ _ => 0x0400
  | .raddr _ _ => 0x0800
  | .mode8 _ _ => 0x1C00
  | .write _ _ => 0x2000
  | .read _ _ => 0x2400
  | .dummy _ _ => 0x3000
  | .configure => 1
  | .transfer => 2
  | .flush _ => 0x300
  | .clrflags => 0xF
  | .enable => 1
  | .setctl _ _ _ _ _ _ _ => 0x700
  | .push _ => 0
  | .pop _ => 0
  | .aStart => 1
  | .aInstr => 2
  | .aAddr => 3
  | .aDummy => 4
  | .aDataW => 5
  | .aDataR => 5
  | .aEnd => 6

def Statement (i : Instr) : Prop :=
  (encode i).bits &&& mask i = pattern i ∧ (encode i).bits.toNat < 2 ^ i.widthBits

/-- A table opcode keeps its operation code in bits [15:10]. -/
theorem half (op : BitVec 6) (w : BitVec 2) (x : Byte) :
    (lutCode op w x).bits &&& 0xFC00 = op.setWidth 32 <<< 10 ∧ (lutCode op w x).bits.toNat < 2 ^ 16 := by
  constructor
  · apply BitVec.eq_of_getLsbD_eq
    intro i hi
    simp only [lutCode, encodeHalf, BitVec.getLsbD_and, BitVec.getLsbD_setWidth, BitVec.getLsbD_or,
      BitVec.getLsbD_shiftLeft]
    interval_cases i <;> simp
  · simp only [lutCode, BitVec.toNat_setWidth]
    have := (encodeHalf op w x).isLt
    omega

theorem stop : Statement .stop := by unfold Statement; decide
theorem cmd (w : Width) (b : Byte) : Statement (.cmd w b) := half opCmd w.code b
theorem raddr (w : Width) (n : Byte) : Statement (.raddr w n) := half opRaddr w.code n
theorem mode8 (w : Width) (m : Byte) : Statement (.mode8 w m) := half opMode8 w.code m
theorem write (w : Width) (x : Byte) : Statement (.write w x) := half opWrite w.code x
theorem read (w : Width) (x : Byte) : Statement (.read w x) := half opRead w.code x
theorem dummy (w : Width) (c : Byte) : Statement (.dummy w c) := half opDummy w.code c
theorem configure : Statement .configure := by unfold Statement; decide
theorem transfer : Statement .transfer := by unfold Statement; decide
theorem flush (e : Bool) : Statement (.flush e) := by cases e <;> (unfold Statement; decide)
theorem clrflags : Statement .clrflags := by unfold Statement; decide
theorem enable : Statement .enable := by unfold Statement; decide
theorem setctl (p a c d r t : Bool) (w : Width) : Statement (.setctl p a c d r t w) := by
  cases p <;> cases a <;> cases c <;> cases d <;> cases r <;> cases t <;> cases w <;> (unfold Statement; decide)

/-- A byte in bits [7:0] leaves the others zero. -/
theorem lane (d : Byte) : (d.setWidth 32 : Word) &&& 0xFFFFFF00 = 0 ∧ (d.setWidth 32 : Word).toNat < 2 ^ 32 := by
  constructor
  · apply BitVec.eq_of_getLsbD_eq
    intro i hi
    simp only [BitVec.getLsbD_and, BitVec.getLsbD_setWidth]
    interval_cases i <;> simp
  · exact (d.setWidth 32 : Word).isLt

theorem push (d : Byte) : Statement (.push d) := lane d
theorem pop (d : Byte) : Statement (.pop d) := lane d
theorem aStart : Statement .aStart := by unfold Statement; decide
theorem aInstr : Statement .aInstr := by unfold Statement; decide
theorem aAddr : Statement .aAddr := by unfold Statement; decide
theorem aDummy : Statement .aDummy := by unfold Statement; decide
theorem aDataW : Statement .aDataW := by unfold Statement; decide
theorem aDataR : Statement .aDataR := by unfold Statement; decide
theorem aEnd : Statement .aEnd := by unfold Statement; decide

end Sys2Proof.Laws.RowFits
end

