-- ==== Sys2Proof/Laws/TraceA.lean ====
section
/-! SUPPORT. The bus trace of a Backend A transfer, point by point: beside each control point of the invariant,
what has been put on the trace since the transfer was accepted (41_backend_a_fifo.md R169 to R177), and that
every turn of SEQ, ENGINE and the chip-select machine keeps it. -/

namespace Sys2Proof.Machine

variable {s : State} {T : List Event} {m : Memory}

/-! ## The trace so far, at the start of each phase -/

def Desc.instrEvents (d : Desc) : List Event :=
  if d.instrPresent then [.out (widthOf d.instrLw) d.instrContent] else []

def Desc.addrEvents (d : Desc) : List Event :=
  if d.addrPresent then d.addrBytes.map (Event.out (widthOf d.addrLw)) else []

def headI (T : List Event) : List Event := T ++ [.csLow]
def headA (T : List Event) (d : Desc) : List Event := headI T ++ d.instrEvents
def headD (T : List Event) (d : Desc) : List Event := headA T d ++ d.addrEvents
def headX (T : List Event) (d : Desc) : List Event := headD T d ++ dmyEvents (2 * d.dummyFrames.toNat)

/-- The number of data bytes of the transfer. -/
def Desc.dataCount (d : Desc) : Nat := if d.dataPresent then d.length.toNat else 0

/-- The whole trace up to the release of chip-select. -/
def State.bodyA (s : State) (T : List Event) : List Event :=
  headX T s.desc ++ s.desc.dataEvents (s.bufBytes s.desc.length.toNat)

theorem bodyA_traceA (s : State) (T : List Event) :
    s.bodyA T ++ [.csHigh] = T ++ s.desc.traceA (s.bufBytes s.desc.length.toNat) := by
  unfold State.bodyA headX headD headA headI Desc.traceA Desc.instrEvents Desc.addrEvents
  simp only [List.append_assoc]

/-- Of the bytes `all` of a sending phase, some have left after `H`, some are queued, `pend` are still to be pushed. -/
def sent (s : State) (H : List Event) (w : Width) (all pend : List Byte) : Prop :=
  ∃ done, done ++ s.a.txf ++ pend = all ∧ s.trace = H ++ done.map (Event.out w)

/-! ## The points -/

def trackStart (T : List Event) (s : State) : Prop :=
  (restA s ∧ s.trace = T ∧ (s.seq.ops = [] ∨
    (∃ e, s.seq.ops = [flushOp e, clrflagsOp, enableOp, .contOn, .wait .csAsserted, .goto .pInstr]) ∨
    s.seq.ops = [clrflagsOp, enableOp, .contOn, .wait .csAsserted, .goto .pInstr] ∨
    s.seq.ops = [enableOp, .contOn, .wait .csAsserted, .goto .pInstr] ∨
    (s.a.en = true ∧ s.seq.ops = [.contOn, .wait .csAsserted, .goto .pInstr]))) ∨
  (held s ∧ fifosIdle s ∧ ((csOff s ∧ s.trace = T) ∨ (csOn s ∧ s.trace = headI T)) ∧
    s.seq.ops = [.wait .csAsserted, .goto .pInstr]) ∨
  (quietA s ∧ s.trace = headI T ∧ s.seq.ops = [.goto .pInstr])

def trackInstr (H : List Event) (s : State) : Prop :=
  let w := widthOf s.desc.instrLw
  let c := s.desc.instrContent
  (quietA s ∧ s.trace = H ∧ s.seq.ops = []) ∨
  (s.desc.instrPresent = true ∧
    ((quietA s ∧ s.trace = H ∧ ∃ t,
      s.seq.ops = [setctlOp t s.desc.instrLw true false, pushOp c, .wait .txDrained, .goto .pAddr]) ∨
    (quietA s ∧ readyA s w ∧ s.trace = H ∧ s.seq.ops = [pushOp c, .wait .txDrained, .goto .pAddr]) ∨
    (readyA s w ∧ sent s H w [c] [] ∧ s.seq.ops = [.wait .txDrained, .goto .pAddr]) ∨
    (quietA s ∧ s.trace = H ++ [.out w c] ∧ s.seq.ops = [.goto .pAddr])))

def trackAddr (H : List Event) (s : State) : Prop :=
  let w := widthOf s.desc.addrLw
  (quietA s ∧ s.trace = H ∧ s.seq.ops = []) ∨
  (s.desc.addrPresent = true ∧
    ((quietA s ∧ s.trace = H ∧ ∃ t, s.seq.ops = setctlOp t s.desc.addrLw true false :: pushLines s.desc.addrBytes ++
      [SeqOp.wait .txDrained, SeqOp.goto .pDummy]) ∨
    (readyA s w ∧ ∃ bs : List Byte, sent s H w s.desc.addrBytes bs ∧
      (s.seq.ops = pushLines bs ++ [SeqOp.wait .txDrained, SeqOp.goto .pDummy] ∨
       s.seq.ops = SeqOp.nextIdx :: pushLines bs ++ [SeqOp.wait .txDrained, SeqOp.goto .pDummy])) ∨
    (quietA s ∧ s.trace = H ++ s.desc.addrBytes.map (Event.out w) ∧ s.seq.ops = [.goto .pDummy])))

def trackDummy (H : List Event) (s : State) : Prop :=
  let i := s.seq.idx.toNat
  let n := s.desc.dummyFrames.toNat
  (quietA s ∧ i ≤ n ∧ s.trace = H ++ dmyEvents (2 * i) ∧ s.seq.ops = []) ∨
  (i < n ∧
    ((quietA s ∧ s.trace = H ++ dmyEvents (2 * i) ∧
      ∃ t, s.seq.ops = [setctlOp t 4 false true, .wait .rxAvail, popOp, .nextIdx]) ∨
    (askedA s .w4 ∧ s.trace = H ++ dmyEvents (if s.a.tcr.txmsk then 2 * i else 2 * (i + 1)) ∧
      s.seq.ops = [.wait .rxAvail, popOp, .nextIdx]) ∨
    (gotA s ∧ s.trace = H ++ dmyEvents (2 * (i + 1)) ∧ s.seq.ops = [popOp, .nextIdx]) ∨
    (quietA s ∧ s.trace = H ++ dmyEvents (2 * (i + 1)) ∧ s.seq.ops = [.nextIdx])))

def trackWrite (H : List Event) (s : State) : Prop :=
  let w := widthOf s.desc.dataLw
  let i := s.seq.idx.toNat
  let n := s.desc.length.toNat
  let b := Memory.read s.buf i
  (quietA s ∧ i = 0 ∧ s.trace = H ∧ s.seq.ops = []) ∨
  (s.desc.dataPresent = true ∧
    ((sendingA s w ∧ i ≤ n ∧ sent s H w (s.bufBytes i) [] ∧ s.seq.ops = []) ∨
    (sendingA s w ∧ sent s H w (s.bufBytes n) [] ∧ s.seq.ops = [.wait .txDrained, .goto .pEnd]) ∨
    (sendingA s w ∧ i < n ∧ sent s H w (s.bufBytes i) [] ∧
      ∃ t, s.seq.ops = [setctlOp t s.desc.dataLw true false, .wait .txNotFull, pushOp b, .nextIdx]) ∨
    (readyA s w ∧ i < n ∧ sent s H w (s.bufBytes (i + 1)) [] ∧ s.seq.ops = [.nextIdx]) ∨
    (readyA s w ∧ i < n ∧ sent s H w (s.bufBytes i) [] ∧ s.seq.ops = [.wait .txNotFull, pushOp b, .nextIdx]) ∨
    (readyA s w ∧ s.a.txf.length < s.params.txDepth ∧ i < n ∧ sent s H w (s.bufBytes i) [] ∧
      s.seq.ops = [pushOp b, .nextIdx]) ∨
    (quietA s ∧ s.trace = H ++ (s.bufBytes n).map (Event.out w) ∧ s.seq.ops = [.goto .pEnd])))

/-- From byte `k` up the buffer is what it was. -/
def agrees (m : Memory) (s : State) (k : Nat) : Prop := ∀ n, k ≤ n → Memory.read s.buf n = Memory.read m n

def trackRead (H : List Event) (m : Memory) (s : State) : Prop :=
  let w := widthOf s.desc.dataLw
  let i := s.seq.idx.toNat
  let n := s.desc.dataCount
  let ins := fun k => H ++ (s.bufBytes k).map (Event.inp w)
  (quietA s ∧ i ≤ n ∧ agrees m s i ∧ s.trace = ins i ∧ s.seq.ops = []) ∨
  (i < n ∧
    ((quietA s ∧ agrees m s i ∧ s.trace = ins i ∧ ∃ t,
      s.seq.ops = [setctlOp t s.desc.dataLw false true, .wait .rxAvail, popOp, .bufStore, .nextIdx]) ∨
    (askedA s w ∧ agrees m s i ∧ s.trace = ins i ++ s.a.rxf.map (Event.inp w) ∧
      s.seq.ops = [.wait .rxAvail, popOp, .bufStore, .nextIdx]) ∨
    (gotA s ∧ agrees m s i ∧ s.trace = ins i ++ s.a.rxf.map (Event.inp w) ∧
      s.seq.ops = [popOp, .bufStore, .nextIdx]) ∨
    (quietA s ∧ agrees m s i ∧ s.trace = ins i ++ [.inp w s.seq.popData] ∧ s.seq.ops = [.bufStore, .nextIdx]) ∨
    (quietA s ∧ agrees m s (i + 1) ∧ s.trace = ins (i + 1) ∧ s.seq.ops = [.nextIdx])))

def trackEnd (T : List Event) (s : State) : Prop :=
  (quietA s ∧ s.trace = s.bodyA T ∧ (s.seq.ops = [] ∨
    s.seq.ops = [.wait .readyToEnd, .contOff, .wait .csReleased, .xferDone, .result] ∨
    s.seq.ops = [.contOff, .wait .csReleased, .xferDone, .result])) ∨
  (releasedA s ∧ (s.cs.asserted = true ∧ s.trace = s.bodyA T ∨
      s.cs.asserted = false ∧ s.trace = s.bodyA T ++ [.csHigh]) ∧
    s.seq.ops = [.wait .csReleased, .xferDone, .result]) ∨
  (restA s ∧ s.trace = s.bodyA T ++ [.csHigh] ∧ (s.seq.ops = [.xferDone, .result] ∨ s.seq.ops = [.result]))

/-- The buffer is what it was, outside the bytes of a read. -/
def bufKept (m : Memory) (s : State) : Prop :=
  ∀ n, s.desc.dataPresent = false ∨ s.desc.dirWrite = true ∨ s.desc.length.toNat ≤ n →
    Memory.read s.buf n = Memory.read m n

/-- After the transfer: the whole trace, the result, the buffer. -/
def trackIdle (T : List Event) (m : Memory) (s : State) : Prop :=
  restA s ∧ s.seq.ops = [] ∧ s.trace = s.bodyA T ++ [.csHigh] ∧ bufKept m s ∧ s.host.resStatus = 0 ∧
    s.host.resCount = s.desc.okCount .A

/-- Where a transfer that was accepted with the trace `T` and the buffer `m` can stand, and what it has done. -/
def trackedA (T : List Event) (m : Memory) (s : State) : Prop :=
  match s.seq.phase with
  | .pIdle => trackIdle T m s
  | .pStart => s.buf = m ∧ trackStart T s
  | .pInstr => s.buf = m ∧ trackInstr (headI T) s
  | .pAddr => s.buf = m ∧ trackAddr (headA T s.desc) s
  | .pDummy => s.buf = m ∧ trackDummy (headD T s.desc) s
  | .pData => if s.desc.dirWrite then s.buf = m ∧ trackWrite (headX T s.desc) s
      else trackRead (headX T s.desc) m s
  | .pEnd => bufKept m s ∧ trackEnd T s

theorem trackedA_idle (h : s.seq.phase = .pIdle) : trackedA T m s = trackIdle T m s := by simp only [trackedA, h]
theorem trackedA_start (h : s.seq.phase = .pStart) : trackedA T m s = (s.buf = m ∧ trackStart T s) := by
  simp only [trackedA, h]
theorem trackedA_instr (h : s.seq.phase = .pInstr) : trackedA T m s = (s.buf = m ∧ trackInstr (headI T) s) := by
  simp only [trackedA, h]
theorem trackedA_addr (h : s.seq.phase = .pAddr) :
    trackedA T m s = (s.buf = m ∧ trackAddr (headA T s.desc) s) := by simp only [trackedA, h]
theorem trackedA_dummy (h : s.seq.phase = .pDummy) :
    trackedA T m s = (s.buf = m ∧ trackDummy (headD T s.desc) s) := by simp only [trackedA, h]
theorem trackedA_write (h : s.seq.phase = .pData) (hd : s.desc.dirWrite = true) :
    trackedA T m s = (s.buf = m ∧ trackWrite (headX T s.desc) s) := by simp only [trackedA, h, hd, if_true]
theorem trackedA_read (h : s.seq.phase = .pData) (hd : s.desc.dirWrite = false) :
    trackedA T m s = trackRead (headX T s.desc) m s := by simp only [trackedA, h, hd]; simp
theorem trackedA_end (h : s.seq.phase = .pEnd) : trackedA T m s = (bufKept m s ∧ trackEnd T s) := by
  simp only [trackedA, h]

/-! ## Small facts -/

@[simp] theorem bufBytes_length (s : State) (n : Nat) : (s.bufBytes n).length = n := by simp [State.bufBytes]

theorem bufBytes_succ (s : State) (n : Nat) : s.bufBytes (n + 1) = s.bufBytes n ++ [Memory.read s.buf n] := by
  simp [State.bufBytes, List.range_succ]

theorem dmy_after {X : List Event} {e : Event} (he : ∀ c, e ≠ .dmy c) (a c : Nat) :
    emitTo (X ++ [e] ++ dmyEvents a) (.dmy c) = X ++ [e] ++ dmyEvents (a + c) := by
  have key : ∀ c, emitTo (X ++ [e]) (.dmy c) = X ++ [e] ++ dmyEvents c ∨ c = 0 := by
    intro c
    by_cases hc : c = 0
    · exact .inr hc
    · left
      induction X with
      | nil => cases e <;> simp_all [emitTo, dmyEvents]
      | cons x X ih => cases X <;> cases x <;> simp_all [emitTo, dmyEvents]
  have zero : emitTo (X ++ [e]) (.dmy 0) = X ++ [e] := by
    induction X with
    | nil => cases e <;> simp_all [emitTo]
    | cons x X ih => cases X <;> cases x <;> simp_all [emitTo]
  have add : ∀ a, a ≠ 0 → emitTo (X ++ [e] ++ [.dmy a]) (.dmy c) = X ++ [e] ++ [.dmy (a + c)] := by
    intro a _
    induction X with
    | nil => simp [emitTo]
    | cons x X ih => cases X <;> simp_all [emitTo]
  by_cases ha : a = 0
  · subst ha
    simp only [dmyEvents, if_true, List.append_nil, Nat.zero_add]
    rcases key c with h | h
    · exact h
    · subst h; simpa using zero
  · have := add a ha
    simp only [dmyEvents, ha, if_false]
    rw [this, if_neg (by omega)]

/-- Before the dummy phase the trace does not end in a `DMY` of this transfer. -/
theorem headD_firm (T : List Event) (d : Desc) (a c : Nat) :
    emitTo (headD T d ++ dmyEvents a) (.dmy c) = headD T d ++ dmyEvents (a + c) := by
  have : ∃ X e, headD T d = X ++ [e] ∧ ∀ c, e ≠ .dmy c := by
    unfold headD headA headI Desc.addrEvents Desc.instrEvents
    rcases List.eq_nil_or_concat (if d.addrPresent then d.addrBytes.map (Event.out (widthOf d.addrLw)) else []) with h | ⟨l, x, h⟩
    · rw [h]
      split
      · exact ⟨T ++ [.csLow], .out (widthOf d.instrLw) d.instrContent, by simp, by simp⟩
      · exact ⟨T, .csLow, by simp, by simp⟩
    · rw [List.concat_eq_append] at h
      refine ⟨_, x, by rw [h, ← List.append_assoc], ?_⟩
      split at h
      · have hx : x ∈ d.addrBytes.map (Event.out (widthOf d.addrLw)) := by rw [h]; simp
        obtain ⟨b, _, rfl⟩ := List.mem_map.1 hx
        simp
      · simp at h
  obtain ⟨X, e, h, he⟩ := this
  rw [h]
  exact dmy_after he a c

theorem sent_none {H : List Event} {w : Width} {all pend : List Byte} (h : sent s H w all pend)
    (ht : s.a.txf = []) (hp : pend = []) : s.trace = H ++ all.map (Event.out w) := by
  obtain ⟨done, h1, h2⟩ := h
  rw [ht, hp] at h1
  simp at h1
  rw [h2, h1]

theorem sent_start {H : List Event} {w : Width} (h : s.trace = H) (ht : s.a.txf = []) (all : List Byte) :
    sent s H w all all := ⟨[], by simp [ht], by simp [h]⟩

/-- A byte pushed. -/
theorem sent_push {t : State} {H : List Event} {w : Width} {all pend : List Byte} {b : Byte}
    (h : sent s H w all (b :: pend)) (ht : t.a.txf = s.a.txf ++ [b]) (htr : t.trace = s.trace) :
    sent t H w all pend := by
  obtain ⟨done, h1, h2⟩ := h
  exact ⟨done, by rw [ht, ← h1]; simp, by rw [htr, h2]⟩

/-- The byte at the head of the queue leaves. -/
theorem sent_frame {t : State} {H : List Event} {w : Width} {all pend rest : List Byte} {b : Byte}
    (h : sent s H w all pend) (hb : s.a.txf = b :: rest) (ht : t.a.txf = rest)
    (htr : t.trace = s.trace ++ [.out w b]) : sent t H w all pend := by
  obtain ⟨done, h1, h2⟩ := h
  exact ⟨done ++ [b], by rw [ht, ← h1, hb]; simp, by rw [htr, h2]; simp⟩

theorem sent_same {t : State} {H : List Event} {w : Width} {all pend : List Byte}
    (h : sent s H w all pend) (ht : t.a.txf = s.a.txf) (htr : t.trace = s.trace) : sent t H w all pend := by
  obtain ⟨done, h1, h2⟩ := h
  exact ⟨done, by rw [ht, h1], by rw [htr, h2]⟩

/-! ## SEQ's turn -/

/-- A turn of SEQ that answers a next state keeps the place and the trace. -/
def trackOutcome (T : List Event) (m : Memory) : Host.Outcome State Fault Refusal → Prop
  | .next t => trackedA T m t
  | .fault _ => True
  | .refused _ => True

theorem trackOutcome_wait {p : WaitPred} {rest : List SeqOp} (h : trackedA T m s) (ho : s.seq.ops = .wait p :: rest)
    (hn : s.holds p = true → trackedA T m (s.issueOps rest)) : trackOutcome T m s.seqTurn := by
  rw [seqTurn_cons ho, runOp_wait]
  by_cases hp : s.holds p = true
  · rw [if_pos hp]; exact hn hp
  · rw [if_neg hp]; exact h

theorem track_start (h : trackedA T m s) (hk : s.params.backend = .A) (hph : s.seq.phase = .pStart) :
    trackOutcome T m s.seqTurn := by
  have hp := h
  rw [trackedA_start hph] at hp
  obtain ⟨hm, hp⟩ := hp
  have mk : ∀ {t : State}, t.seq.phase = .pStart → t.buf = m → trackStart T t → trackedA T m t :=
    fun h1 h2 h3 => by rw [trackedA_start h1]; exact ⟨h2, h3⟩
  rcases hp with ⟨hr, htr, ho | ⟨e, ho⟩ | ho | ho | ⟨hen, ho⟩⟩ | ⟨hh, hf, hc, ho⟩ | ⟨hq, htr, ho⟩
  · rw [seqTurn_fetch ho hk (fetchStep_start hph)]
    exact mk hph hm (.inl ⟨hr, htr, .inr (.inl ⟨_, rfl⟩)⟩)
  · rw [seqTurn_cons ho, runOp_flush]
    exact mk hph hm (.inl ⟨⟨hr.1, ⟨rfl, rfl, hr.2.1.2.2⟩, hr.2.2⟩, htr, .inr (.inr (.inl rfl))⟩)
  · rw [seqTurn_cons ho, runOp_clrflags]
    exact mk hph hm (.inl ⟨hr, htr, .inr (.inr (.inr (.inl rfl)))⟩)
  · rw [seqTurn_cons ho, runOp_enable]
    exact mk hph hm (.inl ⟨hr, htr, .inr (.inr (.inr (.inr ⟨rfl, rfl⟩)))⟩)
  · rw [seqTurn_cons ho, runOp_contOn]
    show trackedA T m _
    rcases State.csRise_cases ((s.issueOps [.wait .csAsserted, .goto .pInstr]).setCont true) with ⟨_, _, e⟩ | ⟨_, e⟩
    · rw [e]
      exact mk hph hm (.inr (.inl ⟨⟨hen, rfl, rfl⟩, hr.2.1, .inr ⟨.inl rfl, congrArg (· ++ [Event.csLow]) htr⟩, rfl⟩))
    · rw [e]
      exact mk hph hm (.inr (.inl ⟨⟨hen, rfl, rfl⟩, hr.2.1, .inl ⟨hr.1, htr⟩, rfl⟩))
  · refine trackOutcome_wait h ho fun hw => mk hph hm (.inr (.inr ?_))
    rcases hc with ⟨hc, _⟩ | ⟨hc, htr⟩
    · simp [State.holds, csOff_asserted hc] at hw
    · exact ⟨⟨hh, hc, hf⟩, htr, rfl⟩
  · rw [seqTurn_cons ho]
    show trackedA T m ((s.issueOps []).goto .pInstr)
    rw [trackedA_instr rfl]
    exact ⟨hm, .inl ⟨hq, htr, rfl⟩⟩

theorem track_instr (h : trackedA T m s) (hi : Inv s) (hk : s.params.backend = .A) (hph : s.seq.phase = .pInstr) :
    trackOutcome T m s.seqTurn := by
  have hp := h
  have hv := validate_widths (xfer_of_phase hi.toBase (by simp [hph]) hk)
  rw [trackedA_instr hph] at hp
  obtain ⟨hm, hp⟩ := hp
  have mk : ∀ {t : State}, t.seq.phase = .pInstr → t.buf = m → trackInstr (headI T) t → trackedA T m t :=
    fun h1 h2 h3 => by rw [trackedA_instr h1]; exact ⟨h2, h3⟩
  have next : quietA s → s.trace = headI T ++ s.desc.instrEvents → ∀ l, trackedA T m ((s.issueOps l).goto .pAddr) := by
    intro hq htr l
    rw [trackedA_addr rfl]
    exact ⟨hm, .inl ⟨hq, htr, rfl⟩⟩
  rcases hp with ⟨hq, htr, ho⟩ | ⟨hpr, ⟨hq, htr, t, ho⟩ | ⟨hq, hr, htr, ho⟩ | ⟨hr, hs, ho⟩ | ⟨hq, htr, ho⟩⟩
  · rw [seqTurn_fetch ho hk (fetchStep_instr hph)]
    simp only [exec, execAInstr]
    split
    · rename_i hpr
      exact mk hph hm (.inr ⟨hpr, .inl ⟨hq, htr, _, rfl⟩⟩)
    · rename_i hpr
      exact next hq (by simp [Desc.instrEvents, hpr, htr]) s.seq.ops
  · rw [seqTurn_cons ho, runOp_setctl hv.1 rfl]
    exact mk hph hm (.inr ⟨hpr, .inr (.inl ⟨⟨hq.1, hq.2.1, hq.2.2.1, hq.2.2.2.1, rfl⟩,
      sendingA_setctl (quietA_sending hq), htr, rfl⟩)⟩)
  · rw [seqTurn_cons ho, runOp_push]
    split
    · trivial
    · exact mk hph hm (.inr ⟨hpr, .inr (.inr (.inl ⟨readyA_push hr,
        sent_push (sent_start htr hq.2.2.1 _) rfl rfl, rfl⟩))⟩)
  · exact trackOutcome_wait h ho fun hw => mk hph hm (.inr ⟨hpr, .inr (.inr (.inr
      ⟨sendingA_drained hr.1 (holds_drained hw), sent_none hs (holds_drained hw) rfl, rfl⟩))⟩)
  · rw [seqTurn_cons ho]
    exact next hq (by rw [htr, Desc.instrEvents, if_pos hpr]) []

theorem read_store_all {m : Memory} (hm : Memory.wf m = true) (bs : List Byte) :
    (List.range bs.length).map (Memory.read (Memory.store m 0 bs)) = bs := by
  apply List.ext_getElem
  · simp
  · intro i h1 h2
    simp only [List.getElem_map, List.getElem_range]
    rw [Memory.read_store hm, if_pos (by omega)]
    simp [h2]

theorem track_addr (h : trackedA T m s) (hi : Inv s) (hk : s.params.backend = .A) (hph : s.seq.phase = .pAddr) :
    trackOutcome T m s.seqTurn := by
  have hp := h
  have hv := validate_widths (xfer_of_phase hi.toBase (by simp [hph]) hk)
  rw [trackedA_addr hph] at hp
  obtain ⟨hm, hp⟩ := hp
  have mk : ∀ {t : State}, t.desc = s.desc → t.seq.phase = .pAddr → t.buf = m → trackAddr (headA T t.desc) t →
      trackedA T m t := fun h0 h1 h2 h3 => by rw [trackedA_addr h1]; exact ⟨h2, h3⟩
  have next : quietA s → s.trace = headD T s.desc → ∀ l, trackedA T m ((s.issueOps l).goto .pDummy) := by
    intro hq htr l
    rw [trackedA_dummy rfl]
    exact ⟨hm, .inl ⟨hq, Nat.zero_le _, by simp [State.goto, State.issueOps, htr, dmyEvents], rfl⟩⟩
  rcases hp with ⟨hq, htr, ho⟩ | ⟨hpr, ⟨hq, htr, t, ho⟩ | ⟨hr, bs, hs, ho | ho⟩ | ⟨hq, htr, ho⟩⟩
  · rw [seqTurn_fetch ho hk (fetchStep_addr hph)]
    simp only [exec, execAAddr]
    split
    · rename_i hpr
      split
      · trivial
      · refine mk rfl hph hm (.inr ⟨hpr, .inl ⟨hq, htr, s.a.tcr, ?_⟩⟩)
        simp only [scratchPushes_eq, read_store_all hi.scratch]
        rfl
    · rename_i hpr
      exact next hq (by simp [headD, Desc.addrEvents, hpr, htr]) s.seq.ops
  · rw [seqTurn_cons ho, runOp_setctl hv.2.1 rfl]
    exact mk rfl hph hm (.inr ⟨hpr, .inr (.inl ⟨sendingA_setctl (quietA_sending hq), s.desc.addrBytes,
      sent_start htr hq.2.2.1 _, .inl rfl⟩)⟩)
  · cases bs with
    | nil =>
      exact trackOutcome_wait h ho fun hw => mk rfl hph hm (.inr ⟨hpr, .inr (.inr
        ⟨sendingA_drained hr.1 (holds_drained hw), sent_none hs (holds_drained hw) rfl, rfl⟩)⟩)
    | cons b bs =>
      rw [pushLines_cons] at ho
      rw [seqTurn_cons ho, runOp_push]
      split
      · trivial
      · exact mk rfl hph hm (.inr ⟨hpr, .inr (.inl ⟨readyA_push hr, bs, sent_push hs rfl rfl, .inr rfl⟩)⟩)
  · rw [seqTurn_cons ho]
    exact mk rfl hph hm (.inr ⟨hpr, .inr (.inl ⟨hr, bs, hs, .inl rfl⟩)⟩)
  · rw [seqTurn_cons ho]
    exact next hq (by rw [htr, headD, Desc.addrEvents, if_pos hpr]) []

theorem idx_succ {i n : BitVec 32} (h : i.toNat < n.toNat) : (i + 1).toNat = i.toNat + 1 := by
  have := n.isLt
  rw [BitVec.toNat_add]
  simp
  omega

theorem track_dummy (h : trackedA T m s) (hk : s.params.backend = .A) (hph : s.seq.phase = .pDummy) :
    trackOutcome T m s.seqTurn := by
  have hp := h
  rw [trackedA_dummy hph] at hp
  obtain ⟨hm, hp⟩ := hp
  have mk : ∀ {t : State}, t.desc = s.desc → t.seq.phase = .pDummy → t.buf = m → trackDummy (headD T t.desc) t →
      trackedA T m t := fun h0 h1 h2 h3 => by rw [trackedA_dummy h1]; exact ⟨h2, h3⟩
  rcases hp with ⟨hq, hle, htr, ho⟩ | ⟨hlt, ⟨hq, htr, t, ho⟩ | ⟨ha, htr, ho⟩ | ⟨hg, htr, ho⟩ | ⟨hq, htr, ho⟩⟩
  · rw [seqTurn_fetch ho hk (fetchStep_dummy hph)]
    simp only [exec, execADummy]
    split
    · rename_i hc
      have hlt : s.seq.idx.toNat < s.desc.dummyFrames.toNat := by
        simp only [Bool.and_eq_true, decide_eq_true_eq] at hc
        exact hc.2
      exact mk rfl hph hm (.inr ⟨hlt, .inl ⟨hq, htr, _, rfl⟩⟩)
    · rename_i hc
      have heq : s.seq.idx.toNat = s.desc.dummyFrames.toNat := by
        simp only [Bool.and_eq_true, decide_eq_true_eq, not_and, BitVec.lt_def, Desc.dummyPresent, not_lt] at hc
        by_cases h0 : s.desc.dummyCycles = 0
        · have : s.desc.dummyFrames.toNat = 0 := by simp [Desc.dummyFrames, h0]
          omega
        · have := hc h0
          omega
      rw [heq] at htr
      show trackedA T m (s.goto .pData)
      by_cases hd : s.desc.dirWrite = true
      · rw [trackedA_write (s := s.goto .pData) rfl hd]
        exact ⟨hm, .inl ⟨hq, rfl, htr, rfl⟩⟩
      · rw [trackedA_read (s := s.goto .pData) rfl (by simpa using hd)]
        refine .inl ⟨hq, Nat.zero_le _, fun n _ => ?_, ?_, rfl⟩
        · show Memory.read s.buf n = _
          rw [hm]
        · show s.trace = headX T s.desc ++ []
          rw [List.append_nil]
          exact htr
  · rw [seqTurn_cons ho, runOp_setctl (by decide) rfl]
    exact mk rfl hph hm (.inr ⟨hlt, .inr (.inl ⟨quietA_ask hq, htr, rfl⟩)⟩)
  · refine trackOutcome_wait h ho fun hw => mk rfl hph hm (.inr ⟨hlt, .inr (.inr (.inl ⟨askedA_avail ha hw, ?_, rfl⟩))⟩)
    have := (askedA_avail ha hw).2.2.2.1
    rw [this] at htr
    exact htr
  · obtain ⟨b, hbx⟩ := gotA_pop hg
    rw [seqTurn_cons ho, runOp_pop, hbx]
    exact mk rfl hph hm (.inr ⟨hlt, .inr (.inr (.inr ⟨⟨hg.1, hg.2.1, hg.2.2.1, rfl, hg.2.2.2.1⟩, htr, rfl⟩))⟩)
  · rw [seqTurn_cons ho]
    refine mk rfl hph hm (.inl ⟨hq, ?_, ?_, rfl⟩)
    · show (s.seq.idx + 1).toNat ≤ _
      rw [idx_succ hlt]
      exact hlt
    · show s.trace = headD T s.desc ++ dmyEvents (2 * (s.seq.idx + 1).toNat)
      rw [idx_succ hlt]
      exact htr

theorem track_write (h : trackedA T m s) (hi : Inv s) (hk : s.params.backend = .A) (hph : s.seq.phase = .pData)
    (hd : s.desc.dirWrite = true) : trackOutcome T m s.seqTurn := by
  have hp := h
  have hv := validate_widths (xfer_of_phase hi.toBase (by simp [hph]) hk)
  rw [trackedA_write hph hd] at hp
  obtain ⟨hm, hp⟩ := hp
  have mk : ∀ {t : State}, t.desc = s.desc → t.seq.phase = .pData → t.buf = m → trackWrite (headX T t.desc) t →
      trackedA T m t := fun h0 h1 h2 h3 => by rw [trackedA_write h1 (h0 ▸ hd)]; exact ⟨h2, h3⟩
  have next : quietA s → s.trace = s.bodyA T → ∀ l, trackedA T m ((s.issueOps l).goto .pEnd) := by
    intro hq htr l
    rw [trackedA_end rfl]
    exact ⟨fun n _ => congrArg (Memory.read · n) hm, .inl ⟨hq, htr, .inl rfl⟩⟩
  have hfetch : s.seq.ops = [] → sendingA s (widthOf s.desc.dataLw) → s.seq.idx.toNat ≤ s.desc.length.toNat →
      sent s (headX T s.desc) (widthOf s.desc.dataLw) (s.bufBytes s.seq.idx.toNat) [] →
      (s.desc.dataPresent = false → quietA s ∧ s.trace = headX T s.desc) → trackOutcome T m s.seqTurn := by
    intro ho hs hle hst hn
    rw [seqTurn_fetch ho hk (fetchStep_data hph)]
    simp only [hd, if_true, exec, execADataW]
    split
    · rename_i hpr
      split
      · rename_i hlt
        exact mk rfl hph hm (.inr ⟨hpr, .inr (.inr (.inl ⟨hs, hlt, hst, _, rfl⟩))⟩)
      · rename_i hlt
        have heq : s.seq.idx.toNat = s.desc.length.toNat := by rw [BitVec.lt_def] at hlt; omega
        rw [heq] at hst
        exact mk rfl hph hm (.inr ⟨hpr, .inr (.inl ⟨hs, hst, rfl⟩)⟩)
    · rename_i hpr
      obtain ⟨hq, htr⟩ := hn (by simpa using hpr)
      exact next hq (by simp [State.bodyA, Desc.dataEvents, hpr, htr]) s.seq.ops
  rcases hp with ⟨hq, h0, htr, ho⟩ | ⟨hpr, ⟨hs, hle, hst, ho⟩ | ⟨hs, hst, ho⟩ | ⟨hs, hlt, hst, t, ho⟩ |
    ⟨hr, hlt, hst, ho⟩ | ⟨hr, hlt, hst, ho⟩ | ⟨hr, hf, hlt, hst, ho⟩ | ⟨hq, htr, ho⟩⟩
  · refine hfetch ho (quietA_sending hq) (by omega) ?_ fun _ => ⟨hq, htr⟩
    rw [h0]
    exact sent_start htr hq.2.2.1 _
  · exact hfetch ho hs hle hst fun hn => by simp [hpr] at hn
  · exact trackOutcome_wait h ho fun hw => mk rfl hph hm (.inr ⟨hpr, .inr (.inr (.inr (.inr (.inr (.inr
      ⟨sendingA_drained hs (holds_drained hw), sent_none hst (holds_drained hw) rfl, rfl⟩)))))⟩)
  · rw [seqTurn_cons ho, runOp_setctl hv.2.2.2 rfl]
    exact mk rfl hph hm (.inr ⟨hpr, .inr (.inr (.inr (.inr (.inl ⟨sendingA_setctl hs, hlt, hst, rfl⟩))))⟩)
  · rw [seqTurn_cons ho]
    refine mk rfl hph hm (.inr ⟨hpr, .inl ⟨hr.1, ?_, ?_, rfl⟩⟩)
    · show (s.seq.idx + 1).toNat ≤ _
      rw [idx_succ hlt]
      exact hlt
    · show sent s (headX T s.desc) _ (s.bufBytes (s.seq.idx + 1).toNat) []
      rw [idx_succ hlt]
      exact hst
  · refine trackOutcome_wait h ho fun hw => mk rfl hph hm (.inr ⟨hpr, .inr (.inr (.inr (.inr (.inr (.inl
      ⟨hr, ?_, hlt, hst, rfl⟩)))))⟩)
    simp [State.holds, State.txFull] at hw
    exact hw
  · rw [seqTurn_cons ho, runOp_push]
    split
    · trivial
    · refine mk rfl hph hm (.inr ⟨hpr, .inr (.inr (.inr (.inl ⟨readyA_push hr, hlt, ?_, rfl⟩)))⟩)
      obtain ⟨done, h1, h2⟩ := hst
      refine ⟨done, ?_, h2⟩
      show done ++ (s.a.txf ++ [_]) ++ [] = s.bufBytes (s.seq.idx.toNat + 1)
      rw [bufBytes_succ, ← h1]
      simp
  · rw [seqTurn_cons ho]
    exact next hq (by simp [State.bodyA, Desc.dataEvents, hpr, htr, hd]) []

theorem track_read (h : trackedA T m s) (hi : Inv s) (hk : s.params.backend = .A) (hph : s.seq.phase = .pData)
    (hd : s.desc.dirWrite = false) : trackOutcome T m s.seqTurn := by
  have hp := h
  have hv := validate_widths (xfer_of_phase hi.toBase (by simp [hph]) hk)
  rw [trackedA_read hph hd] at hp
  have mk : ∀ {t : State}, t.desc = s.desc → t.seq.phase = .pData → trackRead (headX T t.desc) m t →
      trackedA T m t := fun h0 h1 h2 => by rw [trackedA_read h1 (h0 ▸ hd)]; exact h2
  have hcount : s.desc.dataCount ≤ s.desc.length.toNat := by unfold Desc.dataCount; split <;> omega
  rcases hp with ⟨hq, hle, hag, htr, ho⟩ | ⟨hlt, ⟨hq, hag, htr, t, ho⟩ | ⟨ha, hag, htr, ho⟩ | ⟨hg, hag, htr, ho⟩ |
    ⟨hq, hag, htr, ho⟩ | ⟨hq, hag, htr, ho⟩⟩
  · rw [seqTurn_fetch ho hk (fetchStep_data hph)]
    simp only [hd, Bool.false_eq_true, if_false, exec, execADataR]
    split
    · rename_i hc
      simp only [Bool.and_eq_true, decide_eq_true_eq, BitVec.lt_def] at hc
      have hlt : s.seq.idx.toNat < s.desc.dataCount := by rw [Desc.dataCount, if_pos hc.1]; exact hc.2
      exact mk rfl hph (.inr ⟨hlt, .inl ⟨hq, hag, htr, _, rfl⟩⟩)
    · rename_i hc
      simp only [Bool.and_eq_true, decide_eq_true_eq, BitVec.lt_def, not_and, not_lt] at hc
      show trackedA T m (s.goto .pEnd)
      rw [trackedA_end rfl]
      by_cases hpr : s.desc.dataPresent = true
      · rw [Desc.dataCount, if_pos hpr] at hle
        have heq : s.seq.idx.toNat = s.desc.length.toNat := by have := hc hpr; omega
        rw [heq] at hag htr
        refine ⟨fun n hn => ?_, .inl ⟨hq, ?_, .inl rfl⟩⟩
        · have hn : s.desc.dataPresent = false ∨ s.desc.dirWrite = true ∨ s.desc.length.toNat ≤ n := hn
          simp only [hpr, hd, Bool.true_eq_false, Bool.false_eq_true, false_or] at hn
          exact hag n hn
        · show s.trace = s.bodyA T
          simpa [State.bodyA, Desc.dataEvents, hpr, hd] using htr
      · rw [Desc.dataCount, if_neg hpr] at hle
        have h0 : s.seq.idx.toNat = 0 := by omega
        rw [h0] at hag htr
        refine ⟨fun n _ => hag n (Nat.zero_le _), .inl ⟨hq, ?_, .inl rfl⟩⟩
        show s.trace = s.bodyA T
        simpa [State.bodyA, Desc.dataEvents, hpr, State.bufBytes] using htr
  · rw [seqTurn_cons ho, runOp_setctl hv.2.2.2 rfl]
    refine mk rfl hph (.inr ⟨hlt, .inr (.inl ⟨quietA_ask hq, hag, ?_, rfl⟩)⟩)
    show s.trace = headX T s.desc ++ (s.bufBytes s.seq.idx.toNat).map _ ++ s.a.rxf.map _
    rw [hq.2.2.2.1]
    simpa using htr
  · exact trackOutcome_wait h ho fun hw => mk rfl hph (.inr ⟨hlt, .inr (.inr (.inl
      ⟨askedA_avail ha hw, hag, htr, rfl⟩))⟩)
  · obtain ⟨b, hbx⟩ := gotA_pop hg
    rw [hbx] at htr
    rw [seqTurn_cons ho, runOp_pop, hbx]
    exact mk rfl hph (.inr ⟨hlt, .inr (.inr (.inr (.inl
      ⟨⟨hg.1, hg.2.1, hg.2.2.1, rfl, hg.2.2.2.1⟩, hag, htr, rfl⟩)))⟩)
  · rw [seqTurn_cons ho]
    have hrw := fun j => Memory.read_write hi.buf s.seq.idx.toNat j s.seq.popData
    refine mk rfl hph (.inr ⟨hlt, .inr (.inr (.inr (.inr ⟨hq, ?_, ?_, rfl⟩)))⟩)
    · intro n hn
      show Memory.read (Memory.write s.buf s.seq.idx.toNat s.seq.popData) n = _
      rw [hrw, if_neg (by have : s.seq.idx.toNat + 1 ≤ n := hn; omega)]
      exact hag n (by have : s.seq.idx.toNat + 1 ≤ n := hn; omega)
    · show s.trace = headX T s.desc ++
        ((List.range (s.seq.idx.toNat + 1)).map (Memory.read (Memory.write s.buf s.seq.idx.toNat s.seq.popData))).map _
      rw [htr, List.range_succ, List.map_append, List.map_append, List.append_assoc]
      have e : (List.range s.seq.idx.toNat).map (Memory.read (Memory.write s.buf s.seq.idx.toNat s.seq.popData)) =
          s.bufBytes s.seq.idx.toNat := by
        unfold State.bufBytes
        apply List.map_congr_left
        intro j hj
        rw [hrw, if_neg (by have := List.mem_range.1 hj; omega)]
      rw [e, List.map_singleton, hrw, if_pos rfl]
      rfl
  · rw [seqTurn_cons ho]
    have hlt' : s.seq.idx.toNat < s.desc.length.toNat := by omega
    refine mk rfl hph (.inl ⟨hq, ?_, ?_, ?_, rfl⟩)
    · show (s.seq.idx + 1).toNat ≤ _
      rw [idx_succ hlt']
      exact hlt
    · show agrees m s (s.seq.idx + 1).toNat
      rw [idx_succ hlt']
      exact hag
    · show s.trace = headX T s.desc ++ (s.bufBytes (s.seq.idx + 1).toNat).map _
      rw [idx_succ hlt']
      exact htr

theorem track_end (h : trackedA T m s) (hk : s.params.backend = .A) (hph : s.seq.phase = .pEnd) :
    trackOutcome T m s.seqTurn := by
  have hp := h
  rw [trackedA_end hph] at hp
  obtain ⟨hm, hp⟩ := hp
  have mk : ∀ {t : State}, t.seq.phase = .pEnd → bufKept m t → trackEnd T t → trackedA T m t :=
    fun h1 h2 h3 => by rw [trackedA_end h1]; exact ⟨h2, h3⟩
  rcases hp with ⟨hq, htr, ho | ho | ho⟩ | ⟨hr, hc, ho⟩ | ⟨hr, htr, ho | ho⟩
  · rw [seqTurn_fetch ho hk (fetchStep_end hph)]
    exact mk hph hm (.inl ⟨hq, htr, .inr (.inl rfl)⟩)
  · exact trackOutcome_wait h ho fun _ => mk hph hm (.inl ⟨hq, htr, .inr (.inr rfl)⟩)
  · rw [seqTurn_cons ho]
    exact mk hph hm (.inr (.inl ⟨⟨hq.2.2, rfl, rfl⟩, .inl ⟨csOn_asserted hq.2.1, htr⟩, rfl⟩))
  · refine trackOutcome_wait h ho fun hw => ?_
    have hoff : s.cs.asserted = false := by simpa [State.holds] using hw
    refine mk hph hm (.inr (.inr ⟨⟨asserted_off hoff, hr⟩, ?_, .inl rfl⟩))
    rcases hc with ⟨hon, _⟩ | ⟨_, htr⟩
    · simp [hoff] at hon
    · exact htr
  · rw [seqTurn_cons ho]
    exact mk hph hm (.inr (.inr ⟨hr, htr, .inr rfl⟩))
  · rw [seqTurn_cons ho]
    show trackedA T m (s.issueOps []).endTransfer
    have hke : (s.issueOps []).params.backend = .A := hk
    unfold State.endTransfer
    simp only [hke]
    rw [if_neg (by simp), trackedA_idle rfl]
    exact ⟨hr, rfl, htr, hm, rfl, rfl⟩

/-- SEQ's turn during a transfer. -/
theorem track_seq (h : trackedA T m s) (hi : Inv s) (hk : s.params.backend = .A) (hph : s.seq.phase ≠ .pIdle) :
    trackOutcome T m s.seqTurn := by
  cases hp : s.seq.phase with
  | pIdle => exact absurd hp hph
  | pStart => exact track_start h hk hp
  | pInstr => exact track_instr h hi hk hp
  | pAddr => exact track_addr h hi hk hp
  | pDummy => exact track_dummy h hk hp
  | pData =>
    cases hd : s.desc.dirWrite with
    | true => exact track_write h hi hk hp hd
    | false => exact track_read h hi hk hp hd
  | pEnd => exact track_end h hk hp

/-! ## ENGINE's turn -/

theorem track_txFrame {b : Byte} {rest : List Byte} (h : trackedA T m s) (ht : s.a.txf = b :: rest)
    (hx : s.a.tcr.rxmsk = true) (hm : s.a.tcr.txmsk = false) : trackedA T m (s.txFrame b rest) := by
  rw [txFrame_masked hx]
  have hne : s.a.txf ≠ [] := by simp [ht]
  have nq : ¬ quietA s := fun q => hne q.2.2.1
  have nr : ¬ restA s := fun q => hne q.2.1.1
  have ng : ¬ gotA s := fun q => hne q.2.2.1
  have na : ∀ w, ¬ askedA s w := fun w q => hne q.2.2.1
  have nf : ¬ fifosIdle s := fun q => hne q.1
  set t := ({ s with a := { s.a with txf := rest } }.emit (.out s.a.tcr.width b)).frameDone with et
  have htr : t.trace = s.trace ++ [.out s.a.tcr.width b] := emitTo_out _ _ _
  have hs : ∀ w, sendingA s w → sendingA t w := fun w q =>
    ⟨q.1, q.2.1, q.2.2.1, hm, fun _ => q.2.2.2.2 hne⟩
  have hr : ∀ w, readyA s w → readyA t w := fun w q => ⟨hs w q.1, q.2⟩
  have hst : ∀ w H all pend, sendingA s w → sent s H w all pend → sent t H w all pend := by
    intro w H all pend q hsent
    refine sent_frame hsent ht rfl ?_
    rw [htr, (q.2.2.2.2 hne).1]
  show trackedA T m t
  cases hph : s.seq.phase with
  | pIdle => rw [trackedA_idle hph] at h; exact absurd h.1 nr
  | pStart =>
    rw [trackedA_start hph] at h
    rcases h with ⟨_, h | h | h⟩
    exacts [absurd h.1 nr, absurd h.2.1 nf, absurd h.1 nq]
  | pInstr =>
    rw [trackedA_instr hph] at h
    rw [trackedA_instr (s := t) hph]
    rcases h with ⟨hb, h | ⟨hpr, h | h | ⟨q, hsent, ho⟩ | h⟩⟩
    exacts [absurd h.1 nq, absurd h.1 nq, absurd h.1 nq,
      ⟨hb, .inr ⟨hpr, .inr (.inr (.inl ⟨hr _ q, hst _ _ _ _ q.1 hsent, ho⟩))⟩⟩, absurd h.1 nq]
  | pAddr =>
    rw [trackedA_addr hph] at h
    rw [trackedA_addr (s := t) hph]
    rcases h with ⟨hb, h | ⟨hpr, h | ⟨q, bs, hsent, ho⟩ | h⟩⟩
    exacts [absurd h.1 nq, absurd h.1 nq,
      ⟨hb, .inr ⟨hpr, .inr (.inl ⟨hr _ q, bs, hst _ _ _ _ q.1 hsent, ho⟩)⟩⟩, absurd h.1 nq]
  | pDummy =>
    rw [trackedA_dummy hph] at h
    rcases h with ⟨hb, h | ⟨hpr, h | h | h | h⟩⟩
    exacts [absurd h.1 nq, absurd h.1 nq, absurd h.1 (na _), absurd h.1 ng, absurd h.1 nq]
  | pData =>
    cases hd : s.desc.dirWrite with
    | true =>
      rw [trackedA_write hph hd] at h
      rw [trackedA_write (s := t) hph hd]
      rcases h with ⟨hb, h | ⟨hpr, ⟨q, hle, hsent, ho⟩ | ⟨q, hsent, ho⟩ | ⟨q, hlt, hsent, ho⟩ |
        ⟨q, hlt, hsent, ho⟩ | ⟨q, hlt, hsent, ho⟩ | ⟨q, hf, hlt, hsent, ho⟩ | h⟩⟩
      · exact absurd h.1 nq
      · exact ⟨hb, .inr ⟨hpr, .inl ⟨hs _ q, hle, hst _ _ _ _ q hsent, ho⟩⟩⟩
      · exact ⟨hb, .inr ⟨hpr, .inr (.inl ⟨hs _ q, hst _ _ _ _ q hsent, ho⟩)⟩⟩
      · exact ⟨hb, .inr ⟨hpr, .inr (.inr (.inl ⟨hs _ q, hlt, hst _ _ _ _ q hsent, ho⟩))⟩⟩
      · exact ⟨hb, .inr ⟨hpr, .inr (.inr (.inr (.inl ⟨hr _ q, hlt, hst _ _ _ _ q.1 hsent, ho⟩)))⟩⟩
      · exact ⟨hb, .inr ⟨hpr, .inr (.inr (.inr (.inr (.inl ⟨hr _ q, hlt, hst _ _ _ _ q.1 hsent, ho⟩))))⟩⟩
      · refine ⟨hb, .inr ⟨hpr, .inr (.inr (.inr (.inr (.inr (.inl
          ⟨hr _ q, ?_, hlt, hst _ _ _ _ q.1 hsent, ho⟩)))))⟩⟩
        rw [ht, List.length_cons] at hf
        exact Nat.lt_of_succ_lt hf
      · exact absurd h.1 nq
    | false =>
      rw [trackedA_read hph hd] at h
      rcases h with h | ⟨_, h | h | h | h | h⟩
      exacts [absurd h.1 nq, absurd h.1 nq, absurd h.1 (na _), absurd h.1 ng, absurd h.1 nq, absurd h.1 nq]
  | pEnd =>
    rw [trackedA_end hph] at h
    rcases h with ⟨_, h | h | h⟩
    exacts [absurd h.1 nq, absurd h.1.1 nf, absurd h.1 nr]

/-- A receive-only frame puts its event on the trace and its byte into RXF (R167). -/
theorem rxFrame_events (s : State) : ∃ b n, s.rxFrame =
    { s with a := { s.a with tcr := { s.a.tcr with txmsk := false }, rxf := s.a.rxf ++ [b],
                             sr := { s.a.sr with frameDone := true } },
             trace := emitTo s.trace (if s.seq.phase = .pDummy then .dmy (8 / s.a.tcr.width.lines)
               else .inp s.a.tcr.width b), env := { s.env with free := n } } := by
  unfold State.rxFrame State.rxSample
  simp only
  split
  · exact ⟨_, _, rfl⟩
  · exact ⟨_, _, rfl⟩

theorem track_rxFrame (h : trackedA T m s) (hm : s.a.tcr.txmsk = true) :
    trackedA T m s.rxFrame := by
  have hne : s.a.tcr.txmsk ≠ false := by simp [hm]
  have nf : ¬ fifosIdle s := fun q => hne q.2.2
  have nq : ¬ quietA s := fun q => nf q.2.2
  have nr : ¬ restA s := fun q => nf q.2.1
  have ng : ¬ gotA s := fun q => hne q.2.2.2.1
  have ns : ∀ w, ¬ sendingA s w := fun w q => hne q.2.2.2.1
  have ny : ∀ w, ¬ readyA s w := fun w q => ns w q.1
  have ha : ∀ w, askedA s w → s.a.tcr.width = w ∧ s.a.rxf = [] := fun w q => by
    rcases q.2.2.2 with q | q
    · exact q.2
    · exact absurd q.1 hne
  obtain ⟨b, n, e⟩ := rxFrame_events s
  rw [e]
  cases hph : s.seq.phase with
  | pIdle => rw [trackedA_idle hph] at h; exact absurd h.1 nr
  | pStart =>
    rw [trackedA_start hph] at h
    rcases h with ⟨_, h | h | h⟩
    exacts [absurd h.1 nr, absurd h.2.1 nf, absurd h.1 nq]
  | pInstr =>
    rw [trackedA_instr hph] at h
    rcases h with ⟨hb, h | ⟨hpr, h | h | h | h⟩⟩
    exacts [absurd h.1 nq, absurd h.1 nq, absurd h.1 nq, absurd h.1 (ny _), absurd h.1 nq]
  | pAddr =>
    rw [trackedA_addr hph] at h
    rcases h with ⟨hb, h | ⟨hpr, h | h | h⟩⟩
    exacts [absurd h.1 nq, absurd h.1 nq, absurd h.1 (ny _), absurd h.1 nq]
  | pDummy =>
    rw [trackedA_dummy hph] at h
    refine (trackedA_dummy (by exact hph)).mpr ?_
    rcases h with ⟨hb, h | ⟨hlt, h | ⟨q, htr, ho⟩ | h | h⟩⟩
    · exact absurd h.1 nq
    · exact absurd h.1 nq
    · refine ⟨hb, .inr ⟨hlt, .inr (.inl ⟨⟨q.1, q.2.1, q.2.2.1, .inr ⟨rfl, by simp [ha _ q]⟩⟩, ?_, ho⟩)⟩⟩
      rw [hm] at htr
      simp only [if_true] at htr
      simp only [if_true, Bool.false_eq_true, if_false]
      rw [htr, headD_firm, (ha _ q).1]
      rfl
    · exact absurd h.1 ng
    · exact absurd h.1 nq
  | pData =>
    cases hd : s.desc.dirWrite with
    | true =>
      rw [trackedA_write hph hd] at h
      rcases h with ⟨hb, h | ⟨hpr, h | h | h | h | h | h | h⟩⟩
      exacts [absurd h.1 nq, absurd h.1 (ns _), absurd h.1 (ns _), absurd h.1 (ns _), absurd h.1 (ny _),
        absurd h.1 (ny _), absurd h.1 (ny _), absurd h.1 nq]
    | false =>
      rw [trackedA_read hph hd] at h
      refine (trackedA_read (by exact hph) (by exact hd)).mpr ?_
      rcases h with h | ⟨hlt, h | ⟨q, hag, htr, ho⟩ | h | h | h⟩
      · exact absurd h.1 nq
      · exact absurd h.1 nq
      · refine .inr ⟨hlt, .inr (.inl ⟨⟨q.1, q.2.1, q.2.2.1, .inr ⟨rfl, by simp [ha _ q]⟩⟩, hag, ?_, ho⟩)⟩
        simp only [reduceCtorEq, if_false, emitTo_inp]
        rw [htr, (ha _ q).1, (ha _ q).2]
        simp [State.bufBytes]
      · exact absurd h.1 ng
      · exact absurd h.1 nq
      · exact absurd h.1 nq
  | pEnd =>
    rw [trackedA_end hph] at h
    rcases h with ⟨_, h | h | h⟩
    exacts [absurd h.1 nq, absurd h.1.1 nf, absurd h.1 nr]

theorem track_engine (h : trackedA T m s) (hi : Inv s) (hk : s.params.backend = .A) : trackedA T m s.engineA := by
  rcases engineA_cases s with e | ⟨b, rest, ht, _, hm, _, e⟩ | ⟨_, _, hm, _, e⟩
  · rw [e]; exact h
  · rw [e]; exact track_txFrame h ht (pointA_masked (hi.pointA hk) (by simp [ht])) hm
  · rw [e]; exact track_rxFrame h hm

/-! ## The chip-select machine's turn -/

/-- A transition that puts nothing on the trace and keeps every control point. -/
theorem track_silent {c : CsState} (h : trackedA T m s) (hr : csOff s → csOff { s with cs := c })
    (hq : csOn s → csOn { s with cs := c }) (hn : c.asserted = s.cs.asserted) :
    trackedA T m { s with cs := c } := by
  have r : restA s → restA { s with cs := c } := fun q => ⟨hr q.1, q.2⟩
  have qu : quietA s → quietA { s with cs := c } := fun q => ⟨q.1, hq q.2.1, q.2.2⟩
  have se : ∀ w, sendingA s w → sendingA { s with cs := c } w := fun w q => ⟨q.1, hq q.2.1, q.2.2⟩
  have re : ∀ w, readyA s w → readyA { s with cs := c } w := fun w q => ⟨se w q.1, q.2⟩
  have go : gotA s → gotA { s with cs := c } := fun q => ⟨q.1, hq q.2.1, q.2.2⟩
  have as : ∀ w, askedA s w → askedA { s with cs := c } w := fun w q => ⟨q.1, hq q.2.1, q.2.2⟩
  unfold trackedA at h ⊢
  simp only
  split
  all_goals rename_i hph
  all_goals rw [hph] at h
  all_goals simp only at h
  · exact ⟨r h.1, h.2⟩
  · exact h.imp id (Or.imp (And.imp_left r) (Or.imp
      (fun x => ⟨x.1, x.2.1, x.2.2.1.imp (And.imp_left hr) (And.imp_left hq), x.2.2.2⟩) (And.imp_left qu)))
  · exact h.imp id (Or.imp (And.imp_left qu) (And.imp_right (Or.imp (And.imp_left qu) (Or.imp
      (fun x => ⟨qu x.1, re _ x.2.1, x.2.2⟩) (Or.imp (And.imp_left (re _)) (And.imp_left qu))))))
  · exact h.imp id (Or.imp (And.imp_left qu) (And.imp_right (Or.imp (And.imp_left qu)
      (Or.imp (And.imp_left (re _)) (And.imp_left qu)))))
  · exact h.imp id (Or.imp (And.imp_left qu) (And.imp_right (Or.imp (And.imp_left qu)
      (Or.imp (And.imp_left (as _)) (Or.imp (And.imp_left go) (And.imp_left qu))))))
  · split
    · rename_i hd
      rw [if_pos hd] at h
      exact h.imp id (Or.imp (And.imp_left qu) (And.imp_right (Or.imp (And.imp_left (se _)) (Or.imp
        (And.imp_left (se _)) (Or.imp (And.imp_left (se _)) (Or.imp (And.imp_left (re _)) (Or.imp
        (And.imp_left (re _)) (Or.imp (And.imp_left (re _)) (And.imp_left qu)))))))))
    · rename_i hd
      rw [if_neg hd] at h
      exact Or.imp (And.imp_left qu) (And.imp_right (Or.imp (And.imp_left qu) (Or.imp (And.imp_left (as _))
        (Or.imp (And.imp_left go) (Or.imp (And.imp_left qu) (And.imp_left qu)))))) h
  · refine h.imp id (Or.imp (And.imp_left qu) (Or.imp (fun x => ⟨x.1, ?_, x.2.2⟩) (And.imp_left r)))
    show (c.asserted = true ∧ _ ∨ c.asserted = false ∧ _)
    rw [hn]
    exact x.2.1

theorem track_cs (h : trackedA T m s) (hi : Inv s) (hk : s.params.backend = .A) : trackedA T m s.csTurn := by
  have hreq := fun q : held s => held_csReq hk q
  unfold State.csTurn
  cases hc : s.cs with
  | idle =>
    simp only
    rcases State.csRise_cases s with ⟨hr, _, e⟩ | ⟨_, e⟩
    · rw [e]
      have non : ¬ csOn s := by simp [csOn, hc]
      have nq : ¬ quietA s := fun q => non q.2.1
      have nrest : ¬ restA s := fun q => by rw [rest_csReq hk q.2.2.1] at hr; simp at hr
      have nrel : ¬ releasedA s := fun q => by rw [rest_csReq hk q.2.1] at hr; simp at hr
      have hp := hi.pointA hk
      have hph : s.seq.phase = .pStart := by
        have ny : ∀ w, ¬ sendingA s w := fun w q => non q.2.1
        have nx : ∀ w, ¬ readyA s w := fun w q => ny w q.1
        have ng : ¬ gotA s := fun q => non q.2.1
        have na : ∀ w, ¬ askedA s w := fun w q => non q.2.1
        unfold pointA at hp
        split at hp
        · exact absurd hp.1 nrest
        · assumption
        · rcases hp with h | h | h | h | h
          exacts [absurd h.1 nq, absurd h.1 nq, absurd h.1 nq, absurd h.1 (nx _), absurd h.1 nq]
        · rcases hp with h | h | h | h
          exacts [absurd h.1 nq, absurd h.1 nq, absurd h.1 (nx _), absurd h.1 nq]
        · rcases hp with h | h | h | h | h
          exacts [absurd h.1 nq, absurd h.1 nq, absurd h.1 (na _), absurd h.1 ng, absurd h.1 nq]
        · split at hp
          · rcases hp with h | ⟨-, h | h | h⟩ | h
            exacts [absurd h.1 nq, absurd h.1 (ny _), absurd h.1 (nx _), absurd h.1 (nx _), absurd h.1 nq]
          · rcases hp with h | h | h | h | h | h
            exacts [absurd h.1 nq, absurd h.1 nq, absurd h.1 (na _), absurd h.1 ng, absurd h.1 nq, absurd h.1 nq]
        · rcases hp with h | h | h | h | h | h
          exacts [absurd h.1 nq, absurd h.1 nq, absurd h.1 nq, absurd h.1 nrel, absurd h.1 nrest, absurd h.1 nrest]
      rw [trackedA_start hph] at h
      refine (trackedA_start (by exact hph)).mpr ?_
      refine ⟨h.1, ?_⟩
      rcases h.2 with q | ⟨q1, q2, ⟨_, q3⟩ | ⟨q3, _⟩, q4⟩ | q
      · exact absurd q.1 nrest
      · exact .inr (.inl ⟨q1, q2, .inr ⟨.inl rfl, congrArg (· ++ [Event.csLow]) q3⟩, q4⟩)
      · exact absurd q3 non
      · exact absurd q.1 nq
    · rw [e]; exact h
  | setup => exact track_silent h (by simp [csOff, hc]) (by simp [csOn]) (by simp [hc, CsState.asserted])
  | active =>
    by_cases hr : s.csReq = true
    · simp only [hr, if_true]; exact h
    · simp only [hr]
      have nh : ¬ held s := fun q => hr (hreq q)
      have hoff : ¬ csOff s := by simp [csOff, hc]
      have nq : ¬ quietA s := fun q => nh q.1
      have nr : ¬ restA s := fun q => hoff q.1
      have ny : ∀ w, ¬ sendingA s w := fun w q => nh q.1
      have nx : ∀ w, ¬ readyA s w := fun w q => ny w q.1
      have ng : ¬ gotA s := fun q => nh q.1
      have na : ∀ w, ¬ askedA s w := fun w q => nh q.1
      have hph : s.seq.phase = .pEnd := by
        have hp := hi.pointA hk
        unfold pointA at hp
        split at hp
        · exact absurd hp.1 nr
        · rcases hp with h | h | h
          exacts [absurd h.1 nr, absurd h.1 nh, absurd h.1 nq]
        · rcases hp with h | h | h | h | h
          exacts [absurd h.1 nq, absurd h.1 nq, absurd h.1 nq, absurd h.1 (nx _), absurd h.1 nq]
        · rcases hp with h | h | h | h
          exacts [absurd h.1 nq, absurd h.1 nq, absurd h.1 (nx _), absurd h.1 nq]
        · rcases hp with h | h | h | h | h
          exacts [absurd h.1 nq, absurd h.1 nq, absurd h.1 (na _), absurd h.1 ng, absurd h.1 nq]
        · split at hp
          · rcases hp with h | ⟨-, h | h | h⟩ | h
            exacts [absurd h.1 nq, absurd h.1 (ny _), absurd h.1 (nx _), absurd h.1 (nx _), absurd h.1 nq]
          · rcases hp with h | h | h | h | h | h
            exacts [absurd h.1 nq, absurd h.1 nq, absurd h.1 (na _), absurd h.1 ng, absurd h.1 nq, absurd h.1 nq]
        · assumption
      rw [trackedA_end hph] at h
      show trackedA T m { s with cs := .hold }
      rw [trackedA_end (s := { s with cs := .hold }) hph]
      refine ⟨h.1, ?_⟩
      rcases h.2 with q | ⟨q, ⟨_, q2⟩ | ⟨q2, _⟩, q3⟩ | q
      · exact absurd q.1 nq
      · exact .inr (.inl ⟨q, .inl ⟨rfl, q2⟩, q3⟩)
      · simp [hc, CsState.asserted] at q2
      · exact absurd q.1 nr
  | hold =>
    have hoff : ¬ csOff s := by simp [csOff, hc]
    have non : ¬ csOn s := by simp [csOn, hc]
    have nq : ¬ quietA s := fun q => non q.2.1
    have nr : ¬ restA s := fun q => hoff q.1
    have ny : ∀ w, ¬ sendingA s w := fun w q => non q.2.1
    have nx : ∀ w, ¬ readyA s w := fun w q => ny w q.1
    have ng : ¬ gotA s := fun q => non q.2.1
    have na : ∀ w, ¬ askedA s w := fun w q => non q.2.1
    have hph : s.seq.phase = .pEnd := by
      have hp := hi.pointA hk
      unfold pointA at hp
      split at hp
      · exact absurd hp.1 nr
      · rcases hp with h | h | h
        exacts [absurd h.1 nr, h.2.2.1.elim (absurd · hoff) (absurd · non), absurd h.1 nq]
      · rcases hp with h | h | h | h | h
        exacts [absurd h.1 nq, absurd h.1 nq, absurd h.1 nq, absurd h.1 (nx _), absurd h.1 nq]
      · rcases hp with h | h | h | h
        exacts [absurd h.1 nq, absurd h.1 nq, absurd h.1 (nx _), absurd h.1 nq]
      · rcases hp with h | h | h | h | h
        exacts [absurd h.1 nq, absurd h.1 nq, absurd h.1 (na _), absurd h.1 ng, absurd h.1 nq]
      · split at hp
        · rcases hp with h | ⟨-, h | h | h⟩ | h
          exacts [absurd h.1 nq, absurd h.1 (ny _), absurd h.1 (nx _), absurd h.1 (nx _), absurd h.1 nq]
        · rcases hp with h | h | h | h | h | h
          exacts [absurd h.1 nq, absurd h.1 nq, absurd h.1 (na _), absurd h.1 ng, absurd h.1 nq, absurd h.1 nq]
      · assumption
    rw [trackedA_end hph] at h
    show trackedA T m { s.emit .csHigh with cs := .interval }
    rw [trackedA_end (s := { s.emit .csHigh with cs := .interval }) hph]
    refine ⟨h.1, ?_⟩
    rcases h.2 with q | ⟨q, ⟨_, q2⟩ | ⟨q2, _⟩, q3⟩ | q
    · exact absurd q.1 nq
    · refine .inr (.inl ⟨q, .inr ⟨rfl, ?_⟩, q3⟩)
      show emitTo s.trace .csHigh = s.bodyA T ++ [.csHigh]
      rw [emitTo_csHigh, q2]
    · simp [hc, CsState.asserted] at q2
    · exact absurd q.1 nr
  | interval => exact track_silent h (by simp [csOff]) (by simp [csOn, hc]) (by simp [hc, CsState.asserted])

/-- The inputs may change at any time. -/
theorem track_setPins (h : trackedA T m s) (p : Pins) : trackedA T m (s.setPins p) := h

/-- A transfer just accepted. -/
theorem track_accepted (hi : Inv s) (hk : s.params.backend = .A) (hx : s.host.st ≠ .xfer) :
    trackedA s.trace s.buf ((s.setRun .xfer).goto .pStart) := by
  have hph := hi.idle_phase hx
  have hp := hi.pointA hk
  simp only [pointA, hph] at hp
  rw [trackedA_start rfl]
  exact ⟨rfl, .inl ⟨hp.1, rfl, .inl rfl⟩⟩

end Sys2Proof.Machine
end

