-- ==== Sys2Proof/Laws/TraceB.lean ====
section
/-! SUPPORT. The bus trace of a Backend B transfer, point by point (42_backend_b_lut.md R202 to R217): beside
each control point of the invariant, what has been put on the trace since the transfer was accepted, and that
every turn of SEQ, ENGINE and the chip-select machine keeps it. -/

namespace Sys2Proof.Machine

variable {s : State} {T : List Event} {m : Memory}

/-! ## The half-words of the compiled program -/

theorem halfFields (op : BitVec 6) (w : BitVec 2) (x : Byte) : halfOp (encodeHalf op w x) = op ∧
    halfW (encodeHalf op w x) = w ∧ halfOperand (encodeHalf op w x) = x := by
  refine ⟨?_, ?_, ?_⟩ <;>
  · apply BitVec.eq_of_getLsbD_eq
    intro i hi
    simp only [halfOp, halfW, halfOperand, encodeHalf, BitVec.getLsbD_extractLsb', BitVec.getLsbD_or,
      BitVec.getLsbD_shiftLeft, BitVec.getLsbD_setWidth]
    interval_cases i <;> simp

theorem lowHalf_pack (a b : Half) : lowHalf (packHalves a b) = a := by
  apply BitVec.eq_of_getLsbD_eq
  intro i hi
  simp only [lowHalf, packHalves, BitVec.getLsbD_extractLsb', BitVec.getLsbD_or, BitVec.getLsbD_shiftLeft,
    BitVec.getLsbD_setWidth]
  interval_cases i <;> simp

theorem highHalf_pack (a b : Half) : highHalf (packHalves a b) = b := by
  apply BitVec.eq_of_getLsbD_eq
  intro i hi
  simp only [highHalf, packHalves, BitVec.getLsbD_extractLsb', BitVec.getLsbD_or, BitVec.getLsbD_shiftLeft,
    BitVec.getLsbD_setWidth]
  interval_cases i <;> simp

theorem decodeHalf_op (op : BitVec 6) (lw : BitVec 3) (x : Byte) (hl : lwLegal lw = true) :
    (op = opCmd → decodeHalf (encodeHalf op (wcode lw) x) = .ok (.cmd (widthOf lw) x)) ∧
    (op = opRaddr → x.toNat ≤ 4 → decodeHalf (encodeHalf op (wcode lw) x) = .ok (.raddr (widthOf lw) x)) ∧
    (op = opMode8 → decodeHalf (encodeHalf op (wcode lw) x) = .ok (.mode8 (widthOf lw) x)) ∧
    (op = opWrite → decodeHalf (encodeHalf op (wcode lw) x) = .ok (.write (widthOf lw) x)) ∧
    (op = opRead → decodeHalf (encodeHalf op (wcode lw) x) = .ok (.read (widthOf lw) x)) ∧
    (op = opDummy → decodeHalf (encodeHalf op (wcode lw) x) = .ok (.dummy (widthOf lw) x)) := by
  have hw : Width.ofCode (wcode lw) = some (widthOf lw) := by revert hl; revert lw; decide
  unfold decodeHalf
  simp only [halfFields, hw]
  refine ⟨?_, ?_, ?_, ?_, ?_, ?_⟩
  all_goals rintro rfl
  · rfl
  · intro hx
    simp [opRaddr, opStop, opCmd, hx]
  all_goals rfl

theorem validate_addrSize {d : Desc} {k : Backend} (h : d.validate k = none) : d.addrSize ≤ 4 := by
  have hs := validate_shape h
  unfold Desc.checkShape at hs
  repeat' split at hs
  all_goals first
    | (simp at hs; done)
    | omega

theorem validate_dummy {d : Desc} (h : d.validate .B = none) : d.dummyCycles.toNat ≤ 255 := by
  unfold Desc.validate at h
  repeat' split at h
  all_goals first
    | cases h
    | skip
  rename_i hd
  unfold Desc.checkDummy at hd
  split at hd
  · simp at hd
  · rename_i hn
    simp at hn
    exact hn

theorem validate_write {d : Desc} {k : Backend} (h : d.validate k = none) (hp : d.dataPresent = true)
    (hr : d.dirRead = false) : d.dirWrite = true := by
  unfold Desc.validate at h
  repeat' split at h
  all_goals first
    | cases h
    | skip
  unfold Desc.checkBuffer at h
  split at h
  · simp at h
  · rename_i hn
    simp only [hp, hr, Bool.or_false, Bool.true_and] at hn
    cases hw : d.dirWrite with
    | true => rfl
    | false => simp [hw] at hn

/-- The opcodes before the data opcode, and the data opcode, decoded. -/
def Desc.controlB (d : Desc) : List Instr :=
  (if d.instrPresent then [Instr.cmd (widthOf d.instrLw) d.instrContent] else []) ++
  (if d.raddrPresent then [Instr.raddr (widthOf d.addrLw) (BitVec.ofNat 8 d.addrSize)] else []) ++
  (if d.modePresent then [Instr.mode8 (widthOf d.altLw) (d.altContent.setWidth 8)] else []) ++
  (if d.dummyPresent then [Instr.dummy .w4 (d.dummyCycles.setWidth 8)] else [])

def Desc.dataB (d : Desc) : List Instr :=
  if d.dataPresent then
    [if d.dirRead then Instr.read (widthOf d.dataLw) 0 else Instr.write (widthOf d.dataLw) 0] else []

theorem programB_split (d : Desc) : d.programB = d.controlB ++ d.dataB := rfl

/-- Opcode by opcode, the compiled half-words decode to the program. -/
theorem opcodes_decode {d : Desc} (h : d.validate .B = none) :
    List.Forall₂ (fun i x => decodeHalf x = .ok i) d.programB d.opcodes := by
  obtain ⟨h1, h2, h3, h4⟩ := validate_widths h
  have h5 : (BitVec.ofNat 8 d.addrSize).toNat ≤ 4 := by
    have := validate_addrSize h
    simp
    omega
  unfold Desc.programB Desc.opcodes
  refine List.rel_append (List.rel_append (List.rel_append (List.rel_append ?_ ?_) ?_) ?_) ?_
  · split
    · exact .cons ((decodeHalf_op opCmd _ _ h1).1 rfl) .nil
    · exact .nil
  · split
    · exact .cons ((decodeHalf_op opRaddr _ _ h2).2.1 rfl h5) .nil
    · exact .nil
  · split
    · exact .cons ((decodeHalf_op opMode8 _ _ h3).2.2.1 rfl) .nil
    · exact .nil
  · split
    · exact .cons ((decodeHalf_op opDummy 4 _ (by decide)).2.2.2.2.2 rfl) .nil
    · exact .nil
  · split
    · refine .cons ?_ .nil
      cases d.dirRead with
      | true => exact (decodeHalf_op opRead _ _ h4).2.2.2.2.1 rfl
      | false => exact (decodeHalf_op opWrite _ _ h4).2.2.2.1 rfl
    · exact .nil

theorem controlB_length (d : Desc) : d.controlB.length ≤ 4 := by
  unfold Desc.controlB
  simp only [List.length_append]
  repeat' split
  all_goals simp

theorem dataB_length (d : Desc) : d.dataB.length ≤ 1 := by
  unfold Desc.dataB
  split <;> simp

/-- The user sequence holds the compiled program. -/
def loaded (s : State) : Prop := s.b.lut = s.b.lut.loadUser (programWord s.desc.opcodes 0)
  (programWord s.desc.opcodes 1) (programWord s.desc.opcodes 2) (programWord s.desc.opcodes 3)

theorem fetch_loaded (h : loaded s) (hq : s.b.ipSeq = 1) (hs : s.b.slot.toNat < 8) :
    s.fetchHalf = some (slotOf s.desc.opcodes s.b.slot.toNat) := by
  have hg : s.b.lut.get (4 * s.b.ipSeq.toNat + s.b.slot.toNat / 2) =
      some (programWord s.desc.opcodes (s.b.slot.toNat / 2)) := by
    rw [h, hq]
    have hc : s.b.slot.toNat / 2 = 0 ∨ s.b.slot.toNat / 2 = 1 ∨ s.b.slot.toNat / 2 = 2 ∨ s.b.slot.toNat / 2 = 3 := by
      omega
    rcases hc with h | h | h | h <;> (rw [h]; rfl)
  unfold State.fetchHalf
  rw [hg, Option.map_some, programWord]
  split
  · rw [lowHalf_pack, show 2 * (s.b.slot.toNat / 2) = s.b.slot.toNat by omega]
  · rw [highHalf_pack, show 2 * (s.b.slot.toNat / 2) + 1 = s.b.slot.toNat by omega]

/-- What is fetched from a loaded table: the program's instruction, or STOP behind it. -/
theorem fetch_program (h : loaded s) (hv : s.desc.validate .B = none) (hq : s.b.ipSeq = 1)
    (hs : s.b.slot.toNat < 8) : ∃ x, s.fetchHalf = some x ∧
      ((∃ i, s.desc.programB[s.b.slot.toNat]? = some i ∧ decodeHalf x = .ok i) ∨
       (s.desc.programB.length ≤ s.b.slot.toNat ∧ decodeHalf x = .ok .stop)) := by
  refine ⟨_, fetch_loaded h hq hs, ?_⟩
  have hf := opcodes_decode hv
  have hl := hf.length_eq
  unfold slotOf
  by_cases hlt : s.b.slot.toNat < s.desc.programB.length
  · refine .inl ⟨s.desc.programB[s.b.slot.toNat], by simp [hlt], ?_⟩
    have := hf.get hlt (by omega)
    simpa [List.getD_eq_getElem?_getD, List.getElem?_eq_getElem (by omega : s.b.slot.toNat < s.desc.opcodes.length)]
      using this
  · refine .inr ⟨by omega, ?_⟩
    rw [List.getD_eq_default _ _ (by omega)]
    rfl

/-! ## The trace so far -/

/-- The events of one opcode before the data opcode. -/
def Desc.opEvents (d : Desc) : Instr → List Event
  | .cmd w b => [.out w b]
  | .raddr w n => (serialise d.addrContent n.toNat).map (Event.out w)
  | .mode8 w b => [.out w b]
  | .dummy _ c => dmyEvents c.toNat
  | _ => []

/-- `CS_LOW` and the events of the first `k` opcodes. -/
def headB (T : List Event) (d : Desc) (k : Nat) : List Event :=
  headI T ++ (d.controlB.take k).flatMap d.opEvents

/-- The whole trace up to the release of chip-select. -/
def State.bodyB (s : State) (T : List Event) : List Event :=
  headB T s.desc s.desc.controlB.length ++ s.desc.dataEvents (s.bufBytes s.desc.length.toNat)

theorem bodyB_traceB (s : State) (T : List Event) (hv : s.desc.validate .B = none) :
    s.bodyB T ++ [.csHigh] = T ++ s.desc.traceB (s.bufBytes s.desc.length.toNat) := by
  have ha := validate_addrSize hv
  have hd := validate_dummy hv
  have e1 : (BitVec.ofNat 8 s.desc.addrSize).toNat = s.desc.addrSize := by simp; omega
  have e2 : (s.desc.dummyCycles.setWidth 8).toNat = s.desc.dummyCycles.toNat := by simp; omega
  unfold State.bodyB headB headI Desc.traceB
  rw [List.take_length]
  simp only [List.append_assoc]
  congr 2
  unfold Desc.controlB
  simp only [List.flatMap_append, List.append_assoc]
  have c1 : (if s.desc.instrPresent = true then [Instr.cmd (widthOf s.desc.instrLw) s.desc.instrContent] else []).flatMap
      s.desc.opEvents = if s.desc.instrPresent = true then [.out (widthOf s.desc.instrLw) s.desc.instrContent] else [] := by
    split <;> rfl
  have c2 : (if s.desc.raddrPresent = true then [Instr.raddr (widthOf s.desc.addrLw) (BitVec.ofNat 8 s.desc.addrSize)]
      else []).flatMap s.desc.opEvents = if s.desc.raddrPresent = true then
        (serialise s.desc.addrContent s.desc.addrSize).map (Event.out (widthOf s.desc.addrLw)) else [] := by
    split
    · simp [Desc.opEvents, Nat.mod_eq_of_lt (by omega : s.desc.addrSize < 256)]
    · rfl
  have c3 : (if s.desc.modePresent = true then [Instr.mode8 (widthOf s.desc.altLw) (s.desc.altContent.setWidth 8)]
      else []).flatMap s.desc.opEvents = if s.desc.modePresent = true then
        [.out (widthOf s.desc.altLw) (s.desc.altContent.setWidth 8)] else [] := by
    split <;> rfl
  have c4 : (if s.desc.dummyPresent = true then [Instr.dummy .w4 (s.desc.dummyCycles.setWidth 8)] else []).flatMap
      s.desc.opEvents = dmyEvents s.desc.dummyCycles.toNat := by
    by_cases h0 : s.desc.dummyCycles = 0
    · simp [Desc.dummyPresent, h0, dmyEvents]
    · rw [if_pos (by simpa [Desc.dummyPresent] using h0)]
      show dmyEvents _ ++ [] = _
      rw [List.append_nil, e2]
  rw [c1, c2, c3, c4]

/-- The buffer outside the first `k` bytes of a read is what it was. -/
def keptFrom (m : Memory) (s : State) (k : Nat) : Prop :=
  ∀ n, s.desc.dirWrite = true ∨ k ≤ n → Memory.read s.buf n = Memory.read m n

/-- How far the table engine has come. -/
def progressB (T : List Event) (m : Memory) (s : State) : Prop :=
  let n := s.desc.controlB.length
  (s.b.slot.toNat ≤ n ∧ s.b.bidx = 0 ∧ s.trace = headB T s.desc s.b.slot.toNat ∧ s.buf = m) ∨
  (s.desc.dataPresent = true ∧ s.b.slot.toNat = n ∧ s.b.bidx.toNat < s.desc.length.toNat ∧
    s.trace = headB T s.desc n ++ s.desc.dataEvents (s.bufBytes s.b.bidx.toNat) ∧ keptFrom m s s.b.bidx.toNat) ∨
  (s.desc.dataPresent = true ∧ s.b.slot.toNat = n + 1 ∧ s.trace = s.bodyB T ∧ keptFrom m s s.desc.length.toNat)

/-- The request is running. -/
def runningB (T : List Event) (m : Memory) (s : State) : Prop :=
  s.b.sts.busy = true ∧ s.b.sts.done = false ∧ loaded s ∧ s.b.ipSeq = 1 ∧ s.b.ipAddr = s.desc.issueAddr ∧
    s.b.ipXtype = s.desc.issueXtype ∧ s.b.ipLen = s.desc.issueLen ∧
    ((csOff s ∧ s.b.slot = 0 ∧ s.b.bidx = 0 ∧ s.trace = T ∧ s.buf = m) ∨ (csOn s ∧ progressB T m s))

/-- What is on the trace is `CS_LOW`, a beginning of the events of the whole transfer with the bytes `bytes`, and
`tail`. -/
def partB (T : List Event) (s : State) (bytes : List Byte) (tail : List Event) : Prop :=
  ∃ pre rest, s.trace = T ++ .csLow :: pre ++ tail ∧ s.desc.traceB bytes = .csLow :: pre ++ rest ++ [.csHigh]

/-- The request has ended, with a beginning of its events on the trace; if without failure, with all of them. -/
def finishedB (T : List Event) (m : Memory) (s : State) : Prop :=
  let tail := if s.cs.asserted then [] else [Event.csHigh]
  s.b.sts.busy = false ∧ s.b.sts.done = true ∧ bufKept m s ∧
    partB T s (s.bufBytes s.desc.length.toNat) tail ∧ (s.b.sts.fail = false → s.trace = s.bodyB T ++ tail)

/-- What a transfer that has ended leaves: the whole trace and the count, or a hardware failure and a beginning of
the trace. -/
def resultB (T : List Event) (m : Memory) (s : State) : Prop :=
  bufKept m s ∧
  (s.host.resStatus = 0 → s.trace = s.bodyB T ++ [.csHigh] ∧ s.host.resCount = s.desc.okCount .B) ∧
  (s.host.resStatus ≠ 0 → s.host.resStatus = 3 ∧ s.host.resCount = 0 ∧
    ∃ bytes, bytes.length = s.desc.length.toNat ∧
      (s.desc.dirWrite = true → bytes = s.bufBytes s.desc.length.toNat) ∧ partB T s bytes [.csHigh])

/-- Where a transfer that was accepted with the trace `T` and the buffer `m` can stand, and what it has done. -/
def trackedB (T : List Event) (m : Memory) (s : State) : Prop :=
  match s.seq.phase with
  | .pIdle => restB s ∧ s.seq.ops = [] ∧ resultB T m s
  | .pStart =>
    (restB s ∧ s.trace = T ∧ s.buf = m ∧ (s.seq.ops = [] ∨
      s.seq.ops = [.load (programWord s.desc.opcodes 0) (programWord s.desc.opcodes 1)
        (programWord s.desc.opcodes 2) (programWord s.desc.opcodes 3), .issue, .goto .pData] ∨
      (loaded s ∧ s.seq.ops = [.issue, .goto .pData]))) ∨
    ((runningB T m s ∨ finishedB T m s) ∧ s.seq.ops = [.goto .pData])
  | .pInstr => False
  | .pAddr => False
  | .pDummy => False
  | .pData => ((runningB T m s ∨ finishedB T m s) ∧ (s.seq.ops = [] ∨ s.seq.ops = [.wait .done, .goto .pEnd])) ∨
      (finishedB T m s ∧ s.seq.ops = [.goto .pEnd])
  | .pEnd => finishedB T m s ∧ (s.seq.ops = [] ∨ s.seq.ops = [.wait .csReleased, .result] ∨
      (s.cs.asserted = false ∧ s.seq.ops = [.result]))

/-! ## ENGINE's turn -/

/-- An OUT, an IN, a `CS_LOW` before the dummy phase: a `DMY` is appended. -/
theorem headI_firm (T : List Event) (L : List Event) (h : ∀ e ∈ L, ∀ c, e ≠ Event.dmy c) (c : Nat) :
    emitTo (headI T ++ L) (.dmy c) = headI T ++ L ++ dmyEvents c := by
  rcases List.eq_nil_or_concat L with rfl | ⟨l, x, rfl⟩
  · have := dmy_after (X := T) (e := .csLow) (by simp) 0 c
    simpa [headI, dmyEvents] using this
  · have hx := h x (by simp)
    have := dmy_after (X := headI T ++ l) hx 0 c
    rw [List.concat_eq_append]
    simpa [dmyEvents, List.append_assoc] using this

theorem controlB_get {d : Desc} {k : Nat} {i : Instr} (h : d.controlB[k]? = some i) (T : List Event) :
    headB T d (k + 1) = headB T d k ++ d.opEvents i := by
  unfold headB
  rw [List.take_add_one, h]
  simp

/-- The dummy opcode is the last before the data opcode, so no `DMY` precedes it. -/
theorem controlB_dummy {d : Desc} {k : Nat} {w : Width} {c : Byte} (h : d.controlB[k]? = some (.dummy w c)) :
    ∀ e ∈ (d.controlB.take k).flatMap d.opEvents, ∀ c, e ≠ Event.dmy c := by
  set pre := (if d.instrPresent then [Instr.cmd (widthOf d.instrLw) d.instrContent] else []) ++
    (if d.raddrPresent then [Instr.raddr (widthOf d.addrLw) (BitVec.ofNat 8 d.addrSize)] else []) ++
    (if d.modePresent then [Instr.mode8 (widthOf d.altLw) (d.altContent.setWidth 8)] else []) with hpre
  have hq : d.controlB = pre ++ if d.dummyPresent then [Instr.dummy .w4 (d.dummyCycles.setWidth 8)] else [] := rfl
  have hp : ∀ i ∈ pre, (∀ w c, i ≠ .dummy w c) ∧ ∀ e ∈ d.opEvents i, ∀ c, e ≠ Event.dmy c := by
    intro i hi
    rw [hpre] at hi
    simp only [List.mem_append] at hi
    rcases hi with (hi | hi) | hi <;> split at hi <;> simp at hi <;> subst hi <;> simp [Desc.opEvents]
  have hk : pre.length ≤ k := by
    by_contra hlt
    rw [hq, List.getElem?_append_left (by omega)] at h
    exact (hp _ (List.mem_of_getElem? h)).1 _ _ rfl
  have hk2 : k < pre.length + 1 := by
    have := (List.getElem?_eq_some_iff.1 h).1
    rw [hq] at this
    split at this <;> simp at this <;> omega
  rw [hq, List.take_append_of_le_length (by omega)]
  intro e he
  obtain ⟨i, hi, hei⟩ := List.mem_flatMap.1 he
  exact (hp i (List.mem_of_mem_take hi)).2 e hei

/-- An opcode before the data opcode puts its events on the trace and moves on by one slot. -/
theorem exec_control {k : Nat} {i : Instr} (hi : s.desc.controlB[k]? = some i)
    (hv : s.desc.validate .B = none) (ha : s.b.ipAddr = s.desc.issueAddr) (ht : s.trace = headB T s.desc k) :
    exec i s = .next { s with b := { s.b with slot := s.b.slot + 1, bidx := 0 },
                              trace := headB T s.desc (k + 1) } := by
  rw [controlB_get hi, ← ht]
  have hmem := List.mem_of_getElem? hi
  unfold Desc.controlB at hmem
  simp only [List.mem_append] at hmem
  rcases hmem with ((hm | hm) | hm) | hm
  · split at hm
    · simp at hm; subst hm
      simp [exec, execCmd, State.emit, State.advanceSlot, Desc.opEvents]
    · simp at hm
  · split at hm
    · rename_i hr
      simp at hm; subst hm
      have h4 := validate_addrSize hv
      have e : ∀ n, serialise s.b.ipAddr n = serialise s.desc.addrContent n := by
        intro n
        rw [ha, Desc.issueAddr, if_pos hr]
      simp only [exec, execRaddr]
      rw [if_pos (by simp; omega), State.emitAll_eq, foldl_emitTo_out, e]
      rfl
    · simp at hm
  · split at hm
    · simp at hm; subst hm
      simp [exec, execMode8, State.emit, State.advanceSlot, Desc.opEvents]
    · simp at hm
  · split at hm
    · simp at hm; subst hm
      have := headI_firm T _ (controlB_dummy hi) (s.desc.dummyCycles.setWidth 8).toNat
      simp only [exec, execDummy, State.emit, State.advanceSlot, Desc.opEvents]
      rw [ht]
      unfold headB
      rw [this]
    · simp at hm

theorem last_byte {x y : BitVec 32} (h : x.toNat < y.toNat) : x + 1 = y ↔ x.toNat + 1 = y.toNat := by
  constructor
  · intro e
    rw [← e, idx_succ h]
  · intro e
    apply BitVec.eq_of_toNat_eq
    rw [idx_succ h, e]

/-- One byte of the data opcode. -/
theorem exec_data {i : Instr} (hi : s.desc.dataB = [i]) (hv : s.desc.validate .B = none)
    (hw : Memory.wf s.buf = true) (hx : s.b.ipXtype = s.desc.issueXtype) (hl : s.b.ipLen = s.desc.issueLen)
    (hj : s.b.bidx.toNat < s.desc.length.toNat)
    (ht : s.trace = headB T s.desc s.desc.controlB.length ++ s.desc.dataEvents (s.bufBytes s.b.bidx.toNat))
    (hk : keptFrom m s s.b.bidx.toNat) :
    ∃ u e, exec i s = .next u ∧ (u = { s with trace := u.trace, buf := u.buf, env := e, b := u.b }) ∧
      Memory.wf u.buf = true ∧
      u.trace = headB T s.desc s.desc.controlB.length ++ s.desc.dataEvents (u.bufBytes (s.b.bidx.toNat + 1)) ∧
      keptFrom m u (s.b.bidx.toNat + 1) ∧
      u.b = if s.b.bidx.toNat + 1 = s.desc.length.toNat then { s.b with slot := s.b.slot + 1, bidx := 0 }
        else { s.b with bidx := s.b.bidx + 1 } := by
  have hp : s.desc.dataPresent = true := by
    by_contra h
    rw [Desc.dataB, if_neg h] at hi
    simp at hi
  rw [Desc.dataB, if_pos hp] at hi
  rw [Desc.issueLen, if_pos hp] at hl
  have hlt : s.b.bidx < s.b.ipLen := by rw [hl, BitVec.lt_def]; exact hj
  have hadv : ∀ u : State, u.b = s.b → u.dataAdvance = { u with b :=
      if s.b.bidx.toNat + 1 = s.desc.length.toNat then { s.b with slot := s.b.slot + 1, bidx := 0 }
        else { s.b with bidx := s.b.bidx + 1 } } := by
    intro u hu
    unfold State.dataAdvance
    rw [hu, hl]
    by_cases h : s.b.bidx.toNat + 1 = s.desc.length.toNat
    · rw [if_pos ((last_byte hj).2 h), if_pos h]
      simp [State.advanceSlot, hu]
    · rw [if_neg (fun e => h ((last_byte hj).1 e)), if_neg h]
      simp [State.nextBidx, hu]
  have hev : ∀ bs b, s.desc.dataEvents (bs ++ [b]) = s.desc.dataEvents bs ++
      [if s.desc.dirWrite then Event.out (widthOf s.desc.dataLw) b else Event.inp (widthOf s.desc.dataLw) b] := by
    intro bs b
    simp [Desc.dataEvents, hp]
  cases hr : s.desc.dirRead with
  | true =>
    have hdw : s.desc.dirWrite = false := by
      simp only [Desc.dirRead, decide_eq_true_eq] at hr
      simp [Desc.dirWrite, hr]
    rw [hr] at hi
    simp at hi
    subst hi
    have hrw := fun j => Memory.read_write hw s.b.bidx.toNat j s.drawn
    refine ⟨{ s.readByte (widthOf s.desc.dataLw) with b :=
      if s.b.bidx.toNat + 1 = s.desc.length.toNat then { s.b with slot := s.b.slot + 1, bidx := 0 }
        else { s.b with bidx := s.b.bidx + 1 } }, (s.readByte (widthOf s.desc.dataLw)).env, ?_, ?_, ?_, ?_, ?_, ?_⟩
    · simp only [exec, execRead]
      rw [if_neg (by simp [hx, Desc.issueXtype, hp, hr]), if_pos hlt, hadv (s.readByte _) rfl]
    · rfl
    · exact Memory.write_wf hw _ _
    · show emitTo s.trace _ = _ ++ s.desc.dataEvents ((List.range (s.b.bidx.toNat + 1)).map
        (Memory.read (Memory.write s.buf s.b.bidx.toNat s.drawn)))
      have e : (List.range s.b.bidx.toNat).map (Memory.read (Memory.write s.buf s.b.bidx.toNat s.drawn)) =
          s.bufBytes s.b.bidx.toNat := by
        unfold State.bufBytes
        apply List.map_congr_left
        intro j hj
        rw [hrw, if_neg (by have := List.mem_range.1 hj; omega)]
      rw [List.range_succ, List.map_append, e, List.map_singleton, hrw, if_pos rfl, hev, hdw, emitTo_inp, ht,
        List.append_assoc]
      rfl
    · intro n hn
      show Memory.read (Memory.write s.buf s.b.bidx.toNat s.drawn) n = _
      have hn : s.desc.dirWrite = true ∨ s.b.bidx.toNat + 1 ≤ n := hn
      rw [hdw] at hn
      rw [hrw, if_neg (by simp at hn; omega)]
      exact hk n (.inr (by simp at hn; omega))
    · rfl
  | false =>
    have hdw := validate_write hv hp hr
    rw [hr] at hi
    simp at hi
    subst hi
    refine ⟨{ s.emit (.out (widthOf s.desc.dataLw) (s.readBuf s.b.bidx)) with b :=
      if s.b.bidx.toNat + 1 = s.desc.length.toNat then { s.b with slot := s.b.slot + 1, bidx := 0 }
        else { s.b with bidx := s.b.bidx + 1 } }, s.env, ?_, ?_, ?_, ?_, ?_, ?_⟩
    · simp only [exec, execWrite]
      rw [if_neg (by simp [hx, Desc.issueXtype, hp, hr]), if_pos hlt, hadv (s.emit _) rfl]
    · rfl
    · exact hw
    · show emitTo s.trace _ = _ ++ s.desc.dataEvents (s.bufBytes (s.b.bidx.toNat + 1))
      rw [bufBytes_succ, hev, hdw, emitTo_out, ht, List.append_assoc]
      rfl
    · exact fun n _ => hk n (.inl hdw)
    · rfl

/-- Wherever the table engine has come, a beginning of the transfer's events is on the trace. -/
theorem progress_part (hv : s.desc.validate .B = none) (hp : progressB T m s) :
    bufKept m s ∧ partB T s (s.bufBytes s.desc.length.toNat) [] := by
  have hw := bodyB_traceB s [] hv
  unfold State.bodyB headB headI at hw
  rw [List.take_length] at hw
  simp only [List.nil_append, List.cons_append] at hw
  have split_data : ∀ k, k ≤ s.desc.length.toNat → ∃ r, s.desc.dataEvents (s.bufBytes s.desc.length.toNat) =
      s.desc.dataEvents (s.bufBytes k) ++ r := by
    intro k hk
    have e : s.bufBytes s.desc.length.toNat = s.bufBytes k ++ (s.bufBytes s.desc.length.toNat).drop k := by
      conv_lhs => rw [← List.take_append_drop k (s.bufBytes s.desc.length.toNat)]
      simp [State.bufBytes, ← List.map_take, List.take_range, Nat.min_eq_left hk]
    rw [e]
    unfold Desc.dataEvents
    split
    · exact ⟨_, List.map_append⟩
    · exact ⟨[], rfl⟩
  rcases hp with ⟨hle, _, ht, hm⟩ | ⟨hpr, hs, hj, ht, hk⟩ | ⟨hpr, hs, ht, hk⟩
  · refine ⟨fun n _ => congrArg (Memory.read · n) hm, (s.desc.controlB.take s.b.slot.toNat).flatMap s.desc.opEvents,
      (s.desc.controlB.drop s.b.slot.toNat).flatMap s.desc.opEvents ++
        s.desc.dataEvents (s.bufBytes s.desc.length.toNat), ?_, ?_⟩
    · rw [ht]
      simp [headB, headI]
    · rw [← hw]
      conv_lhs => rw [← List.take_append_drop s.b.slot.toNat s.desc.controlB, List.flatMap_append]
      simp
  · obtain ⟨r, hr⟩ := split_data _ (Nat.le_of_lt hj)
    refine ⟨fun n hn => hk n ?_, s.desc.controlB.flatMap s.desc.opEvents ++
      s.desc.dataEvents (s.bufBytes s.b.bidx.toNat), r, ?_, ?_⟩
    · rw [hpr] at hn
      rcases hn with hn | hn | hn
      · cases hn
      · exact .inl hn
      · exact .inr (by omega)
    · rw [ht]
      simp [headB, headI]
    · rw [← hw, hr]
      simp
  · refine ⟨fun n hn => hk n ?_, s.desc.controlB.flatMap s.desc.opEvents ++
      s.desc.dataEvents (s.bufBytes s.desc.length.toNat), [], ?_, ?_⟩
    · rw [hpr] at hn
      simpa using hn
    · rw [ht]
      simp [State.bodyB, headB, headI]
    · rw [← hw]
      simp

theorem ended_finished {f : Bool} (hon : csOn s) (hv : s.desc.validate .B = none) (hp : progressB T m s)
    (h : f = false → s.trace = s.bodyB T) : finishedB T m (s.finish f) := by
  obtain ⟨hk, hpt⟩ := progress_part hv hp
  have e : (if s.cs.asserted then [] else [Event.csHigh]) = [] := by rw [csOn_asserted hon, if_pos rfl]
  refine ⟨rfl, rfl, hk, ?_, fun hf => ?_⟩
  · show partB T s _ (if s.cs.asserted then [] else [.csHigh])
    rw [e]
    exact hpt
  · show s.trace = s.bodyB T ++ if s.cs.asserted then [] else [.csHigh]
    rw [e, List.append_nil]
    exact h hf

theorem progress_done (hp : progressB T m s) (h : s.desc.programB.length ≤ s.b.slot.toNat) :
    s.trace = s.bodyB T := by
  rw [programB_split, List.length_append] at h
  have hdl : s.desc.dataPresent = true → s.desc.dataB.length = 1 := fun hp => by rw [Desc.dataB, if_pos hp]; rfl
  rcases hp with ⟨hle, _, ht, hm⟩ | ⟨hpr, hs, _⟩ | ⟨hpr, hs, ht, hk⟩
  · have hn : s.desc.dataPresent = false := by
      cases hpr : s.desc.dataPresent with
      | false => rfl
      | true => have := hdl hpr; omega
    have : s.b.slot.toNat = s.desc.controlB.length := by omega
    rw [ht, this, State.bodyB, Desc.dataEvents, hn]
    simp
  · have := hdl hpr
    omega
  · exact ht

/-- ENGINE's turn during a transfer. -/
theorem trackB_running (h : runningB T m s) (hon : csOn s) (hi : Inv s) (hk : s.params.backend = .B)
    (hx : s.host.st = .xfer) : ∃ t, s.engineB = .next t ∧
      (runningB T m t ∨ finishedB T m t) ∧ t.desc = s.desc ∧ t.seq = s.seq ∧ t.host = s.host := by
  obtain ⟨hb, hdn, hld, hq, ha, hxt, hlen, hpos⟩ := id h
  have hv : s.desc.validate .B = none := by have := hi.valid hx; rwa [hk] at this
  have hpr : progressB T m s := by
    rcases hpos with ⟨hoff, _⟩ | ⟨_, hp⟩
    · rcases hoff with e | e <;> rcases hon with e' | e' <;> simp [e] at e'
    · exact hp
  have hend : ∀ f, (f = false → s.trace = s.bodyB T) →
      ∃ t, (Host.Outcome.next (s.finish f) : Host.Outcome State Fault Refusal) = .next t ∧
        (runningB T m t ∨ finishedB T m t) ∧ t.desc = s.desc ∧ t.seq = s.seq ∧ t.host = s.host :=
    fun f hf => ⟨_, rfl, .inr (ended_finished hon hv hpr hf), rfl, rfl, rfl⟩
  have hprog : s.desc.programB.length ≤ 5 := by
    have h1 := controlB_length s.desc
    have h2 := dataB_length s.desc
    rw [programB_split, List.length_append]
    omega
  unfold State.engineB
  split
  · exact ⟨s, rfl, .inl h, rfl, rfl, rfl⟩
  split
  · exact hend true (by simp)
  split
  · rename_i hs
    exact hend false fun _ => progress_done hpr (by omega)
  rename_i hs
  obtain ⟨x, hf, hx⟩ := fetch_program hld hv hq (by omega)
  rw [hf]
  simp only [decode_lut_half]
  rcases hx with ⟨i, hgi, hdi⟩ | ⟨hge, hdi⟩
  · rw [hdi]
    simp only
    rcases Nat.lt_or_ge s.b.slot.toNat s.desc.controlB.length with hlt | hge
    · -- an opcode before the data opcode
      rw [programB_split, List.getElem?_append_left hlt] at hgi
      rcases hpr with ⟨hle, hbi, ht, hm⟩ | ⟨_, hs2, _⟩ | ⟨_, hs2, _⟩
      · refine ⟨_, exec_control hgi hv ha ht, .inl ⟨hb, hdn, hld, hq, ha, hxt, hlen, .inr ⟨hon, .inl
          ⟨?_, rfl, ?_, hm⟩⟩⟩, rfl, rfl, rfl⟩
        · show (s.b.slot + 1).toNat ≤ _
          rw [BitVec.toNat_add]
          simp
          omega
        · show headB T s.desc (s.b.slot.toNat + 1) = headB T s.desc (s.b.slot + 1).toNat
          congr 1
          rw [BitVec.toNat_add]
          simp
          omega
      · omega
      · omega
    · -- the data opcode
      rw [programB_split, List.getElem?_append_right hge] at hgi
      have hd1 := dataB_length s.desc
      have hlt := (List.getElem?_eq_some_iff.1 hgi).1
      have hsl : s.b.slot.toNat = s.desc.controlB.length := by omega
      have hdata : s.desc.dataB = [i] := by
        obtain ⟨j, hj⟩ := List.length_eq_one_iff.1 (by omega : s.desc.dataB.length = 1)
        rw [hj, hsl, Nat.sub_self] at hgi
        simp at hgi
        rw [hj, hgi]
      have hpp : s.desc.dataPresent = true := by
        by_contra hn
        rw [Desc.dataB, if_neg hn] at hdata
        simp at hdata
      have hpos : 0 < s.desc.length.toNat := by
        simp only [Desc.dataPresent, decide_eq_true_eq] at hpp
        have h0 := hpp.1
        by_contra hn
        exact h0 (BitVec.eq_of_toNat_eq (by simp; omega))
      have hstate : s.b.bidx.toNat < s.desc.length.toNat ∧ s.trace = headB T s.desc s.desc.controlB.length ++
          s.desc.dataEvents (s.bufBytes s.b.bidx.toNat) ∧ keptFrom m s s.b.bidx.toNat := by
        rcases hpr with ⟨hle, hbi, ht, hm⟩ | ⟨_, _, hj, ht, hkf⟩ | ⟨_, hs2, _⟩
        · rw [hbi]
          refine ⟨by simpa using hpos, ?_, fun n _ => congrArg (Memory.read · n) hm⟩
          rw [ht, hsl]
          simp [State.bufBytes, Desc.dataEvents]
        · exact ⟨hj, ht, hkf⟩
        · omega
      obtain ⟨hj, ht, hkf⟩ := hstate
      obtain ⟨u, e, he, hu, _, htr, hkf', hub⟩ := exec_data hdata hv hi.buf hxt hlen hj ht hkf
      have f1 : u.desc = s.desc := by rw [hu]
      have f2 : u.seq = s.seq := by rw [hu]
      have f3 : u.host = s.host := by rw [hu]
      have f4 : u.cs = s.cs := by rw [hu]
      have fon : csOn u := by unfold csOn; rw [f4]; exact hon
      refine ⟨u, he, .inl ?_, f1, f2, f3⟩
      unfold runningB loaded
      rw [f1]
      by_cases hlast : s.b.bidx.toNat + 1 = s.desc.length.toNat
      · rw [if_pos hlast] at hub
        rw [hlast] at htr hkf'
        refine ⟨by rw [hub]; exact hb, by rw [hub]; exact hdn, by rw [hub]; exact hld, by rw [hub]; exact hq,
          by rw [hub]; exact ha, by rw [hub]; exact hxt, by rw [hub]; exact hlen, .inr ⟨fon, .inr (.inr ?_)⟩⟩
        refine ⟨by rw [f1]; exact hpp, ?_, ?_, by rw [f1]; exact hkf'⟩
        · rw [hub, f1]
          show (s.b.slot + 1).toNat = _
          rw [BitVec.toNat_add]
          simp
          omega
        · rw [State.bodyB, f1]
          exact htr
      · rw [if_neg hlast] at hub
        have hb1 : u.b.bidx.toNat = s.b.bidx.toNat + 1 := by
          rw [hub]
          exact idx_succ hj
        refine ⟨by rw [hub]; exact hb, by rw [hub]; exact hdn, by rw [hub]; exact hld, by rw [hub]; exact hq,
          by rw [hub]; exact ha, by rw [hub]; exact hxt, by rw [hub]; exact hlen, .inr ⟨fon, .inr (.inl ?_)⟩⟩
        refine ⟨by rw [f1]; exact hpp, ?_, ?_, ?_, ?_⟩
        · rw [hub, f1]
          exact hsl
        · rw [hb1, f1]
          omega
        · rw [hb1, f1]
          exact htr
        · rw [hb1]
          exact hkf'
  · rw [hdi]
    exact hend false fun _ => progress_done hpr hge

theorem trackB_carry {t : State} (h : trackedB T m s) (hs : t.seq = s.seq) (hd : t.desc = s.desc)
    (hh : t.host = s.host) (hbuf : restB s → t.buf = s.buf) (hrest : restB s → restB t ∧ t.trace = s.trace)
    (hl : loaded s → loaded t)
    (hrun : runningB T m s → runningB T m t ∨ finishedB T m t) (hfin : finishedB T m s → finishedB T m t)
    (hoff : s.cs.asserted = false → s.b.sts.busy = false → t.cs.asserted = false) : trackedB T m t := by
  unfold trackedB at h ⊢
  rw [hs, hd]
  have hr : runningB T m s ∨ finishedB T m s → runningB T m t ∨ finishedB T m t := fun x => x.elim hrun (.inr ∘ hfin)
  split
  all_goals rename_i hph
  all_goals rw [hph] at h
  all_goals simp only at h
  · obtain ⟨q, ho, hz⟩ := h
    refine ⟨(hrest q).1, ho, ?_⟩
    have hb := hbuf q
    unfold resultB bufKept partB State.bodyB State.bufBytes at hz ⊢
    rw [hd, hb, hh, (hrest q).2]
    exact hz
  · rcases h with ⟨q, ht, hb, ho⟩ | ⟨q, ho⟩
    · exact .inl ⟨(hrest q).1, by rw [(hrest q).2, ht], by rw [hbuf q, hb], ho.imp id (Or.imp id (And.imp_left hl))⟩
    · exact .inr ⟨hr q, ho⟩
  · exact h.imp (And.imp_left hr) (And.imp_left hfin)
  · exact ⟨hfin h.1, h.2.imp id (Or.imp id fun x => ⟨hoff x.1 h.1.1, x.2⟩)⟩

theorem trackB_engine (h : trackedB T m s) (hi : Inv s) (hk : s.params.backend = .B) :
    ∃ t, s.engineB = .next t ∧ trackedB T m t := by
  by_cases hon : s.tableOn = true
  · have hon' : s.b.sts.busy = true ∧ s.cs = .active := by
      simp only [State.tableOn, Bool.and_eq_true, decide_eq_true_eq] at hon
      exact hon.1
    have hrun : runningB T m s := by
      have nr : ¬ restB s := fun q => by simp [q.2] at hon'
      have nf : ¬ finishedB T m s := fun q => by simp [q.1] at hon'
      unfold trackedB at h
      split at h
      · exact absurd h.1 nr
      · rcases h with h | h
        · exact absurd h.1 nr
        · exact h.1.resolve_right nf
      · exact h.elim
      · exact h.elim
      · exact h.elim
      · rcases h with h | h
        · exact h.1.resolve_right nf
        · exact absurd h.1 nf
      · exact absurd h.1 nf
    have hx : s.host.st = .xfer := by
      refine hi.running.2 fun hph => ?_
      unfold trackedB at h
      rw [hph] at h
      have := h.1.2
      simp [this] at hon'
    obtain ⟨t, e, hc, h1, h2, h3⟩ := trackB_running hrun (.inr hon'.2) hi hk hx
    refine ⟨t, e, trackB_carry h h2 h1 h3 (fun q => by simp [q.2] at hon') (fun q => by simp [q.2] at hon') ?_
      (fun _ => hc) (fun q => by simp [q.1] at hon') (fun _ hf => by simp [hf] at hon')⟩
    intro hl
    rcases hc with hc | hc
    · exact hc.2.2.1
    · obtain ⟨u, e', _, hu⟩ := engineB_outcome hi.toBase fun _ => hrun.2.2.2.1
      rw [e] at e'
      cases e'
      rcases hu with rfl | ⟨_, hu, _⟩
      · exact hl
      · unfold loaded
        rw [hu.lut, hu.desc]
        exact hl
  · refine ⟨s, ?_, h⟩
    unfold State.engineB
    rw [if_pos (by simpa using hon)]

/-! ## The chip-select machine's turn -/

theorem trackB_cs (h : trackedB T m s) (hk : s.params.backend = .B) : trackedB T m s.csTurn := by
  have hreq : s.csReq = s.b.sts.busy := by simp [State.csReq, hk]
  have e : ∃ c t, s.csTurn = { s with cs := c, trace := t } := by
    obtain ⟨c, t, e, _⟩ := csTurn_cases s
    exact ⟨c, t, e⟩
  obtain ⟨c, t, e⟩ := e
  have ht : s.csTurn.trace = t := by rw [e]
  have hc : s.csTurn.cs = c := by rw [e]
  rw [e]
  refine trackB_carry h rfl rfl rfl (fun _ => rfl) ?_ id ?_ ?_ ?_
  · intro q
    have hb := q.2
    have : (c = .idle ∨ c = .interval) ∧ t = s.trace := by
      rw [← ht, ← hc]
      unfold State.csTurn State.csRise
      rcases q.1 with hcs | hcs <;> rw [hcs] <;> simp [hreq, hb, hcs]
    exact ⟨⟨this.1, hb⟩, this.2⟩
  · rintro ⟨hb, hdn, hld, hq, ha, hxt, hlen, hpos⟩
    refine .inl ⟨hb, hdn, hld, hq, ha, hxt, hlen, ?_⟩
    rcases hpos with ⟨hoff, hs, hbi, htr, hm⟩ | ⟨hon, hp⟩
    · rcases hoff with hcs | hcs
      · right
        have h1 : c = .setup ∧ t = s.trace ++ [.csLow] := by
          rw [← ht, ← hc]
          unfold State.csTurn State.csRise
          rw [hcs]
          simp [hreq, hb, State.emit]
        refine ⟨.inl h1.1, .inl ⟨?_, hbi, ?_, hm⟩⟩
        · show s.b.slot.toNat ≤ _
          rw [hs]
          exact Nat.zero_le _
        · show t = headB T s.desc s.b.slot.toNat
          rw [h1.2, htr, hs]
          simp [headB, headI]
      · left
        have h1 : c = .idle ∧ t = s.trace := by
          rw [← ht, ← hc]
          unfold State.csTurn
          rw [hcs]
          exact ⟨rfl, rfl⟩
        exact ⟨.inl h1.1, hs, hbi, h1.2.trans htr, hm⟩
    · right
      have h1 : c = .active ∧ t = s.trace := by
        rw [← ht, ← hc]
        unfold State.csTurn
        rcases hon with hcs | hcs <;> rw [hcs] <;> simp [hreq, hb, hcs]
      refine ⟨.inr h1.1, ?_⟩
      have ht2 := h1.2
      subst ht2
      exact hp
  · rintro ⟨hb, hdn, hkp, ⟨pre, rest, htr, hpre⟩, hf⟩
    have step : ∀ L : List Event, s.trace = L ++ (if s.cs.asserted then [] else [.csHigh]) →
        t = L ++ if c.asserted then [] else [.csHigh] := by
      intro L htr
      rw [← ht, ← hc]
      unfold State.csTurn State.csRise
      cases hcs : s.cs <;> rw [hcs] at htr <;>
        simp only [CsState.asserted, if_true, Bool.false_eq_true, if_false] at htr <;>
        simp [hreq, hb, hcs, htr, CsState.asserted, State.emit]
    exact ⟨hb, hdn, hkp, ⟨pre, rest, step _ htr, hpre⟩, fun h0 => step _ (hf h0)⟩
  · intro hoff hb
    show c.asserted = false
    rw [← hc]
    unfold State.csTurn State.csRise
    cases hcs : s.cs <;> rw [hcs] at hoff <;> simp [CsState.asserted] at hoff <;>
      simp [hreq, hb, hcs, CsState.asserted]

/-! ## SEQ's turn -/

/-- What the result of a request that has ended leaves in BUF, on the trace and in the result registers. -/
theorem finished_result (hf : finishedB T m s) (hk : s.params.backend = .B) (hw : Memory.wf s.buf = true)
    (hoff : s.cs.asserted = false) : resultB T m s.endTransfer := by
  obtain ⟨_, _, hkp, hpt, hok⟩ := hf
  rw [hoff] at hpt hok
  simp only [Bool.false_eq_true, if_false] at hpt hok
  unfold State.endTransfer
  simp only [hk]
  cases hfl : s.b.sts.fail with
  | false => exact ⟨hkp, fun _ => ⟨hok hfl, rfl⟩, fun h => absurd rfl h⟩
  | true =>
    rw [if_pos (by simp)]
    refine ⟨?_, fun h => absurd h (by simp [State.raise, ErrorKind.code]), fun _ => ⟨rfl, rfl,
      s.bufBytes s.desc.length.toNat, ?_, ?_, ?_⟩⟩
    · unfold State.havocBuf
      split
      · rename_i hr
        intro n hn
        show Memory.read (Memory.fill s.buf _ s.desc.length.toNat) n = _
        have hr' : s.desc.dataPresent = true ∧ s.desc.dirRead = true := by simpa using hr
        have hdw : s.desc.dirWrite = false := by
          have := hr'.2
          simp only [Desc.dirRead, decide_eq_true_eq] at this
          simp [Desc.dirWrite, this]
        have hn' : s.desc.dataPresent = false ∨ s.desc.dirWrite = true ∨ s.desc.length.toNat ≤ n := hn
        rw [hr'.1, hdw] at hn'
        rw [Memory.read_fill hw, if_neg (by simp at hn'; omega)]
        exact hkp n hn
      · exact hkp
    · rw [bufBytes_length]
      unfold State.havocBuf
      split <;> rfl
    · intro hdw
      have hdr : s.desc.dirRead = false := by
        have hdw' : s.desc.dirWrite = true := by
          unfold State.havocBuf at hdw
          split at hdw <;> exact hdw
        simp only [Desc.dirWrite, decide_eq_true_eq] at hdw'
        simp [Desc.dirRead, hdw']
      unfold State.havocBuf
      rw [if_neg (by show ¬(s.desc.dataPresent && s.desc.dirRead) = true; simp [hdr])]
      rfl
    · unfold State.havocBuf
      split <;> exact hpt

theorem trackB_seq (h : trackedB T m s) (hk : s.params.backend = .B) (hw : Memory.wf s.buf = true)
    (hph : s.seq.phase ≠ .pIdle) :
    ∃ t, s.seqTurn = .next t ∧ trackedB T m t := by
  unfold trackedB at h
  split at h
  · rename_i e; exact absurd e hph
  · rename_i hs
    have mk : ∀ {t : State}, t.seq.phase = .pStart →
        ((restB t ∧ t.trace = T ∧ t.buf = m ∧ (t.seq.ops = [] ∨
          t.seq.ops = [.load (programWord t.desc.opcodes 0) (programWord t.desc.opcodes 1)
            (programWord t.desc.opcodes 2) (programWord t.desc.opcodes 3), .issue, .goto .pData] ∨
          (loaded t ∧ t.seq.ops = [.issue, .goto .pData]))) ∨
        ((runningB T m t ∨ finishedB T m t) ∧ t.seq.ops = [.goto .pData])) → trackedB T m t := by
      intro t h1 h2
      unfold trackedB
      rw [h1]
      exact h2
    rcases h with ⟨hr, ht, hm, ho | ho | ⟨hl, ho⟩⟩ | ⟨hc, ho⟩
    · refine ⟨_, seqTurn_nilB ho hk, ?_⟩
      unfold State.seqB
      rw [hs]
      exact mk hs (.inl ⟨hr, ht, hm, .inr (.inl rfl)⟩)
    · refine ⟨_, seqTurn_cons ho, ?_⟩
      exact mk hs (.inl ⟨hr, ht, hm, .inr (.inr ⟨rfl, rfl⟩)⟩)
    · refine ⟨_, seqTurn_cons ho, ?_⟩
      show trackedB T m (s.issueOps [.goto .pData]).issueRequest
      unfold State.issueRequest
      rcases State.csRise_cases ({ s.issueOps [.goto .pData] with b := { s.b with
          ipAddr := s.desc.issueAddr, ipXtype := s.desc.issueXtype, ipSeq := 1, ipLen := s.desc.issueLen
          sts := { done := false, fail := false, busy := true }, slot := 0, bidx := 0 } }) with ⟨_, _, e⟩ | ⟨hno, e⟩
      · refine (congrArg (trackedB T m) e).mpr ?_
        refine mk hs (.inr ⟨.inl ⟨rfl, rfl, hl, rfl, rfl, rfl, rfl, .inr ⟨.inl rfl, .inl ⟨Nat.zero_le _, rfl, ?_, hm⟩⟩⟩, rfl⟩)
        show s.trace ++ [.csLow] = headB T s.desc 0
        rw [ht]
        simp [headB, headI]
      · refine (congrArg (trackedB T m) e).mpr ?_
        exact mk hs (.inr ⟨.inl ⟨rfl, rfl, hl, rfl, rfl, rfl, rfl, .inl ⟨hr.1, rfl, rfl, ht, hm⟩⟩, rfl⟩)
    · refine ⟨_, seqTurn_cons ho, ?_⟩
      show trackedB T m ((s.issueOps []).goto .pData)
      unfold trackedB
      exact .inl ⟨hc, .inl rfl⟩
  · exact h.elim
  · exact h.elim
  · exact h.elim
  · rename_i hs
    have mk : ∀ l, (((runningB T m s ∨ finishedB T m s) ∧ (l = [] ∨ l = [.wait .done, .goto .pEnd])) ∨
      (finishedB T m s ∧ l = [.goto .pEnd])) → trackedB T m (s.issueOps l) := by
      intro l h2
      unfold trackedB
      show match s.seq.phase with | .pIdle => _ | .pStart => _ | .pInstr => _ | .pAddr => _ | .pDummy => _ | .pData => _ | .pEnd => _
      rw [hs]
      exact h2
    rcases h with ⟨hc, ho | ho⟩ | ⟨hf, ho⟩
    · refine ⟨_, seqTurn_nilB ho hk, ?_⟩
      unfold State.seqB
      rw [hs]
      exact mk _ (.inl ⟨hc, .inr rfl⟩)
    · rw [seqTurn_cons ho, runOp_wait]
      refine ⟨_, rfl, ?_⟩
      split
      · rename_i hw
        have hdn : s.b.sts.done = true := hw
        refine mk _ (.inr ⟨hc.resolve_left fun q => ?_, rfl⟩)
        simp [q.2.1] at hdn
      · have := mk [.wait .done, .goto .pEnd] (.inl ⟨hc, .inr rfl⟩)
        unfold State.issueOps at this
        rw [← ho] at this
        exact this
    · refine ⟨_, seqTurn_cons ho, ?_⟩
      show trackedB T m ((s.issueOps []).goto .pEnd)
      unfold trackedB
      exact ⟨hf, .inl rfl⟩
  · rename_i hs
    have mk : ∀ l, (finishedB T m s ∧ (l = [] ∨ l = [.wait .csReleased, .result] ∨
      (s.cs.asserted = false ∧ l = [.result]))) → trackedB T m (s.issueOps l) := by
      intro l h2
      unfold trackedB
      show match s.seq.phase with | .pIdle => _ | .pStart => _ | .pInstr => _ | .pAddr => _ | .pDummy => _ | .pData => _ | .pEnd => _
      rw [hs]
      exact h2
    obtain ⟨hf, ho | ho | ⟨hoff, ho⟩⟩ := h
    · refine ⟨_, seqTurn_nilB ho hk, ?_⟩
      unfold State.seqB
      rw [hs]
      exact mk _ ⟨hf, .inr (.inl rfl)⟩
    · rw [seqTurn_cons ho, runOp_wait]
      refine ⟨_, rfl, ?_⟩
      split
      · rename_i hw
        exact mk _ ⟨hf, .inr (.inr ⟨by simpa [State.holds] using hw, rfl⟩)⟩
      · have := mk [.wait .csReleased, .result] ⟨hf, .inr (.inl rfl)⟩
        unfold State.issueOps at this
        rw [← ho] at this
        exact this
    · refine ⟨_, seqTurn_cons ho, ?_⟩
      show trackedB T m (s.issueOps []).endTransfer
      obtain ⟨f1, f2, f3, f4, f5, f6⟩ := endTransfer_frame (s := s.issueOps [])
      unfold trackedB
      rw [f5]
      refine ⟨?_, f6, finished_result hf hk hw hoff⟩
      unfold restB csOff
      rw [f3, f4]
      exact ⟨asserted_off hoff, hf.1⟩

/-- The inputs may change at any time. -/
theorem trackB_setPins (h : trackedB T m s) (p : Pins) : trackedB T m (s.setPins p) := h

/-- A transfer just accepted. -/
theorem trackB_accepted (hi : Inv s) (hk : s.params.backend = .B) (hx : s.host.st ≠ .xfer) :
    trackedB s.trace s.buf ((s.setRun .xfer).goto .pStart) := by
  have hph := hi.idle_phase hx
  have hp := hi.pointB hk
  simp only [pointB, hph] at hp
  unfold trackedB
  exact .inl ⟨hp.1, rfl, rfl, .inl rfl⟩

end Sys2Proof.Machine
end

