-- ==== Sys2Proof/Laws/TraceRun.lean ====
section
/-! SUPPORT. What any turn can do from the invariant, that no agent changes the descriptor or the parameters, and that
a run of the agents keeps what has been put on the trace. -/

namespace Sys2Proof.Machine

variable {s : State} {T : List Event} {m : Memory}

/-- A turn from the invariant keeps it, or stops in one of the ways of R273 and R277. -/
theorem turn_outcome (h : Inv s) (x : Turn) :
    match s.turn x with
    | .next t => Inv t
    | .fault f => (f = .unwrittenDescriptor ∧ ∃ n v, x = .host (.writeReg n v)) ∨
        (f = .txOverflow ∧ x = .seq ∧ s.params.backend = .A ∧ s.seq.phase = .pAddr ∧
          s.params.txDepth < s.desc.addrSize + s.desc.altSize)
    | .refused r => (∃ act, x = .host act) ∧
        (r = .commandDuringTransfer ∨ r = .unknownCommand ∨ r = .hostBlocked ∨ r = .readOnlyRegister ∨
          r = .writeOnlyRegister ∨ r = .noSuchRegister) := by
  cases x with
  | host act =>
    have := hostTurn_inv h act
    simp only [State.turn]
    cases e : s.hostTurn act with
    | next t => rw [e] at this; exact this
    | fault f =>
      rw [e] at this
      refine .inl ⟨this, ?_⟩
      cases act with
      | writeReg n v => exact ⟨n, v, rfl⟩
      | readReg n =>
        simp only [State.hostTurn, State.hostRead] at e
        repeat' split at e
        all_goals cases e
      | writeBuf i b =>
        simp only [State.hostTurn, State.hostWriteBuf] at e
        split at e <;> cases e
      | readBuf i =>
        simp only [State.hostTurn, State.hostReadBuf] at e
        split at e <;> cases e
    | refused r => rw [e] at this; exact ⟨⟨act, rfl⟩, this⟩
  | seq =>
    simp only [State.turn]
    by_cases hph : s.seq.phase = .pIdle
    · rw [seqTurn_idle h hph]; exact h
    · cases hk : s.params.backend with
      | B => obtain ⟨t, e, ht⟩ := seq_invB h hk hph; rw [e]; exact ht
      | A =>
        have : seqOutcome s s.seqTurn := by
          cases hp : s.seq.phase with
          | pIdle => exact absurd hp hph
          | pStart => exact seq_start h hk hp
          | pInstr => exact seq_instr h hk hp
          | pAddr => exact seq_addr h hk hp
          | pDummy => exact seq_dummy h hk hp
          | pData =>
            cases hd : s.desc.dirWrite with
            | true => exact seq_write h hk hp hd
            | false => exact seq_read h hk hp hd
          | pEnd => exact seq_end h hk hp
        cases e : s.seqTurn with
        | next t => rw [e] at this; exact this
        | fault f => rw [e] at this; exact .inr ⟨this.1, by trivial, by trivial, this.2⟩
        | refused r => rw [e] at this; exact this.elim
  | engine =>
    simp only [State.turn, State.engineTurn]
    cases hk : s.params.backend with
    | A => exact engineA_inv h hk
    | B => obtain ⟨t, e, ht⟩ := engineB_inv h hk; simp only [e]; exact ht
  | cs =>
    simp only [State.turn]
    cases hk : s.params.backend with
    | A => exact csTurn_invA h hk
    | B => exact csTurn_invB h hk
  | setPins p => exact h.setEnv _
  | reset => exact resetTurn_inv h

/-! ## The descriptor and the parameters -/

theorem advance_desc : s.dataAdvance.desc = s.desc ∧ s.dataAdvance.params = s.params := by
  unfold State.dataAdvance
  split <;> exact ⟨rfl, rfl⟩

/-- No instruction changes the descriptor or the parameters (R8, R23, R48). -/
theorem exec_desc {i : Instr} {t : State} (h : exec i s = .next t) : t.desc = s.desc ∧ t.params = s.params := by
  cases i <;> simp only [exec, execStop, execCmd, execRaddr, execMode8, execDummy, execWrite, execRead, execConfigure,
    execTransfer, execFlush, execClrflags, execEnable, execSetctl, execPush, execPop, execAStart, execAInstr, execAAddr,
    execADummy, execADataW, execADataR, execAEnd] at h <;> (try split at h) <;> (try split at h) <;> (try split at h) <;>
    cases h
  all_goals first
    | exact ⟨rfl, rfl⟩
    | exact advance_desc
    | (rw [State.emitAll_eq]; exact ⟨rfl, rfl⟩)
    | (unfold State.havocConfig; simp only; split <;> exact ⟨rfl, rfl⟩)
    | (unfold State.applyConfig State.applyConfigA State.applyConfigB; split <;> exact ⟨rfl, rfl⟩)

theorem runLine_desc {op : SeqOp} : (s.runLine op).desc = s.desc ∧ (s.runLine op).params = s.params := by
  cases op <;> simp only [State.runLine, State.csRise, State.issueRequest, State.endTransfer, State.havocBuf] <;>
    (repeat' split) <;> first | exact ⟨rfl, rfl⟩ | exact ⟨trivial, trivial⟩

/-- The engine never writes a descriptor field, and no agent a parameter (R23, R48). -/
theorem turn_desc {t : State} {x : Turn} (ha : agentTurn x = true) (h : s.turn x = .next t) :
    t.desc = s.desc ∧ t.params = s.params := by
  cases x with
  | host a => simp [agentTurn] at ha
  | reset => simp [agentTurn] at ha
  | setPins p =>
    simp only [State.turn] at h
    cases h
    exact ⟨rfl, rfl⟩
  | cs =>
    simp only [State.turn] at h
    cases h
    obtain ⟨c, t, e, _⟩ := csTurn_cases s
    rw [e]
    exact ⟨rfl, rfl⟩
  | engine =>
    simp only [State.turn, State.engineTurn] at h
    split at h
    · cases h
      rcases engineA_cases s with e | ⟨b, rest, _, _, _, _, e⟩ | ⟨_, _, _, _, e⟩
      · rw [e]
        exact ⟨rfl, rfl⟩
      · rw [e]
        unfold State.txFrame
        simp only
        split <;> exact ⟨rfl, rfl⟩
      · obtain ⟨b, t, n, e'⟩ := rxFrame_eq s
        rw [e, e']
        exact ⟨rfl, rfl⟩
    · unfold State.engineB at h
      repeat' split at h
      all_goals first
        | exact exec_desc h
        | (cases h <;> exact ⟨rfl, rfl⟩)
  | seq =>
    simp only [State.turn, State.seqTurn] at h
    split at h
    · unfold State.runOp at h
      split at h
      · split at h
        · have hd := exec_desc h
          exact hd
        · cases h
      · cases h
        split <;> exact ⟨rfl, rfl⟩
      · cases h
        exact runLine_desc (s := s.issueOps _)
    · split at h
      · cases h
        unfold State.seqB
        split <;> exact ⟨rfl, rfl⟩
      · split at h
        · exact exec_desc h
        · cases h
          exact ⟨rfl, rfl⟩

/-! ## Runs -/

theorem turn_trackedA {t : State} {x : Turn} (hi : Inv s) (hk : s.params.backend = .A) (ha : agentTurn x = true)
    (h : s.turn x = .next t) (htr : trackedA T m s) : Inv t ∧ trackedA T m t := by
  have hI : Inv t := by have := turn_outcome hi x; rw [h] at this; exact this
  refine ⟨hI, ?_⟩
  cases x with
  | host a => simp [agentTurn] at ha
  | reset => simp [agentTurn] at ha
  | setPins p => simp only [State.turn] at h; cases h; exact htr
  | cs => simp only [State.turn] at h; cases h; exact track_cs htr hi hk
  | engine => simp only [State.turn, State.engineTurn, hk] at h; cases h; exact track_engine htr hi hk
  | seq =>
    by_cases hp : s.seq.phase = .pIdle
    · simp only [State.turn, seqTurn_idle hi hp] at h; cases h; exact htr
    · have := track_seq htr hi hk hp
      simp only [State.turn] at h; rw [h] at this; exact this

theorem turn_trackedB {t : State} {x : Turn} (hi : Inv s) (hk : s.params.backend = .B) (ha : agentTurn x = true)
    (h : s.turn x = .next t) (htr : trackedB T m s) : Inv t ∧ trackedB T m t := by
  have hI : Inv t := by have := turn_outcome hi x; rw [h] at this; exact this
  refine ⟨hI, ?_⟩
  cases x with
  | host a => simp [agentTurn] at ha
  | reset => simp [agentTurn] at ha
  | setPins p => simp only [State.turn] at h; cases h; exact htr
  | cs => simp only [State.turn] at h; cases h; exact trackB_cs htr hk
  | engine =>
    obtain ⟨u, e, hu⟩ := trackB_engine htr hi hk
    simp only [State.turn, State.engineTurn, hk] at h
    rw [e] at h
    cases h
    exact hu
  | seq =>
    by_cases hp : s.seq.phase = .pIdle
    · simp only [State.turn, seqTurn_idle hi hp] at h; cases h; exact htr
    · obtain ⟨u, e, hu⟩ := trackB_seq htr hk hi.buf hp
      simp only [State.turn] at h; rw [e] at h; cases h; exact hu

/-- A run of the agents from an accepted Backend A transfer. -/
theorem turns_trackedA {t : State} {ts : List Turn} (hi : Inv s) (hk : s.params.backend = .A)
    (ha : ∀ x ∈ ts, agentTurn x = true) (h : s.turns ts = .next t) (htr : trackedA T m s) :
    Inv t ∧ trackedA T m t ∧ t.desc = s.desc := by
  induction ts generalizing s with
  | nil => simp only [State.turns] at h; cases h; exact ⟨hi, htr, rfl⟩
  | cons x ts ih =>
    simp only [State.turns] at h
    cases e : s.turn x with
    | next u =>
      rw [e] at h
      obtain ⟨h1, h2⟩ := turn_trackedA hi hk (ha x (by simp)) e htr
      obtain ⟨h3, h4⟩ := turn_desc (ha x (by simp)) e
      have := ih h1 (by rw [h4]; exact hk) (fun y hy => ha y (by simp [hy])) h h2
      rw [h3] at this; exact this
    | fault f => rw [e] at h; cases h
    | refused f => rw [e] at h; cases h

/-- A run of the agents from an accepted Backend B transfer. -/
theorem turns_trackedB {t : State} {ts : List Turn} (hi : Inv s) (hk : s.params.backend = .B)
    (ha : ∀ x ∈ ts, agentTurn x = true) (h : s.turns ts = .next t) (htr : trackedB T m s) :
    Inv t ∧ trackedB T m t ∧ t.desc = s.desc := by
  induction ts generalizing s with
  | nil => simp only [State.turns] at h; cases h; exact ⟨hi, htr, rfl⟩
  | cons x ts ih =>
    simp only [State.turns] at h
    cases e : s.turn x with
    | next u =>
      rw [e] at h
      obtain ⟨h1, h2⟩ := turn_trackedB hi hk (ha x (by simp)) e htr
      obtain ⟨h3, h4⟩ := turn_desc (ha x (by simp)) e
      have := ih h1 (by rw [h4]; exact hk) (fun y hy => ha y (by simp [hy])) h h2
      rw [h3] at this; exact this
    | fault f => rw [e] at h; cases h
    | refused f => rw [e] at h; cases h

/-- A TRANSFER that starts: the state it gives, and that its descriptor passed validation (R133). -/
theorem transfer_accepted {u : State} (hi : Inv s) (h0 : s.host.st = .idle) (h : exec .transfer s = .next u)
    (hx : u.host.st = .xfer) : u = (s.setRun .xfer).goto .pStart ∧ Inv u ∧ s.desc.validate s.params.backend = none := by
  have h2 := transfer_inv hi (by simp [h0])
  simp only [exec] at h
  have hI : Inv u := by
    rcases h2 with ⟨t, e, ht⟩ | e
    · rw [h] at e; cases e; exact ht
    · rw [h] at e; cases e
  unfold execTransfer at h
  rw [h0] at h
  simp only at h
  split at h
  · cases h
  · cases h; simp [State.raise, h0] at hx
  · rename_i hv; cases h; exact ⟨rfl, hI, verdict_accepted hv⟩

end Sys2Proof.Machine
end

