-- ==== Sys2Proof/Laws/Turns.lean ====
section
/-! SUPPORT. Runs: a list of turns taken apart. -/

namespace Sys2Proof.Machine

theorem State.turns_cons {s t : State} {x : Turn} {xs : List Turn} (h : s.turn x = .next t) :
    s.turns (x :: xs) = t.turns xs := by
  simp only [State.turns, h]

theorem State.turns_append {s t : State} {xs ys : List Turn} (h : s.turns xs = .next t) :
    s.turns (xs ++ ys) = t.turns ys := by
  induction xs generalizing s with
  | nil =>
    simp only [State.turns] at h
    cases h
    rfl
  | cons x xs ih =>
    simp only [State.turns] at h
    cases hx : s.turn x with
    | next u =>
      rw [hx] at h
      rw [List.cons_append, State.turns_cons hx]
      exact ih h
    | fault f => rw [hx] at h; cases h
    | refused r => rw [hx] at h; cases h

end Sys2Proof.Machine
end

