-- ==== Sys2Proof/Tests/Slice0.lean ====
section
/-! SUPPORT. The model's own tests: ill-formed instructions, the words of the spec's encodings, single steps with
the values of spec/95_test_vectors.md, and a witness for the hypotheses of every statement. -/

namespace Sys2Proof.Tests

open Sys2Proof.Machine

/-! ## Small states -/

/-- A descriptor whose eight registers have all been written. -/
def written (d0 d1 d2 d3 d4 d5 d6 d7 : Word) : Desc :=
  { d0 := d0, d1 := d1, d2 := d2, d3 := d3, d4 := d4, d5 := d5, d6 := d6, d7 := d7, written := 0xFF }

/-- All phases absent. -/
def dNone : Desc := written 0 0 0 0 0 0 0 0
/-- `{I=0x06/1}` -/
def dInstr : Desc := written 0x106 0 0 0 0 0 0 0
/-- `{I=0xEB/4, A=0x123456:3/4, M=0xA0:1/4, D=4, X=read:2/4}` -/
def dRead : Desc := written 0x4EB 0x123456 0x43 0xA0 0x401 4 0x45 2
/-- the same, `X=write:2/4` -/
def dWrite : Desc := written 0x4EB 0x123456 0x43 0xA0 0x401 4 0x46 2

/-- A configured instance between transfers. -/
def idle (k : Backend) (d : Desc) : State :=
  { State.reset with
    params := { Params.default with backend := k, txDepth := 4, rxDepth := 4 }
    host := { State.reset.host with st := .idle, configured := true }
    desc := d
    b := { State.reset.b with lut := { State.reset.b.lut with w0 := 0x2400049F } } }

/-- Backend A inside a transfer at phase `p`, chip-select asserted, the next lines `ops`. -/
def atA (d : Desc) (p : Phase) (ops : List SeqOp) : State :=
  { idle .A d with
    host := { State.reset.host with st := .xfer, configured := true }
    seq := { phase := p, idx := 0, ops := ops, popData := 0 }
    a := { State.reset.a with en := true, tcr := { State.reset.a.tcr with cont := true, contc := true } }
    cs := .active }

/-- Backend B inside a transfer, the table engine running at slot 0 (V13: ADDR 0x123456, LEN 2, BUF 0x11, 0x22). -/
def atB (d : Desc) (x : Xtype) (word : Word) : State :=
  { idle .B d with
    host := { State.reset.host with st := .xfer, configured := true }
    seq := { phase := .pData, idx := 0, ops := [], popData := 0 }
    b := { State.reset.b with
      lut := { State.reset.b.lut with w0 := 0x2400049F, w4 := word }, ipSeq := 1, ipAddr := 0x123456, ipXtype := x
      ipLen := 2, sts := { done := false, fail := false, busy := true } }
    cs := .active
    buf := [(0, 0x11), (1, 0x22)] }

/-- The outcome is a next state in which `p` holds. -/
def nextWith (o : Host.Outcome State Fault Refusal) (p : State → Bool) : Bool :=
  match o with
  | .next t => p t
  | .fault _ => false
  | .refused _ => false

theorem nextWith_exists {o : Host.Outcome State Fault Refusal} {p : State → Bool} (h : nextWith o p = true) :
    ∃ t, o = .next t ∧ p t = true := by
  cases o with
  | next t => exact ⟨t, rfl, h⟩
  | fault f => cases h
  | refused r => cases h

/-! ## Well-formedness: an ill-formed instruction for each check -/

theorem test_wf_raddr_five_bytes : (Instr.raddr .w1 5).wellFormed = false := by decide
theorem test_wf_raddr_four_bytes : (Instr.raddr .w1 4).wellFormed = true := by decide
theorem test_wf_setctl_both_masks : (Instr.setctl false false true true true true .w4).wellFormed = false := by decide

/-! ## Words written out from spec/opcode_table.json and V5 -/

theorem test_decode_stop : decode ⟨.lut, 0b000000_00_00000000⟩ = .ok .stop := by decide
theorem test_decode_cmd : decode ⟨.lut, 0b000001_00_10011111⟩ = .ok (.cmd .w1 0x9F) := by decide
theorem test_decode_cmd_two_lines : decode ⟨.lut, 0x05FF⟩ = .ok (.cmd .w2 0xFF) := by decide
theorem test_decode_raddr : decode ⟨.lut, 0b000010_10_00000011⟩ = .ok (.raddr .w4 3) := by decide
theorem test_decode_mode8 : decode ⟨.lut, 0b000111_10_10100000⟩ = .ok (.mode8 .w4 0xA0) := by decide
theorem test_decode_write : decode ⟨.lut, 0b001000_00_00000000⟩ = .ok (.write .w1 0) := by decide
theorem test_decode_read : decode ⟨.lut, 0b001001_10_00000000⟩ = .ok (.read .w4 0) := by decide
theorem test_decode_dummy : decode ⟨.lut, 0b001100_10_11111111⟩ = .ok (.dummy .w4 255) := by decide
theorem test_decode_configure : decode ⟨.cmd, 1⟩ = .ok .configure := by decide
theorem test_decode_transfer : decode ⟨.cmd, 2⟩ = .ok .transfer := by decide
theorem test_decode_flush : decode ⟨.ctl .cr, 0b11_0000_0001⟩ = .ok (.flush true) := by decide
theorem test_decode_clrflags : decode ⟨.ctl .sr, 0b1111⟩ = .ok .clrflags := by decide
theorem test_decode_enable : decode ⟨.ctl .cr, 1⟩ = .ok .enable := by decide
theorem test_decode_setctl_send :
    decode ⟨.ctl .tcr, 0b00_00_0111_0011_1010⟩ = .ok (.setctl false false true true true false .w4) := by decide
theorem test_decode_setctl_request_mode3 :
    decode ⟨.ctl .tcr, 0xC735⟩ = .ok (.setctl true true true true false true .w2) := by decide
theorem test_decode_push : decode ⟨.ctl .tdr, 0x9F⟩ = .ok (.push 0x9F) := by decide
theorem test_decode_pop : decode ⟨.ctl .rdr, 0⟩ = .ok (.pop 0) := by decide
theorem test_decode_steps :
    decode ⟨.seq false, 1⟩ = .ok .aStart ∧ decode ⟨.seq false, 2⟩ = .ok .aInstr ∧
    decode ⟨.seq false, 3⟩ = .ok .aAddr ∧ decode ⟨.seq false, 4⟩ = .ok .aDummy ∧
    decode ⟨.seq true, 5⟩ = .ok .aDataW ∧ decode ⟨.seq false, 5⟩ = .ok .aDataR ∧
    decode ⟨.seq false, 6⟩ = .ok .aEnd := by decide
/-- The illegal rows of V13. -/
theorem test_decode_illegal :
    decode ⟨.lut, 0x0805⟩ = .error .raddrOperand ∧ decode ⟨.lut, 0x0700⟩ = .error .reservedWidth ∧
    decode ⟨.lut, 0x0001⟩ = .error .stopOperand ∧ decode ⟨.lut, 0x0300⟩ = .error .stopOperand ∧
    decode ⟨.lut, 0x0C00⟩ = .error .reservedOp ∧ decode ⟨.lut, 0xFFFF⟩ = .error .reservedOp := by decide
theorem test_decode_no_step : decode ⟨.seq true, 0⟩ = .error .noStep ∧ decode ⟨.seq true, 7⟩ = .error .noStep := by
  decide

/-! ## Operands: V1, V2, V11 -/

theorem test_serialise : serialise 0x123456 3 = [0x12, 0x34, 0x56] ∧ serialise 0x123456 2 = [0x34, 0x56] ∧
    serialise 0xA5 6 = [0, 0, 0, 0, 0, 0xA5] := by decide
theorem test_compile_odd : (written 0x103 0x100 0x13 0 0 0 0x15 2).compile = [0x08030403, 0x00002400, 0, 0] := by decide
/-- R113: an illegal half-word (0x0406 is CMD 6, 0x0C00 is not assigned) is listed with its fields. -/
theorem test_decode_seq_illegal : decodeSeq [0x0C000406, 0] = [⟨1, 0, 6⟩, ⟨3, 0, 0⟩] := by decide
theorem test_compile_longest :
    (written 0x4EB 0x01020304 0x44 0xFF 0x401 255 0x16 1).compile = [0x0A0406EB, 0x32FF1EFF, 0x00002000, 0] := by
  decide
/-- V7 rows 1, 3, 5, 7, 9, 13, 16 and the accepted rows 8, 12. -/
theorem test_validate :
    (written 0x39F 0 0 0 0 0 0 0).validate .A = some .badWidth ∧
    (written 0 0 0 0 0 0 0x73 0).validate .B = some .badWidth ∧
    (written 0 0 0x15 0 0 0 0 0).validate .A = some .addrSize ∧
    (written 0 0 0x10 0 0x102 0 0 0).validate .B = some .altSize ∧
    (written 0 0 0x10 0 0x102 0 0 0).validate .A = none ∧
    (written 0 0 0x14 0 0x11D 0 0 0).validate .A = some .scratchOverflow ∧
    (written 0 0 0x04 0 0x11D 0 0 0).validate .A = none ∧
    (written 0 0 0 0 0 256 0 0).validate .B = some .dummyRange ∧
    (written 0 0 0 0 0 0 0x11 4).validate .A = some .noBuffer := by decide

/-! ## Single steps: V8, V13, V14 -/

/-- V8 row 3. -/
theorem test_configure_mode3 :
    nextWith (exec .configure { State.reset with host := { State.reset.host with cfgArg1 := 3 } })
      (fun t => decide (t.a.tcr.toWord = 0xC700 ∧ t.host.st = .idle ∧ t.trace = [])) = true := by decide
/-- V8 row 4. -/
theorem test_configure_backend_b :
    nextWith (exec .configure { State.resetWith { Params.default with backend := .B } with
        host := { State.reset.host with cfgArg0 := 0x00800000, cfgArg1 := 0x00020303 } })
      (fun t => decide (t.b.mcr.toWord = 7 ∧ t.b.flashSize = 0x00800000 ∧ t.b.flshcr1.toWord = 0x00020303 ∧
        t.b.lut.w0 = 0x2400049F)) = true := by decide
/-- V8 row 6. -/
theorem test_transfer_before_configure :
    nextWith (exec .transfer State.reset) (fun t => decide (t.host.resStatus = 4 ∧ t.host.st = .uninit)) = true := by
  decide
theorem test_transfer_malformed :
    nextWith (exec .transfer (idle .A (written 0x39F 0 0 0 0 0 0 0)))
      (fun t => decide (t.host.resStatus = 2 ∧ t.host.resCause = 1 ∧ t.host.st = .idle)) = true := by decide
theorem test_transfer_unwritten :
    exec .transfer (idle .A { dInstr with written := 0xFE }) = .fault .unwrittenDescriptor := rfl
/-- V13 row 1. -/
theorem test_stop : nextWith ((atB dRead .read 0x0000).turn .engine)
    (fun t => decide (t.b.sts.toWord = 1 ∧ t.b.slot = 0)) = true := by decide
theorem test_cmd : nextWith ((atB dRead .read 0x049F).turn .engine)
    (fun t => decide (t.trace = [.out .w1 0x9F] ∧ t.b.slot = 1)) = true := by decide
theorem test_raddr : nextWith ((atB dRead .read 0x0804).turn .engine)
    (fun t => decide (t.trace = [.out .w1 0x00, .out .w1 0x12, .out .w1 0x34, .out .w1 0x56])) = true := by decide
theorem test_mode8 : nextWith ((atB dRead .read 0x1EA0).turn .engine)
    (fun t => decide (t.trace = [.out .w4 0xA0])) = true := by decide
/-- The width field of DUMMY is not used. -/
theorem test_dummy : nextWith ((atB dRead .read 0x3008).turn .engine)
    (fun t => decide (t.trace = [.dmy 8])) = true := by decide
theorem test_write : nextWith ((atB dWrite .write 0x2200).turn .engine)
    (fun t => decide (t.trace = [.out .w4 0x11] ∧ t.b.bidx = 1 ∧ t.b.slot = 0)) = true := by decide
theorem test_write_on_read_request : nextWith ((atB dRead .read 0x2200).turn .engine)
    (fun t => decide (t.b.sts.toWord = 3 ∧ t.trace = [])) = true := by decide
theorem test_read : nextWith ((atB dRead .read 0x2401).turn .engine)
    (fun t => decide (t.trace.length = 1 ∧ t.b.bidx = 1 ∧ t.b.slot = 0)) = true := by decide
/-- V14. -/
theorem test_flush : nextWith (exec (.flush true) { State.reset with
      a := { State.reset.a with txf := [0x11], rxf := [0x22, 0x33] } })
    (fun t => decide (t.a.fsrWord = 0)) = true := by decide
theorem test_clrflags : nextWith (exec .clrflags { State.reset with
      a := { State.reset.a with sr := { frameDone := true, xferDone := true, txErr := false, rxErr := false } } })
    (fun t => decide (t.a.srWord = 0)) = true := by decide
theorem test_enable : nextWith (exec .enable State.reset) (fun t => decide (t.a.crWord = 1)) = true := by decide
theorem test_setctl : nextWith (exec (.setctl false false false false true false .w4) (atA dInstr .pInstr []))
    (fun t => decide (t.a.tcr.toWord = 0x073A)) = true := by decide
theorem test_push : nextWith (exec (.push 0x9F) (atA dInstr .pInstr []))
    (fun t => decide (t.a.txf = [0x9F] ∧ t.a.fsrWord = 1)) = true := by decide
theorem test_push_full : exec (.push 0) { atA dInstr .pInstr [] with
    a := { State.reset.a with txf := [1, 2, 3, 4] } } = .fault .txOverflow := rfl
theorem test_pop : nextWith (exec (.pop 0) { State.reset with a := { State.reset.a with rxf := [0xC2] } })
    (fun t => decide (t.a.rxf = [] ∧ t.seq.popData = 0xC2)) = true := by decide
theorem test_tx_frame : nextWith (State.turn { atA dInstr .pInstr [] with
      a := { (atA dInstr .pInstr []).a with
        txf := [0x9F, 0x01], tcr := { (atA dInstr .pInstr []).a.tcr with rxmsk := true } } } .engine)
    (fun t => decide (t.trace = [.out .w1 0x9F] ∧ t.a.txf = [0x01] ∧ t.a.rxf = [])) = true := by decide
theorem test_dummy_frame : nextWith (State.turn { atA dRead .pDummy [] with
      a := { (atA dRead .pDummy []).a with tcr := { (atA dRead .pDummy []).a.tcr with width := .w4, txmsk := true } } }
        .engine)
    (fun t => decide (t.trace = [.dmy 2] ∧ t.a.rxf.length = 1 ∧ t.a.tcr.toWord = 0x0732)) = true := by decide
/-- A host write of CMD with the code 3 (V8 row 7). -/
theorem test_unknown_command : State.reset.turn (.host (.writeReg 0 3)) = .refused .unknownCommand := rfl
/-- R70: the host reads a byte of BUF. -/
theorem test_read_buf : nextWith ({ State.reset with buf := [(3, 0xA5)] }.turn (.host (.readBuf 3)))
    (fun t => decide (t.host.rdata = 0xA5 ∧ t.buf = [(3, 0xA5)])) = true := by decide
/-- R23: a host write marks its register as written, and no other. -/
theorem test_write_marks : nextWith (State.reset.turn (.host (.writeReg 0x0B 5)))
    (fun t => decide (t.desc.d3 = 5 ∧ t.desc.has 3 = true ∧ t.desc.has 2 = false ∧ t.desc.has 4 = false)) = true := by
  decide
/-- R300: a reset during a transfer empties the trace, and the peripheral has still seen what it cut. -/
theorem test_reset_cut : nextWith (State.turn { atA dInstr .pInstr [] with trace := [.csLow, .out .w1 6] } .reset)
    (fun t => decide (t.trace = [] ∧ t.csPin = true ∧ t.env.past = [[.csLow, .out .w1 6]])) = true := by decide
theorem test_chip_select : nextWith (State.turn { atA dInstr .pEnd [] with cs := .hold } .cs)
    (fun t => decide (t.trace = [.csHigh] ∧ t.cs = .interval)) = true := by decide

/-! ## Witnesses: a state and operands that meet the hypotheses of each statement -/

/-- The base of the invariant, tested. -/
def baseOk (s : State) : Bool :=
  s.params.wf && decide (s.host.configured = true ↔ s.host.st ≠ .uninit) &&
  decide (s.host.st = .xfer ↔ s.seq.phase ≠ .pIdle) &&
  decide (s.host.st = .xfer → s.desc.validate s.params.backend = none) &&
  decide (s.a.txf.length ≤ s.params.txDepth ∧ s.a.rxf.length ≤ s.params.rxDepth) &&
  decide (s.a.tcr.framesz = 7 ∧ s.a.tcr.pcs = 0 ∧ s.a.shiftBusy = false) &&
  decide (s.b.lut.w0 = s.params.boot0 ∧ s.b.lut.w1 = s.params.boot1 ∧ s.b.lut.w2 = s.params.boot2 ∧
    s.b.lut.w3 = s.params.boot3) &&
  Memory.wf s.buf && Memory.wf s.a.scratch && normalTrace s.trace

theorem base_of {s : State} (h : baseOk s = true) : Base s := by
  simp only [baseOk, Bool.and_eq_true, decide_eq_true_eq] at h
  obtain ⟨⟨⟨⟨⟨⟨⟨⟨⟨h1, h2⟩, h3⟩, h4⟩, h5⟩, h6⟩, h7⟩, h8⟩, h9⟩, h10⟩ := h
  exact ⟨h1, h2, h3, h4, h5.1, h5.2, ⟨h6.1, h6.2.1⟩, h6.2.2, fun _ _ => h7, h8, h9, h10⟩

theorem idleA_inv {d : Desc} : Inv (idle .A d) :=
  .mkA (base_of (by simp [baseOk, idle, State.reset, State.resetWith, Params.default, Params.wf, Memory.wf,
    normalTrace])) rfl (pointA_idle rfl ⟨.inl rfl, ⟨rfl, rfl, rfl⟩, rfl, rfl⟩ rfl)

theorem idleB_inv {d : Desc} : Inv (idle .B d) :=
  .mkB (base_of (by simp [baseOk, idle, State.reset, State.resetWith, Params.default, Params.wf, Memory.wf,
    normalTrace])) rfl (pointB_idle rfl ⟨.inl rfl, rfl⟩ rfl)

theorem witness_DecodeOfEncode : (Instr.raddr .w4 4).wellFormed = true ∧
    (Instr.setctl true true true true false true .w4).wellFormed = true := by decide
theorem witness_EncodeOfDecode : decode ⟨.lut, 0x0804⟩ = .ok (.raddr .w1 4) ∧
    decode ⟨.seq true, 1⟩ = .ok .aStart := by decide
/-- An even and an odd slot, the first and the last of five opcodes. -/
theorem witness_SlotPlacement : (written 0x4EB 0 0x44 0xFF 0x401 255 0x16 1).opcodes.length = 5 := by decide
theorem witness_CompileRoundTrip : (written 0x4EB 0 0x44 0xFF 0x401 255 0x16 1).validate .B = none ∧
    (written 0x4EB 0 0x44 0xFF 0x401 255 0x16 1).opcodes.length ≤ 5 := by decide
theorem witness_ConfigureBackendA : State.reset.params.backend = .A ∧ State.reset.host.st ≠ .xfer ∧
    State.reset.host.configured = false ∧ State.reset.env.pins.initFail = false := by decide
theorem witness_ConfigureBackendB :
    let s := State.resetWith { Params.default with backend := .B }
    s.params.backend = .B ∧ s.host.st ≠ .xfer ∧ s.host.configured = false ∧ s.env.pins.initFail = false := by decide
theorem witness_ConfigureAgain : (idle .A dInstr).host.st ≠ .xfer ∧ (idle .A dInstr).host.configured = true := by
  decide
theorem witness_ConfigureFails :
    let s := State.reset.setPins { stall := false, initFail := true, extFail := false }
    s.host.st ≠ .xfer ∧ s.host.configured = false ∧ s.env.pins.initFail = true := by decide
theorem witness_TransferRejected : State.reset.host.st = .uninit ∧
    (idle .A (written 0 0 0x15 0 0 0 0 0)).host.st = .idle ∧ (written 0 0 0x15 0 0 0 0 0).written = 0xFF ∧
    (written 0 0 0x15 0 0 0 0 0).validate .A = some .addrSize := by decide
theorem witness_TransferAccepted : (idle .B dRead).host.st = .idle ∧ dRead.written = 0xFF ∧
    dRead.validate .B = none := by decide
/-- D0 unwritten; a valid descriptor with D7, D5, D1 or D3 unwritten; the buffer check with D7, or on Backend B D5,
unwritten; the dummy check with D5 unwritten; nothing unwritten. -/
theorem witness_TransferUnwritten : (idle .A { dRead with written := 0xFE }).host.st = .idle ∧
    { dRead with written := 0xFE }.has 0 = false ∧ dRead.validate .A = none ∧
    { dRead with written := 0x7F }.has 7 = false ∧ { dRead with written := 0xDF }.has 5 = false ∧
    dRead.usesAddr .A = true ∧ { dRead with written := 0xFD }.has 1 = false ∧
    dRead.usesAlt .A = true ∧ { dRead with written := 0xF7 }.has 3 = false ∧
    (written 0 0 0 0 0 0 0x11 4).validate .B = some .noBuffer ∧
    (written 0 0 0 0 0 256 0 0).validate .B = some .dummyRange ∧ dRead.written = 0xFF := by decide
/-- D1 unwritten and not used is no fault. -/
theorem test_transfer_unused_unwritten :
    nextWith (exec .transfer (idle .A { dInstr with written := 0xF5 })) (fun t => decide (t.host.st = .xfer)) = true := by
  decide
theorem witness_HostBlocked : (atA dInstr .pInstr []).host.st = .xfer ∧ (3 : Word) ≠ 1 ∧ (3 : Word) ≠ 2 ∧
    (1 : BitVec 8) ≠ 0 := by decide
/-- Registers that are read and not written (1, 0x10); the last of each backend's table and the first numbers outside
it; not the command register; one of each backend. -/
theorem witness_HostRegisters : State.reset.host.st ≠ .xfer ∧ (∃ v, State.reset.regImage 0x01 = some v) ∧
    (∃ v, State.reset.regImage 0x16 = some v) ∧ State.reset.regImage 0x17 = none ∧ (0x17 : BitVec 8) ≠ 0 ∧
    (idle .B dNone).regImage 0x1F = none ∧ (∃ v, (idle .B dNone).regImage 0x20 = some v) ∧
    (∃ v, (idle .B dNone).regImage 0x27 = some v) ∧ (idle .B dNone).regImage 0x28 = none ∧
    (0x01 : BitVec 8).toNat < 4 ∧ 16 ≤ (0x10 : BitVec 8).toNat ∧ Memory.wf State.reset.buf = true ∧
    State.reset.params.backend = .A ∧ (idle .B dNone).params.backend = .B :=
  ⟨by decide, ⟨_, rfl⟩, ⟨_, rfl⟩, rfl, by decide, rfl, ⟨_, rfl⟩, ⟨_, rfl⟩, rfl, by decide, by decide, rfl, rfl, rfl⟩
theorem witness_FifoStatus : Inv (idle .A dInstr) ∧ (idle .A dInstr).params.backend = .A := ⟨idleA_inv, rfl⟩
/-- Backend A; Backend B without and with a failure, of a read of two bytes and of a write. -/
theorem witness_TransferResult : (atA dInstr .pEnd [.result]).seq.ops = [.result] ∧
    (atA dInstr .pEnd [.result]).params.backend = .A ∧
    (atB dRead .read 0).params.backend = .B ∧ (atB dRead .read 0).b.sts.fail = false ∧
    ((atB dRead .read 0).finish true).b.sts.fail = true ∧
    ((atB dRead .read 0).issueOps [.result]).seq.ops = [.result] ∧ Memory.wf (atB dRead .read 0).buf = true ∧
    dRead.dataPresent = true ∧ dRead.direction = 1 ∧ dRead.length.toNat = 2 ∧ dWrite.direction ≠ 1 ∧
    dInstr.dataPresent = false := by decide

/-- A.START about to flush. -/
theorem witness_FlushOperation : ∃ s : State, Inv s ∧ s.params.backend = .A ∧
    ∃ e rest, s.seq.ops = flushOp e :: rest := by
  refine ⟨{ atA dInstr .pStart [flushOp false, clrflagsOp, enableOp, .contOn, .wait .csAsserted, .goto .pInstr] with
    a := State.reset.a, cs := .idle }, .mkA (base_of (by decide)) rfl ?_, rfl, _, _, rfl⟩
  exact pointA_start rfl (.inl ⟨⟨.inl rfl, ⟨rfl, rfl, rfl⟩, rfl, rfl⟩, .inr (.inl ⟨_, rfl⟩)⟩)

theorem witness_EnableOperation : (atA dInstr .pInstr []).a.en = true ∧
    nextWith ((atA dInstr .pInstr []).turn .seq) (fun t => t.a.en) = true ∧
    State.reset.params.backend = .A ∧ State.reset.a.en = false := by decide

/-- A.INSTR about to write the width. -/
theorem witness_NoControlChangeOverQueue : ∃ (s : State) (v : Word) (rest : List SeqOp), Inv s ∧
    s.params.backend = .A ∧ s.seq.ops = .ctl .tcr v :: rest ∧
    decode ⟨.ctl .tcr, v⟩ = .ok (.setctl false false true true true false .w1) := by
  refine ⟨atA dInstr .pInstr [setctlOp (atA dInstr .pInstr []).a.tcr dInstr.instrLw true false, pushOp 6,
    .wait .txDrained, .goto .pAddr], 0x0738, _, .mkA (base_of (by decide)) rfl ?_, rfl, rfl, by decide⟩
  exact pointA_instr rfl (.inr (.inl ⟨⟨⟨rfl, rfl, rfl⟩, .inr rfl, rfl, rfl, rfl⟩, _, _, rfl⟩))

theorem witness_PushOperation : (atA dInstr .pInstr []).a.txf.length < (atA dInstr .pInstr []).params.txDepth ∧
    (atA dInstr .pInstr []).params.txDepth ≤ [1, 2, 3, 4].length := by decide

/-- A dummy round about to pop its one byte. -/
theorem witness_PopOperation : ∃ (s : State) (rest : List SeqOp), Inv s ∧ s.params.backend = .A ∧
    s.seq.ops = popOp :: rest ∧ s.a.rxf = [0xC2] := by
  refine ⟨{ atA dRead .pDummy [popOp, .nextIdx] with a := { (atA dRead .pDummy []).a with rxf := [0xC2] } }, _,
    .mkA (base_of (by decide)) rfl ?_, rfl, rfl, rfl⟩
  exact pointA_dummy rfl (.inr (.inr (.inr (.inl ⟨⟨⟨rfl, rfl, rfl⟩, .inr rfl, rfl, rfl, rfl⟩, rfl⟩))))

/-- Receive masked, receive open with room, receive open without room. -/
theorem witness_TxFrame :
    let s := atA dInstr .pInstr []
    s.params.backend = .A ∧ s.a.en = true ∧ s.cs = .active ∧ s.env.pins.stall = false ∧ s.a.tcr.txmsk = false ∧
    s.a.tcr.rxmsk = false ∧ s.a.rxf.length < s.params.rxDepth ∧ s.params.rxDepth ≤ [1, 2, 3, 4].length := by decide
theorem witness_RxFrame :
    let s := (atA dRead .pDummy []).setCtl .w4 false true
    s.params.backend = .A ∧ s.a.en = true ∧ s.cs = .active ∧ s.env.pins.stall = false ∧ s.a.txf = [] ∧
    s.a.tcr.txmsk = true ∧ s.a.rxf.length < s.params.rxDepth ∧ s.params.rxDepth ≤ [1, 2, 3, 4].length := by decide
theorem witness_EngineHolds : State.reset.cs ≠ .active ∧ (atA dInstr .pInstr []).a.txf = [] ∧
    (atA dInstr .pInstr []).a.tcr.txmsk = false ∧ ((atA dInstr .pInstr []).pushTx 6).a.txf ≠ [] ∧
    ((atA dInstr .pInstr []).setCtl .w1 false true).a.tcr.txmsk = true ∧ (idle .B dRead).b.sts.busy = false := by
  decide
theorem witness_AStartStep :
    let s := { atA dInstr .pStart [] with cs := .idle }
    s.params.backend = .A ∧ s.seq.phase = .pStart ∧ s.seq.ops = [] ∧ s.cs = .idle ∧
    (s.issueOps [.wait .csAsserted]).seq.ops = [.wait .csAsserted] ∧ (s.issueOps [.wait .csAsserted]).cs = .idle := by
  decide
theorem witness_AInstrStep :
    let s := atA dInstr .pInstr []
    dInstr.instrLw ≠ 0 ∧ dNone.instrLw = 0 ∧ s.params.backend = .A ∧ s.seq.phase = .pInstr ∧ s.seq.ops = [] ∧
    s.desc.instrLw.toNat = Width.w1.lines ∧ s.a.en = true ∧ s.cs = .active ∧ s.env.pins.stall = false ∧
    s.a.txf = [] ∧ 0 < s.params.txDepth ∧ s.a.shiftBusy = false ∧
    ((s.pushTx 6).issueOps [.wait .txDrained]).seq.ops = [.wait .txDrained] ∧
    ((s.pushTx 6).issueOps [.wait .txDrained]).a.txf ≠ [] := by decide
/-- Four bytes into a FIFO of depth four. -/
theorem witness_AAddrStep :
    let s := atA dRead .pAddr []
    dNone.addrPresent = false ∧ s.params.backend = .A ∧ s.seq.phase = .pAddr ∧ s.seq.ops = [] ∧
    s.desc.addrPresent = true ∧ s.desc.addrLw.toNat = Width.w4.lines ∧ s.desc.addrSize + s.desc.altSize ≤ 32 ∧
    s.desc.addrSize + s.desc.altSize ≤ s.params.txDepth ∧ Memory.wf s.a.scratch = true ∧ s.a.en = true ∧
    s.cs = .active ∧ s.env.pins.stall = false ∧ s.a.txf = [] ∧ s.a.shiftBusy = false := by decide
/-- Five bytes into a FIFO of depth four. -/
theorem witness_AddressOverflow :
    let s := atA (written 0 0x123456 0x44 0xA0 0x401 0 0 0) .pAddr []
    s.params.backend = .A ∧ s.seq.phase = .pAddr ∧ s.seq.ops = [] ∧ s.desc.addrPresent = true ∧
    lwLegal s.desc.addrLw = true ∧ s.desc.addrSize + s.desc.altSize ≤ 32 ∧ s.a.txf = [] ∧
    s.params.txDepth + 1 = s.desc.addrSize + s.desc.altSize := by decide
/-- Four cycles are two rounds, so round 0 runs; one cycle is none. -/
theorem witness_ADummyStep :
    let s := atA dRead .pDummy []
    s.params.backend = .A ∧ s.seq.phase = .pDummy ∧ s.seq.ops = [] ∧
    s.seq.idx.toNat < s.desc.dummyCycles.toNat / 2 ∧ s.a.en = true ∧ s.cs = .active ∧ s.env.pins.stall = false ∧
    s.a.txf = [] ∧ s.a.rxf = [] ∧ 0 < s.params.rxDepth ∧
    (written 0 0 0 0 0 1 0 0).dummyCycles.toNat / 2 ≤ (0 : BitVec 32).toNat ∧
    (s.issueOps [.wait .rxAvail]).seq.ops = [.wait .rxAvail] ∧ (s.issueOps [.wait .rxAvail]).a.rxf = [] := by decide
theorem witness_ADataWriteStep :
    let s := atA dWrite .pData []
    s.params.backend = .A ∧ s.seq.phase = .pData ∧ s.seq.ops = [] ∧ s.desc.direction = 2 ∧
    s.desc.dataPresent = true ∧ s.desc.dataLw.toNat = Width.w4.lines ∧ s.seq.idx.toNat < s.desc.length.toNat ∧
    s.a.txf.length < s.params.txDepth ∧ s.desc.length.toNat ≤ (2 : BitVec 32).toNat ∧
    dInstr.dataPresent = false ∧ (atA dWrite .pData [.wait .txNotFull]).seq.ops = [.wait .txNotFull] ∧
    s.params.txDepth ≤ [1, 2, 3, 4].length := by decide
theorem witness_ADataReadStep :
    let s := atA dRead .pData []
    s.params.backend = .A ∧ s.seq.phase = .pData ∧ s.seq.ops = [] ∧ s.desc.direction = 1 ∧
    s.desc.dataPresent = true ∧ s.desc.dataLw.toNat = Width.w4.lines ∧ s.seq.idx.toNat < s.desc.length.toNat ∧
    s.a.en = true ∧ s.cs = .active ∧ s.env.pins.stall = false ∧ s.a.txf = [] ∧ s.a.rxf = [] ∧
    0 < s.params.rxDepth ∧ Memory.wf s.buf = true ∧ s.desc.length.toNat ≤ (2 : BitVec 32).toNat := by decide
theorem witness_AEndStep :
    let s := atA dInstr .pEnd []
    s.params.backend = .A ∧ s.seq.phase = .pEnd ∧ s.seq.ops = [] ∧ s.cs = .active ∧ s.a.txf = [] ∧
    s.a.shiftBusy = false ∧ s.a.tcr.txmsk = false ∧
    ((s.pushTx 6).issueOps [.wait .readyToEnd]).seq.ops = [.wait .readyToEnd] ∧ (s.pushTx 6).a.txf ≠ [] ∧
    (s.issueOps [.wait .csReleased]).seq.ops = [.wait .csReleased] ∧ s.cs.asserted = true := by decide
/-- A controller operation, a sequencer step, and a table opcode that stores. -/
theorem witness_InstructionFrame : nextWith (exec (.push 6) (atA dInstr .pInstr [])) (fun _ => true) = true ∧
    nextWith (exec .aAddr (atA dRead .pAddr [])) (fun _ => true) = true ∧
    nextWith (exec (.read .w1 0) (atB dRead .read 0x2400)) (fun t => decide (t.b.bidx = 1)) = true ∧
    (encode (.push 6)).space = .ctl .tdr ∧ (encode .aAddr).space = .seq false ∧
    (encode (.read .w1 0)).space = .lut ∧ Memory.wf (atB dRead .read 0x2400).buf = true := by decide

/-- SEQ on Backend B about to load. -/
theorem witness_LoadProgram : ∃ (s : State) (rest : List SeqOp), Inv s ∧ s.params.backend = .B ∧
    s.seq.ops = .load 0x2400049F 0 0 0 :: rest := by
  refine ⟨{ idle .B dInstr with
    host := { State.reset.host with st := .xfer, configured := true }
    seq := { phase := .pStart, idx := 0, ops := [.load 0x2400049F 0 0 0, .issue, .goto .pData], popData := 0 } }, _,
    .mkB (base_of (by decide)) rfl ?_, rfl, rfl⟩
  exact pointB_start rfl (.inl ⟨⟨.inl rfl, rfl⟩, .inr (.inl ⟨_, _, _, _, rfl⟩)⟩)

theorem witness_LoadProgram_start :
    let s := { idle .B dInstr with seq := { phase := .pStart, idx := 0, ops := [], popData := 0 } }
    s.params.backend = .B ∧ s.seq.phase = .pStart ∧ s.seq.ops = [] := by decide
theorem witness_IssueRequest :
    let s := (idle .B dRead).issueOps [.issue, .goto .pData]
    s.params.backend = .B ∧ s.seq.ops = [.issue, .goto .pData] ∧ s.cs = .idle ∧
    ((atB dRead .read 0).issueOps [.wait .done]).seq.ops = [.wait .done] ∧ (atB dRead .read 0).b.sts.done = false := by
  decide
/-- A failure from outside; slot 8; an illegal half-word. -/
theorem witness_SequenceEnds :
    let s := atB dRead .read 0x0C00
    s.params.backend = .B ∧ s.b.sts.busy = true ∧ s.cs = .active ∧ s.env.pins.stall = false ∧
    s.env.pins.extFail = false ∧ s.b.slot.toNat < 8 ∧ s.fetchHalf = some 0x0C00 ∧
    decodeHalf 0x0C00 = .error .reservedOp ∧ 8 ≤ (8 : BitVec 4).toNat ∧
    (s.setPins { stall := false, initFail := false, extFail := true }).env.pins.extFail = true := by decide
theorem witness_RaddrOpcode : (4 : Byte).toNat ≤ 4 ∧ 4 < (5 : Byte).toNat := by decide
/-- Another request; the first of two bytes; the last; none left. -/
theorem witness_WriteOpcode : (atB dRead .read 0).b.ipXtype ≠ .write ∧ (atB dWrite .write 0).b.ipXtype = .write ∧
    (atB dWrite .write 0).b.bidx.toNat + 1 < (atB dWrite .write 0).b.ipLen.toNat ∧
    (atB dWrite .write 0).nextBidx.b.bidx.toNat + 1 = (atB dWrite .write 0).b.ipLen.toNat ∧
    (atB dWrite .write 0).b.ipLen.toNat ≤ (atB dWrite .write 0).nextBidx.nextBidx.b.bidx.toNat := by decide
theorem witness_ReadOpcode : Memory.wf (atB dRead .read 0).buf = true ∧ (atB dWrite .write 0).b.ipXtype ≠ .read ∧
    (atB dRead .read 0).b.ipXtype = .read ∧ (atB dRead .read 0).b.bidx.toNat < (atB dRead .read 0).b.ipLen.toNat ∧
    (atB dRead .read 0).nextBidx.b.bidx.toNat + 1 = (atB dRead .read 0).b.ipLen.toNat ∧
    (atB dRead .read 0).b.ipLen.toNat ≤ (atB dRead .read 0).nextBidx.nextBidx.b.bidx.toNat := by decide
/-- The five states, with and without a request. -/
theorem witness_ChipSelectMachine : { atA dInstr .pStart [] with cs := .idle }.csReq = true ∧
    (idle .A dInstr).cs = .idle ∧ (idle .A dInstr).csReq = false ∧ (atA dInstr .pInstr []).cs = .active ∧
    (atA dInstr .pInstr []).csReq = true ∧ ((atA dInstr .pInstr []).setCont false).csReq = false := by decide
theorem witness_HoldBeforeRelease :
    let s := { atA dInstr .pEnd [] with cs := .hold }
    s.cs.asserted = true ∧ nextWith (s.turn .cs) (fun t => !t.cs.asserted) = true ∧
    nextWith (s.turn .reset) (fun t => !t.cs.asserted) = true := by decide

theorem witness_HoldBeforeRelease_A : ∃ s : State, Inv s ∧ s.cs = .hold ∧ s.params.backend = .A := by
  refine ⟨{ atA dInstr .pEnd [.wait .csReleased, .xferDone, .result] with
    a := { State.reset.a with en := true }, cs := .hold }, .mkA (base_of (by decide)) rfl ?_, rfl, rfl⟩
  exact pointA_end rfl (.inr (.inr (.inr (.inl ⟨⟨⟨rfl, rfl, rfl⟩, rfl, rfl⟩, rfl⟩))))

theorem witness_HoldBeforeRelease_B : ∃ s : State, Inv s ∧ s.cs = .hold ∧ s.params.backend = .B := by
  refine ⟨{ (atB dRead .read 0).finish false with
    cs := .hold, seq := { phase := .pEnd, idx := 0, ops := [], popData := 0 } },
    .mkB (base_of (by decide)) rfl ?_, rfl, rfl⟩
  exact pointB_end rfl (.inl ⟨⟨rfl, rfl⟩, .inl rfl⟩)

/-- `{X=write:1/1}`, one byte sent at one line. -/
def dSend : Desc := written 0 0 0 0 0 0 0x16 1

/-- The turns of one Backend A transfer of `dSend`. -/
def turnsA : List Turn :=
  List.replicate 7 .seq ++ [.cs] ++ List.replicate 8 .seq ++ [.engine] ++ List.replicate 6 .seq ++
    [.cs, .cs, .seq, .seq, .seq]

/-- The turns of one Backend B transfer of `dSend`. -/
def turnsB : List Turn :=
  [.seq, .seq, .seq, .seq, .cs, .engine, .engine, .seq, .seq, .seq, .cs, .cs, .seq, .seq, .seq]

/-- The same, with a failure from outside after the byte. -/
def turnsFail : List Turn :=
  [.seq, .seq, .seq, .seq, .cs, .engine, .setPins { stall := false, initFail := false, extFail := true }, .engine,
    .seq, .seq, .seq, .cs, .cs, .seq, .seq, .seq]

/-- A transfer from the invariant, on backend `k`, that is accepted, runs under some interleaving and ends with the
result status `r`. -/
def endsWith (k : Backend) (r : BitVec 8) (s u t : State) (ts : List Turn) : Prop :=
  Inv s ∧ s.params.backend = k ∧ s.host.st = .idle ∧ exec .transfer s = .next u ∧ u.host.st = .xfer ∧
    (∀ x ∈ ts, agentTurn x = true) ∧ u.turns ts = .next t ∧ t.host.st = .idle ∧ t.host.resStatus = r

theorem ends_A : ∃ t, endsWith .A 0 (idle .A dSend) (((idle .A dSend).setRun .xfer).goto .pStart) t turnsA ∧
    t.bufBytes 1 = [0] := by
  obtain ⟨t, ht, hi⟩ := nextWith_exists (o := (((idle .A dSend).setRun .xfer).goto .pStart).turns turnsA)
    (p := fun t => decide (t.host.st = .idle ∧ t.host.resStatus = 0 ∧ t.bufBytes 1 = [0])) (by decide)
  have hi' := of_decide_eq_true hi
  exact ⟨t, ⟨idleA_inv, rfl, rfl, rfl, rfl, by decide, ht, hi'.1, hi'.2.1⟩, hi'.2.2⟩

theorem ends_B : ∃ t, endsWith .B 0 (idle .B dSend) (((idle .B dSend).setRun .xfer).goto .pStart) t turnsB ∧
    t.bufBytes 1 = [0] := by
  obtain ⟨t, ht, hi⟩ := nextWith_exists (o := (((idle .B dSend).setRun .xfer).goto .pStart).turns turnsB)
    (p := fun t => decide (t.host.st = .idle ∧ t.host.resStatus = 0 ∧ t.bufBytes 1 = [0])) (by decide)
  have hi' := of_decide_eq_true hi
  exact ⟨t, ⟨idleB_inv, rfl, rfl, rfl, rfl, by decide, ht, hi'.1, hi'.2.1⟩, hi'.2.2⟩

theorem ends_fail : ∃ t, endsWith .B 3 (idle .B dSend) (((idle .B dSend).setRun .xfer).goto .pStart) t turnsFail ∧
    t.bufBytes 1 = [0] := by
  obtain ⟨t, ht, hi⟩ := nextWith_exists (o := (((idle .B dSend).setRun .xfer).goto .pStart).turns turnsFail)
    (p := fun t => decide (t.host.st = .idle ∧ t.host.resStatus = 3 ∧ t.bufBytes 1 = [0])) (by decide)
  have hi' := of_decide_eq_true hi
  exact ⟨t, ⟨idleB_inv, rfl, rfl, rfl, rfl, by decide, ht, hi'.1, hi'.2.1⟩, hi'.2.2⟩

/-- A run that ends on each backend, without failure. -/
theorem witness_ClockedLength : (∃ s u t ts, endsWith .A 0 s u t ts) ∧ ∃ s u t ts, endsWith .B 0 s u t ts :=
  ⟨⟨_, _, ends_A.choose, _, ends_A.choose_spec.1⟩, _, _, ends_B.choose, _, ends_B.choose_spec.1⟩
/-- Two runs of one descriptor with a data phase, in which the byte sent agrees. -/
theorem witness_BackendEquivalence : ∃ s u t ts s' u' t' ts', endsWith .A 0 s u t ts ∧ endsWith .B 0 s' u' t' ts' ∧
    s'.desc = s.desc ∧ s.desc.dummyCycles.toNat % 2 = 0 ∧ (s.desc.altSize = 1 → s.desc.altLw = s.desc.addrLw) ∧
    s.desc.dataPresent = true ∧ t'.bufBytes s.desc.length.toNat = t.bufBytes s.desc.length.toNat := by
  obtain ⟨t, h, e⟩ := ends_A
  obtain ⟨t', h', e'⟩ := ends_B
  exact ⟨_, _, t, _, _, _, t', _, h, h', rfl, by decide, by decide, by decide, e'.trans e.symm⟩
theorem witness_TransferTraceA : ∃ s u t ts, endsWith .A 0 s u t ts := ⟨_, _, ends_A.choose, _, ends_A.choose_spec.1⟩
/-- A run that ends without failure, and one that ends with a failure. -/
theorem witness_TransferTraceB : (∃ s u t ts, endsWith .B 0 s u t ts) ∧ ∃ s u t ts, endsWith .B 3 s u t ts :=
  ⟨⟨_, _, ends_B.choose, _, ends_B.choose_spec.1⟩, _, _, ends_fail.choose, _, ends_fail.choose_spec.1⟩

/-- The four places of a word. -/
theorem witness_StepRunsDecoded : decode ⟨.cmd, 2⟩ = .ok .transfer ∧
    (State.reset.turnFirst (.host (.writeReg 0 2))).env.turns = [.host (.writeReg 0 2)] ∧
    decode ⟨.ctl .tdr, 6⟩ = .ok (.push 6) ∧ (atA dInstr .pInstr [pushOp 6]).seq.ops = [.ctl .tdr 6] ∧
    decode ⟨.seq dInstr.dirWrite, (atA dInstr .pInstr []).seq.phase.code.setWidth 32⟩ = .ok .aInstr ∧
    (atA dInstr .pInstr []).params.backend = .A ∧
    decode ⟨.lut, (0x2400#16).setWidth 32⟩ = .ok (.read .w1 0) ∧
    (atB dRead .read 0x2400).fetchHalf = some 0x2400 ∧ (atB dRead .read 0x2400).b.sts.busy = true ∧
    (atB dRead .read 0x2400).cs = .active ∧ (atB dRead .read 0x2400).params.backend = .B := by decide

/-- Two instances with legal depths, one on each backend. -/
theorem witness_ResetInvariant : Params.default.wf = true ∧
    ({ Params.default with backend := .B, txDepth := 1, rxDepth := 255 } : Params).wf = true := by decide

theorem witness_StepKeepsInvariant : ∃ s t : State, Inv s ∧ step s = .next t :=
  ⟨(idle .A dInstr).turnFirst (.host (.writeReg 0 2)), _, idleA_inv.setEnv _, rfl⟩

/-- An unwritten descriptor; a refused host write; a fifth address byte into a FIFO of depth four. -/
theorem witness_WhereStepsStop : ∃ s1 s2 s3 : State, Inv s1 ∧ step s1 = .fault .unwrittenDescriptor ∧
    Inv s2 ∧ step s2 = .refused .readOnlyRegister ∧ Inv s3 ∧ step s3 = .fault .txOverflow := by
  refine ⟨(idle .A { dInstr with written := 0 }).turnFirst (.host (.writeReg 0 2)),
    (idle .A dInstr).turnFirst (.host (.writeReg 1 0)),
    State.turnFirst { atA (written 0 0 0x44 0xA0 0x401 0 0 0) .pAddr (pushLines [0xA0] ++
        [SeqOp.wait .txDrained, SeqOp.goto .pDummy]) with
      a := { (atA dInstr .pAddr []).a with
        txf := [0, 0, 0, 0], tcr := { (atA dInstr .pAddr []).a.tcr with width := .w4, rxmsk := true } } } .seq,
    idleA_inv.setEnv _, rfl, idleA_inv.setEnv _, rfl, .mkA (base_of (by decide)) rfl ?_, rfl⟩
  exact pointA_addr rfl (.inr (.inr (.inl ⟨⟨⟨⟨rfl, rfl, rfl⟩, .inr rfl, rfl, rfl, fun _ => ⟨rfl, rfl⟩⟩, rfl, rfl⟩,
    [0xA0], by decide, .inl rfl⟩)))

/-- The moves of STATE: CONFIGURE, TRANSFER, the result, reset. -/
theorem witness_StateMachine : Inv State.reset ∧
    nextWith (State.reset.turn (.host (.writeReg 0 1))) (fun t => decide (t.host.st = .idle)) = true ∧
    nextWith ((idle .A dInstr).turn (.host (.writeReg 0 2))) (fun t => decide (t.host.st = .xfer)) = true ∧
    nextWith ((atA dInstr .pEnd [.result]).turn .seq) (fun t => decide (t.host.st = .idle)) = true ∧
    nextWith ((atA dInstr .pEnd [.result]).turn .reset) (fun t => decide (t.host.st = .uninit)) = true :=
  ⟨resetWith_inv (by decide) rfl _, by decide, by decide, by decide, by decide⟩

end Sys2Proof.Tests
end

section
/-! The decoder reads back what the encoder writes (30_encoding.md R100 to R105, R108; 41_backend_a_fifo.md R160 to R165;
10_state.md R25): the three fields of a half-word, the width code, then every place of a word. -/

namespace Sys2Proof

open Sys2Proof.Machine

/-! ## The half-word format (R100, R103) -/

/-- Bit `i` of a half-word belongs to the operand, the width code or the operation code, by its place. -/
theorem encodeHalf_getLsbD (op : BitVec 6) (w : BitVec 2) (x : Byte) (i : Nat) :
    (encodeHalf op w x).getLsbD i =
      if i < 8 then x.getLsbD i else if i < 10 then w.getLsbD (i - 8) else op.getLsbD (i - 10) := by
  simp only [encodeHalf, BitVec.getLsbD_or, BitVec.getLsbD_shiftLeft, BitVec.getLsbD_setWidth]
  by_cases h8 : i < 8
  · simp [h8, show i < 10 by omega, show i < 16 by omega]
  · have hx : x.getLsbD i = false := BitVec.getLsbD_of_ge x i (by omega)
    by_cases h10 : i < 10
    · simp [h8, h10, hx, show i < 16 by omega, show i - 8 < 16 by omega]
    · have hw : w.getLsbD (i - 8) = false := BitVec.getLsbD_of_ge w _ (by omega)
      by_cases h16 : i < 16
      · simp [h8, h10, hx, hw, h16, show i - 10 < 16 by omega]
      · simp [h8, h10, h16, BitVec.getLsbD_of_ge op (i - 10) (by omega)]

@[simp] theorem halfOp_encodeHalf (op : BitVec 6) (w : BitVec 2) (x : Byte) : halfOp (encodeHalf op w x) = op := by
  apply BitVec.eq_of_getLsbD_eq
  intro i hi
  simp [halfOp, encodeHalf_getLsbD, hi, show ¬10 + i < 8 by omega]

@[simp] theorem halfW_encodeHalf (op : BitVec 6) (w : BitVec 2) (x : Byte) : halfW (encodeHalf op w x) = w := by
  apply BitVec.eq_of_getLsbD_eq
  intro i hi
  simp [halfW, encodeHalf_getLsbD, hi, show ¬10 ≤ 8 + i by omega]

@[simp] theorem halfOperand_encodeHalf (op : BitVec 6) (w : BitVec 2) (x : Byte) :
    halfOperand (encodeHalf op w x) = x := by
  apply BitVec.eq_of_getLsbD_eq
  intro i hi
  simp [halfOperand, encodeHalf_getLsbD, hi]

@[simp] theorem Width.ofCode_code (w : Width) : Width.ofCode w.code = some w := by
  cases w <;> rfl

/-- A table opcode is read from its half-word alone. -/
theorem decode_lutCode (op : BitVec 6) (w : BitVec 2) (x : Byte) :
    decode (lutCode op w x) = decodeHalf (encodeHalf op w x) := decode_lut_half _

/-! ## Every place of a word -/

/-- The seven table opcodes, from their fields (R104, R105). -/
theorem decode_encode_lut {i : Instr} (hs : (encode i).space = .lut) (hw : i.wellFormed = true) :
    decode (encode i) = .ok i := by
  cases i with
  | stop => decide
  | cmd w b => simp [encode, decode_lutCode, decodeHalf, opStop, opCmd]
  | raddr w n =>
    have hn : n.toNat ≤ 4 := by simpa [Instr.wellFormed] using hw
    simp [encode, decode_lutCode, decodeHalf, opStop, opCmd, opRaddr, hn]
  | mode8 w m => simp [encode, decode_lutCode, decodeHalf, opStop, opCmd, opRaddr, opMode8]
  | write w x => simp [encode, decode_lutCode, decodeHalf, opStop, opCmd, opRaddr, opMode8, opWrite]
  | read w x => simp [encode, decode_lutCode, decodeHalf, opStop, opCmd, opRaddr, opMode8, opWrite, opRead]
  | dummy w c => simp [encode, decode_lutCode, decodeHalf, opStop, opCmd, opRaddr, opMode8, opWrite, opRead, opDummy]
  | _ => simp [encode] at hs

/-- A byte read from the receive data port (R165). -/
theorem decode_pop_byte (d : Byte) : decode ⟨.ctl .rdr, d.setWidth 32⟩ = .ok (.pop d) := by
  simp [decode, decodeCtl, extract_setWidth_byte]

/-- Settles O1: each place has its own decoder, and each of them undoes the encoder. -/
theorem decodeOfEncode : Obligations.DecodeOfEncode := by
  unfold Obligations.DecodeOfEncode
  intro i hw
  cases i with
  | stop => exact decode_encode_lut rfl hw
  | cmd w b => exact decode_encode_lut rfl hw
  | raddr w n => exact decode_encode_lut rfl hw
  | mode8 w m => exact decode_encode_lut rfl hw
  | write w x => exact decode_encode_lut rfl hw
  | read w x => exact decode_encode_lut rfl hw
  | dummy w c => exact decode_encode_lut rfl hw
  | configure => decide
  | transfer => decide
  | flush e => exact decode_flush e
  | clrflags => exact decode_clrflags
  | enable => exact decode_enable
  | setctl p a c d r t w => exact decode_tcrWord p a c d r t w (by simpa only [Instr.wellFormed, Bool.not_eq_true'] using hw)
  | push d => exact decode_push d
  | pop d => exact decode_pop_byte d
  | aStart => decide
  | aInstr => decide
  | aAddr => decide
  | aDummy => decide
  | aDataW => decide
  | aDataR => decide
  | aEnd => decide

end Sys2Proof
end

section
/-! The invariant of reachable states over one turn and one step (10_state.md R50), and the state after reset (R47). -/

namespace Sys2Proof.Machine

variable {s t : State} {x : Turn}

/-- A turn that answers a next state keeps the invariant. -/
theorem turn_inv (h : Inv s) (ht : s.turn x = .next t) : Inv t := by
  have ho := turn_outcome h x
  rwa [ht] at ho

/-- Taking a turn off the list, or drawing one, changes the environment only. -/
theorem State.nextTurn_env (s : State) : ∃ e, s.nextTurn.2 = { s with env := e } := by
  unfold State.nextTurn
  split
  · exact ⟨_, rfl⟩
  · exact ⟨_, rfl⟩

theorem nextTurn_inv (h : Inv s) : Inv s.nextTurn.2 := by
  obtain ⟨e, he⟩ := s.nextTurn_env
  rw [he]
  exact h.setEnv e

/-- Settles O58: a step takes its turn from the environment, and every turn keeps the invariant. -/
theorem stepKeepsInvariant : Obligations.StepKeepsInvariant := by
  unfold Obligations.StepKeepsInvariant
  intro s t h hs
  exact turn_inv (nextTurn_inv h) hs

/-- The register images after reset (R47), which no parameter enters. -/
theorem reset_images : State.reset.a.srWord = 0 ∧ State.reset.a.tcr.toWord = 0x0700 ∧ State.reset.a.fcr.toWord = 0 ∧
    State.reset.a.fsrWord = 0 ∧ State.reset.b.mcr.toWord = 0 ∧ State.reset.b.flshcr1.toWord = 0 ∧
    State.reset.b.ipcr1Word = 0 ∧ State.reset.b.sts.toWord = 0 := by decide

theorem resetWith_unwritten (p : Params) (i : Nat) : (State.resetWith p).desc.has i = false := BitVec.getLsbD_zero

/-- Settles O57: the invariant and the values of R47 after a reset with any parameters, and what a reset turn keeps. -/
theorem resetInvariant : Obligations.ResetInvariant := by
  unfold Obligations.ResetInvariant
  refine ⟨?_, ?_, rfl, by decide, fun s => rfl⟩
  · intro p hp
    exact resetWith_inv hp Memory.wf_nil (State.resetWith p).env
  · intro p
    obtain ⟨hsr, htcr, hfcr, hfsr, hmcr, hcs, hip, hsts⟩ := reset_images
    exact ⟨rfl, rfl, rfl, rfl, rfl, rfl, resetWith_unwritten p, rfl, rfl, rfl, hsr, htcr, rfl, rfl, hfcr, rfl, rfl, hfsr,
      rfl, hmcr, rfl, hcs, rfl, hip, rfl, hsts, rfl, rfl, rfl, rfl, rfl⟩

end Sys2Proof.Machine
end

section
/-! When a TRANSFER meets a descriptor register that the host has not written (10_state.md R23; 40_host_commands.md
R134): what each group of checks can answer, and the registers read before each answer. -/

namespace Sys2Proof.Machine

variable {s : State} {d : Desc} {k : Backend} {c : Cause}

/-- Checks 1 to 5 never answer with the cause of check 6 or 7. -/
theorem checkShape_cause (h : d.checkShape k = some c) : c ≠ .dummyRange ∧ c ≠ .noBuffer := by
  unfold Desc.checkShape at h
  repeat' split at h
  all_goals cases h
  all_goals exact ⟨by decide, by decide⟩

/-- Check 6 fails on Backend B only, with its one cause. -/
theorem checkDummy_cause (h : d.checkDummy k = some c) : k = .B ∧ c = .dummyRange := by
  unfold Desc.checkDummy at h
  split at h
  · rename_i hc
    cases h
    exact ⟨hc.1, rfl⟩
  · cases h

theorem checkBuffer_cause (h : d.checkBuffer = some c) : c = .noBuffer := by
  unfold Desc.checkBuffer at h
  split at h
  · cases h; rfl
  · cases h

/-! `validate` by the first group of checks that fails. -/

theorem validate_of_shape (h : d.checkShape k = some c) : d.validate k = some c := by
  simp only [Desc.validate, h]

theorem validate_of_dummy (h : d.checkShape k = none) (h' : d.checkDummy k = some c) : d.validate k = some c := by
  simp only [Desc.validate, h, h']

theorem validate_of_buffer (h : d.checkShape k = none) (h' : d.checkDummy k = none) : d.validate k = d.checkBuffer := by
  simp only [Desc.validate, h, h']

/-- The last test of `verdict`: the registers that the phases read. -/
theorem accepted_unless (p : Prop) [Decidable p] : (if p then Verdict.unwritten else .accepted) = .unwritten ↔ p := by
  by_cases hp : p <;> simp [hp]

/-- A descriptor is found unwritten exactly where a check, or a phase that is present, reads a register that the host has
not written. -/
theorem verdict_unwritten_iff (d : Desc) (k : Backend) : d.verdict k = .unwritten ↔
    (d.has 0 = false ∨ d.has 2 = false ∨ d.has 4 = false ∨ d.has 6 = false) ∨
    (d.validate k = none ∧ (d.has 5 = false ∨ d.has 7 = false ∨ (d.usesAddr k = true ∧ d.has 1 = false) ∨
      (d.usesAlt k = true ∧ d.has 3 = false))) ∨
    (d.validate k = some .noBuffer ∧ (d.has 7 = false ∨ (k = .B ∧ d.has 5 = false))) ∨
    (d.validate k = some .dummyRange ∧ d.has 5 = false) := by
  have hfour : (!(d.has 0 && d.has 2 && d.has 4 && d.has 6)) = true ↔
      d.has 0 = false ∨ d.has 2 = false ∨ d.has 4 = false ∨ d.has 6 = false := by
    simp only [Bool.not_eq_true', Bool.and_eq_false_iff, or_assoc]
  unfold Desc.verdict
  by_cases hw : d.has 0 = false ∨ d.has 2 = false ∨ d.has 4 = false ∨ d.has 6 = false
  · rw [if_pos (hfour.2 hw)]
    exact ⟨fun _ => .inl hw, fun _ => rfl⟩
  · rw [if_neg (mt hfour.1 hw)]
    cases hs : d.checkShape k with
    | some c =>
      obtain ⟨hd, hb⟩ := checkShape_cause hs
      simp [validate_of_shape hs, hw, hd, hb]
    | none =>
      cases hd : d.checkDummy k with
      | some c =>
        obtain ⟨rfl, rfl⟩ := checkDummy_cause hd
        simp [validate_of_dummy hs hd, hw]
      | none =>
        rw [validate_of_buffer hs hd]
        cases hb : d.checkBuffer with
        | some c =>
          obtain rfl := checkBuffer_cause hb
          cases h5 : d.has 5 <;> cases h7 : d.has 7 <;> simp [hw]
        | none =>
          cases h5 : d.has 5 <;> cases h7 : d.has 7 <;> simp [hw, accepted_unless, -ite_eq_left_iff]

/-- Settles O16: a TRANSFER in IDLE stops with this fault exactly where its descriptor is found unwritten. -/
theorem transferUnwritten : Obligations.TransferUnwritten := by
  unfold Obligations.TransferUnwritten
  intro s hi
  rw [← verdict_unwritten_iff]
  simp only [exec, execTransfer, hi]
  cases s.desc.verdict s.params.backend <;> simp

end Sys2Proof.Machine
end

section
/-! The host port (10_state.md R46): which numbers are registers, what each image holds as a number, and what a host
access to each of them does. -/

namespace Sys2Proof.Machine

variable {s : State} {n : BitVec 8} {v : Word}

/-! ## The images as numbers (R21 to R42) -/

theorem HostPort.stateWord_toNat (h : HostPort) :
    h.stateWord.toNat = h.st.code.toNat + 2 ^ 8 * h.configured.toNat := by
  have hst := h.st.code.isLt
  rw [HostPort.stateWord, or_toNat (fieldAt_toNat _ 0 (by decide)) (k := 8) (by omega) (bitAt_toNat _ 8 (by decide))]
  omega

theorem HostPort.resWord_toNat (h : HostPort) :
    h.resWord.toNat = h.resStatus.toNat + 2 ^ 8 * h.resCause.toNat := by
  have hst := h.resStatus.isLt
  rw [HostPort.resWord, or_toNat (fieldAt_toNat _ 0 (by decide)) (k := 8) (by omega) (fieldAt_toNat _ 8 (by decide))]
  omega

theorem CtlA.crWord_toNat (a : CtlA) : a.crWord.toNat = a.en.toNat := by
  rw [CtlA.crWord, bitAt_toNat _ 0 (by decide), Nat.pow_zero, Nat.mul_one]

theorem CtlA.srWord_toNat (a : CtlA) : a.srWord.toNat = a.sr.frameDone.toNat + 2 * a.sr.xferDone.toNat +
    2 ^ 2 * a.sr.txErr.toNat + 2 ^ 3 * a.sr.rxErr.toNat + 2 ^ 24 * a.shiftBusy.toNat := by
  have h0 := a.sr.frameDone.toNat_le
  have h1 := a.sr.xferDone.toNat_le
  have h2 := a.sr.txErr.toNat_le
  have h3 := a.sr.rxErr.toNat_le
  have e1 := or_toNat (bitAt_toNat a.sr.frameDone 0 (by decide)) (k := 1) (by omega)
    (bitAt_toNat a.sr.xferDone 1 (by decide))
  have e2 := or_toNat e1 (k := 2) (by omega) (bitAt_toNat a.sr.txErr 2 (by decide))
  have e3 := or_toNat e2 (k := 3) (by omega) (bitAt_toNat a.sr.rxErr 3 (by decide))
  have e4 := or_toNat e3 (k := 24) (by omega) (bitAt_toNat a.shiftBusy 24 (by decide))
  rw [CtlA.srWord, e4]
  omega

theorem CtlA.fsrWord_toNat (a : CtlA) :
    a.fsrWord.toNat = a.txf.length % 256 + 2 ^ 16 * (a.rxf.length % 256) := by
  have e := or_toNat (fieldAt_toNat (BitVec.ofNat 8 a.txf.length) 0 (by decide)) (k := 16) (by simp; omega)
    (fieldAt_toNat (BitVec.ofNat 8 a.rxf.length) 16 (by decide))
  rw [CtlA.fsrWord, e, BitVec.toNat_ofNat, BitVec.toNat_ofNat]
  omega

theorem paramWord_toNat (p : Params) : (paramWord p).toNat = p.txDepth % 256 + 2 ^ 8 * (p.rxDepth % 256) := by
  have e := or_toNat (fieldAt_toNat (BitVec.ofNat 8 p.txDepth) 0 (by decide)) (k := 8) (by simp; omega)
    (fieldAt_toNat (BitVec.ofNat 8 p.rxDepth) 8 (by decide))
  rw [paramWord, e, BitVec.toNat_ofNat, BitVec.toNat_ofNat]
  omega

theorem Width.code_toNat (w : Width) : w.code.toNat = w.lines / 2 := by cases w <;> rfl

theorem Tcr.toWord_toNat (t : Tcr) : t.toWord.toNat = t.width.lines / 2 + 2 ^ 2 * t.txmsk.toNat +
    2 ^ 3 * t.rxmsk.toNat + 2 ^ 4 * t.contc.toNat + 2 ^ 5 * t.cont.toNat + 2 ^ 6 * t.pcs.toNat +
    2 ^ 8 * t.framesz.toNat + 2 ^ 14 * t.cpha.toNat + 2 ^ 15 * t.cpol.toNat := by
  have hw := t.width.code.isLt
  have ht := t.txmsk.toNat_le
  have hr := t.rxmsk.toNat_le
  have hcc := t.contc.toNat_le
  have hc := t.cont.toNat_le
  have hp := t.pcs.isLt
  have hf := t.framesz.isLt
  have ha := t.cpha.toNat_le
  have e1 := or_toNat (fieldAt_toNat t.width.code 0 (by decide)) (k := 2) (by omega) (bitAt_toNat t.txmsk 2 (by decide))
  have e2 := or_toNat e1 (k := 3) (by omega) (bitAt_toNat t.rxmsk 3 (by decide))
  have e3 := or_toNat e2 (k := 4) (by omega) (bitAt_toNat t.contc 4 (by decide))
  have e4 := or_toNat e3 (k := 5) (by omega) (bitAt_toNat t.cont 5 (by decide))
  have e5 := or_toNat e4 (k := 6) (by omega) (fieldAt_toNat t.pcs 6 (by decide))
  have e6 := or_toNat e5 (k := 8) (by omega) (fieldAt_toNat t.framesz 8 (by decide))
  have e7 := or_toNat e6 (k := 14) (by omega) (bitAt_toNat t.cpha 14 (by decide))
  have e8 := or_toNat e7 (k := 15) (by omega) (bitAt_toNat t.cpol 15 (by decide))
  rw [Tcr.toWord, e8, Width.code_toNat]
  omega

theorem Cfgr.toWord_toNat (c : Cfgr) :
    c.toWord.toNat = c.pcspol.toNat + 2 * c.master.toNat + 2 ^ 8 * c.baudDiv.toNat := by
  have hp := c.pcspol.toNat_le
  have hm := c.master.toNat_le
  have e1 := or_toNat (bitAt_toNat c.pcspol 0 (by decide)) (k := 1) (by omega) (bitAt_toNat c.master 1 (by decide))
  have e2 := or_toNat e1 (k := 8) (by omega) (fieldAt_toNat c.baudDiv 8 (by decide))
  rw [Cfgr.toWord, e2]
  omega

theorem Fcr.toWord_toNat (f : Fcr) : f.toWord.toNat = f.txwater.toNat + 2 ^ 16 * f.rxwater.toNat := by
  have ht := f.txwater.isLt
  have e := or_toNat (fieldAt_toNat f.txwater 0 (by decide)) (k := 16) (by omega) (fieldAt_toNat f.rxwater 16 (by decide))
  rw [Fcr.toWord, e]
  omega

theorem Mcr.toWord_toNat (m : Mcr) : m.toWord.toNat = m.prefetchEn.toNat + 2 * m.bufferableEn.toNat +
    2 ^ 2 * m.cacheableEn.toNat + 2 ^ 4 * m.rxclksrc.toNat := by
  have hp := m.prefetchEn.toNat_le
  have hb := m.bufferableEn.toNat_le
  have hc := m.cacheableEn.toNat_le
  have e1 := or_toNat (bitAt_toNat m.prefetchEn 0 (by decide)) (k := 1) (by omega)
    (bitAt_toNat m.bufferableEn 1 (by decide))
  have e2 := or_toNat e1 (k := 2) (by omega) (bitAt_toNat m.cacheableEn 2 (by decide))
  have e3 := or_toNat e2 (k := 4) (by omega) (fieldAt_toNat m.rxclksrc 4 (by decide))
  rw [Mcr.toWord, e3]
  omega

theorem Flshcr1.toWord_toNat (f : Flshcr1) :
    f.toWord.toNat = f.csSetup.toNat + 2 ^ 8 * f.csHold.toNat + 2 ^ 16 * f.csInterval.toNat := by
  have hs := f.csSetup.isLt
  have hh := f.csHold.isLt
  have e1 := or_toNat (fieldAt_toNat f.csSetup 0 (by decide)) (k := 8) (by omega) (fieldAt_toNat f.csHold 8 (by decide))
  have e2 := or_toNat e1 (k := 16) (by omega) (fieldAt_toNat f.csInterval 16 (by decide))
  rw [Flshcr1.toWord, e2]
  omega

theorem CtlB.ipcr1Word_toNat (b : CtlB) : b.ipcr1Word.toNat = b.ipXtype.code.toNat + 2 ^ 4 * b.ipSeq.toNat := by
  have hx := b.ipXtype.code.isLt
  have e := or_toNat (fieldAt_toNat b.ipXtype.code 0 (by decide)) (k := 4) (by omega) (fieldAt_toNat b.ipSeq 4 (by decide))
  rw [CtlB.ipcr1Word, e]
  omega

theorem Sts.toWord_toNat (t : Sts) : t.toWord.toNat = t.done.toNat + 2 * t.fail.toNat + 2 ^ 2 * t.busy.toNat := by
  have hd := t.done.toNat_le
  have hf := t.fail.toNat_le
  have e1 := or_toNat (bitAt_toNat t.done 0 (by decide)) (k := 1) (by omega) (bitAt_toNat t.fail 1 (by decide))
  have e2 := or_toNat e1 (k := 2) (by omega) (bitAt_toNat t.busy 2 (by decide))
  rw [Sts.toWord, e2]
  omega

/-! ## The registers a host write reaches: D0 to D7 and CFG_ARG0 to CFG_ARG3 -/

/-- The register D`i`. -/
def Desc.reg (d : Desc) (i : BitVec 3) : Word :=
  if i = 0 then d.d0 else if i = 1 then d.d1 else if i = 2 then d.d2 else if i = 3 then d.d3
  else if i = 4 then d.d4 else if i = 5 then d.d5 else if i = 6 then d.d6 else d.d7

/-- The bits of D`i` that R24 defines. -/
def descMask (i : BitVec 3) : Word :=
  if i = 0 then 0x7FF else if i = 2 then 0x77 else if i = 4 then 0x73F else if i = 6 then 0x77 else 0xFFFFFFFF

/-- The register CFG_ARG`i`. -/
def HostPort.arg (h : HostPort) (i : BitVec 2) : Word :=
  if i = 0 then h.cfgArg0 else if i = 1 then h.cfgArg1 else if i = 2 then h.cfgArg2 else h.cfgArg3

theorem and_ones (v : Word) : v &&& 0xFFFFFFFF#32 = v := BitVec.and_allOnes

theorem bitVec3_cases (i : BitVec 3) : i = 0 ∨ i = 1 ∨ i = 2 ∨ i = 3 ∨ i = 4 ∨ i = 5 ∨ i = 6 ∨ i = 7 := by
  revert i
  decide

theorem bitVec2_cases (i : BitVec 2) : i = 0 ∨ i = 1 ∨ i = 2 ∨ i = 3 := by
  revert i
  decide

theorem regImage_desc (s : State) (i : BitVec 3) : s.regImage (8 + i.setWidth 8) = some (s.desc.reg i) := by
  rcases bitVec3_cases i with rfl | rfl | rfl | rfl | rfl | rfl | rfl | rfl <;> rfl

theorem regImage_arg (s : State) (i : BitVec 2) : s.regImage (4 + i.setWidth 8) = some (s.host.arg i) := by
  rcases bitVec2_cases i with rfl | rfl | rfl | rfl <;> rfl

/-- A write of D`i` keeps the defined bits of the value in D`i`, and every other register (R24). -/
theorem Desc.hostWrite_reg (d : Desc) (i j : BitVec 3) (v : Word) :
    (d.hostWrite i v).reg j = if j = i then v &&& descMask i else d.reg j := by
  rcases bitVec3_cases i with rfl | rfl | rfl | rfl | rfl | rfl | rfl | rfl <;>
    rcases bitVec3_cases j with rfl | rfl | rfl | rfl | rfl | rfl | rfl | rfl <;>
    simp [Desc.hostWrite, Desc.reg, descMask, and_ones]

theorem HostPort.writeArg_arg (h : HostPort) (i j : BitVec 2) (v : Word) :
    (h.writeArg i v).arg j = if j = i then v else h.arg j := by
  rcases bitVec2_cases i with rfl | rfl | rfl | rfl <;> rcases bitVec2_cases j with rfl | rfl | rfl | rfl <;> rfl

/-- A write of an argument leaves the rest of the host port alone. -/
theorem HostPort.writeArg_frame (h : HostPort) (i : BitVec 2) (v : Word) : ∃ a0 a1 a2 a3,
    h.writeArg i v = { h with cfgArg0 := a0, cfgArg1 := a1, cfgArg2 := a2, cfgArg3 := a3 } := by
  rcases bitVec2_cases i with rfl | rfl | rfl | rfl <;> exact ⟨_, _, _, _, rfl⟩

/-! ## The numbers of the table (R46) -/

theorem Lut.get_none_iff (l : Lut) (i : Nat) : l.get i = none ↔ 8 ≤ i := by
  by_cases h : 8 ≤ i
  · obtain ⟨k, rfl⟩ := Nat.exists_eq_add_of_le' h
    simp [Lut.get]
  · interval_cases i <;> simp [Lut.get]

/-- From 0x10 up the images are those of the backend's registers: the host port and the descriptor have no part in
them. -/
theorem regImage_ctl (h : 16 ≤ n.toNat) (p : HostPort) (d : Desc) :
    State.regImage { s with host := p, desc := d } n = s.regImage n := by
  unfold State.regImage
  obtain ⟨k, hk⟩ := Nat.exists_eq_add_of_le' h
  rw [hk]
  rfl

theorem regImage_none_iff (s : State) (n : BitVec 8) : s.regImage n = none ↔
    n = 0 ∨ (0x17 ≤ n.toNat ∧ (s.params.backend = .A ∨ n.toNat < 0x20 ∨ 0x28 ≤ n.toNat)) := by
  have h0 : n = 0 ↔ n.toNat = 0 := by rw [← BitVec.toNat_inj]; rfl
  rw [h0]
  unfold State.regImage
  generalize n.toNat = m
  by_cases h : 0x28 ≤ m
  · obtain ⟨k, rfl⟩ := Nat.exists_eq_add_of_le' h
    cases s.params.backend <;> simp [Lut.get_none_iff]
  · interval_cases m <;> cases s.params.backend <;> simp [Lut.get_none_iff]

/-- A number of the descriptor's registers is that of some D`i`. -/
theorem desc_number (h : 8 ≤ n.toNat) (h' : n.toNat < 16) : ∃ i : BitVec 3, n = 8 + i.setWidth 8 := by
  refine ⟨n.setWidth 3, BitVec.eq_of_toNat_eq ?_⟩
  simp only [BitVec.ofNat_eq_ofNat, BitVec.toNat_add, BitVec.toNat_setWidth, BitVec.toNat_ofNat]
  omega

theorem arg_number (h : 4 ≤ n.toNat) (h' : n.toNat < 8) : ∃ i : BitVec 2, n = 4 + i.setWidth 8 := by
  refine ⟨n.setWidth 2, BitVec.eq_of_toNat_eq ?_⟩
  simp only [BitVec.ofNat_eq_ofNat, BitVec.toNat_add, BitVec.toNat_setWidth, BitVec.toNat_ofNat]
  omega

/-- Below 8 the images are those of the host port: a write of the descriptor does not show in them. -/
theorem regImage_host (h : n.toNat < 8) (d : Desc) : State.regImage { s with desc := d } n = s.regImage n := by
  unfold State.regImage
  generalize n.toNat = m at h
  interval_cases m <;> rfl

/-- The images that do not hold the arguments, after a write of an argument. -/
theorem regImage_result (h : n.toNat < 4) (i : BitVec 2) (v : Word) :
    State.regImage { s with host := s.host.writeArg i v } n = s.regImage n := by
  obtain ⟨a0, a1, a2, a3, e⟩ := s.host.writeArg_frame i v
  rw [e]
  unfold State.regImage
  generalize n.toNat = m at h
  interval_cases m <;> rfl

/-! ## What a host write does -/

theorem hostWrite_desc (hx : s.host.st ≠ .xfer) (i : BitVec 3) (v : Word) :
    s.turn (.host (.writeReg (8 + i.setWidth 8) v)) = .next { s with desc := s.desc.hostWrite i v } := by
  have hn : ∀ i : BitVec 3, (8 + i.setWidth 8 : BitVec 8) ≠ 0 ∧ (8 + i.setWidth 8 : BitVec 8).extractLsb' 2 6 ≠ 1 ∧
      (8 + i.setWidth 8 : BitVec 8).extractLsb' 3 5 = 1 ∧ (8 + i.setWidth 8 : BitVec 8).extractLsb' 0 3 = i := by decide
  obtain ⟨h0, harg, hdesc, hi⟩ := hn i
  simp only [State.turn, State.hostTurn, State.hostWrite]
  rw [if_neg h0, if_neg hx, if_neg harg, if_pos hdesc, hi]

theorem hostWrite_arg (hx : s.host.st ≠ .xfer) (i : BitVec 2) (v : Word) :
    s.turn (.host (.writeReg (4 + i.setWidth 8) v)) = .next { s with host := s.host.writeArg i v } := by
  have hn : ∀ i : BitVec 2, (4 + i.setWidth 8 : BitVec 8) ≠ 0 ∧ (4 + i.setWidth 8 : BitVec 8).extractLsb' 2 6 = 1 ∧
      (4 + i.setWidth 8 : BitVec 8).extractLsb' 0 2 = i := by decide
  obtain ⟨h0, harg, hi⟩ := hn i
  simp only [State.turn, State.hostTurn, State.hostWrite]
  rw [if_neg h0, if_neg hx, if_pos harg, hi]

/-- Every register but CMD, CFG_ARG and D is read-only (R46, R273). -/
theorem hostWrite_refused (hx : s.host.st ≠ .xfer) (h0 : n ≠ 0) (hn : n.toNat < 4 ∨ 16 ≤ n.toNat) (v : Word) :
    s.turn (.host (.writeReg n v)) =
      .refused (if (s.regImage n).isSome then .readOnlyRegister else .noSuchRegister) := by
  have harg : n.extractLsb' 2 6 ≠ 1 := by
    intro h
    have := congrArg BitVec.toNat h
    simp only [BitVec.extractLsb'_toNat, Nat.shiftRight_eq_div_pow, BitVec.ofNat_eq_ofNat, BitVec.toNat_ofNat] at this
    omega
  have hdesc : n.extractLsb' 3 5 ≠ 1 := by
    intro h
    have := congrArg BitVec.toNat h
    simp only [BitVec.extractLsb'_toNat, Nat.shiftRight_eq_div_pow, BitVec.ofNat_eq_ofNat, BitVec.toNat_ofNat] at this
    omega
  simp only [State.turn, State.hostTurn, State.hostWrite]
  rw [if_neg h0, if_neg hx, if_neg harg, if_neg hdesc]
  split <;> rfl

/-- A host write of D`i`: the defined bits of the value are kept in D`i`, which is marked as written; nothing else
changes (R23, R24). -/
theorem hostWrite_desc_effect (hx : s.host.st ≠ .xfer) (i : BitVec 3) (v : Word) :
    ∃ t, s.turn (.host (.writeReg (8 + i.setWidth 8) v)) = .next t ∧
      t.regImage (8 + i.setWidth 8) = some (v &&& descMask i) ∧
      (∀ n, n ≠ 8 + i.setWidth 8 → t.regImage n = s.regImage n) ∧
      t.desc.has i.toNat = true ∧ (∀ j, j ≠ i.toNat → t.desc.has j = s.desc.has j) ∧
      t = { s with desc := t.desc } := by
  refine ⟨_, hostWrite_desc hx i v, ?_, ?_, ?_, ?_, rfl⟩
  · rw [regImage_desc, Desc.hostWrite_reg, if_pos rfl]
  · intro n hn
    by_cases h8 : n.toNat < 8
    · exact regImage_host h8 _
    · by_cases h16 : n.toNat < 16
      · obtain ⟨j, rfl⟩ := desc_number (by omega) h16
        rw [regImage_desc, regImage_desc, Desc.hostWrite_reg, if_neg (fun e => hn (by rw [e]))]
      · exact regImage_ctl (by omega) s.host _
  · simp [Desc.hostWrite_has]
  · intro j hj
    simp [Desc.hostWrite_has, hj]

/-- A host write of CFG_ARG`i` changes that register alone (R46). -/
theorem hostWrite_arg_effect (hx : s.host.st ≠ .xfer) (i : BitVec 2) (v : Word) :
    ∃ t, s.turn (.host (.writeReg (4 + i.setWidth 8) v)) = .next t ∧ t.regImage (4 + i.setWidth 8) = some v ∧
      (∀ n, n ≠ 4 + i.setWidth 8 → t.regImage n = s.regImage n) ∧ t = { s with host := t.host } := by
  refine ⟨_, hostWrite_arg hx i v, ?_, ?_, rfl⟩
  · rw [regImage_arg, HostPort.writeArg_arg, if_pos rfl]
  · intro n hn
    by_cases h4 : n.toNat < 4
    · exact regImage_result h4 i v
    · by_cases h8 : n.toNat < 8
      · obtain ⟨j, rfl⟩ := arg_number (by omega) h8
        rw [regImage_arg, regImage_arg, HostPort.writeArg_arg, if_neg (fun e => hn (by rw [e]))]
      · by_cases h16 : n.toNat < 16
        · obtain ⟨j, rfl⟩ := desc_number (by omega) h16
          rw [regImage_desc, regImage_desc]
        · exact regImage_ctl (by omega) _ s.desc

/-! ## What a host read does -/

theorem hostRead_register (hx : s.host.st ≠ .xfer) (h0 : n ≠ 0) (hv : s.regImage n = some v) :
    s.turn (.host (.readReg n)) = .next { s with host := { s.host with rdata := v } } := by
  simp only [State.turn, State.hostTurn, State.hostRead]
  rw [if_neg hx, if_neg h0, hv]

theorem hostRead_none (hx : s.host.st ≠ .xfer) (h0 : n ≠ 0) (hv : s.regImage n = none) :
    s.turn (.host (.readReg n)) = .refused .noSuchRegister := by
  simp only [State.turn, State.hostTurn, State.hostRead]
  rw [if_neg hx, if_neg h0, hv]

theorem hostRead_cmd (hx : s.host.st ≠ .xfer) : s.turn (.host (.readReg 0)) = .refused .writeOnlyRegister :=
  (if_neg hx).trans (if_pos rfl)

theorem hostReadBuf_byte (hx : s.host.st ≠ .xfer) (i : BitVec 32) : s.turn (.host (.readBuf i)) =
    .next { s with host := { s.host with rdata := (Memory.read s.buf i.toNat).setWidth 32 } } := if_neg hx

theorem hostWriteBuf_byte (hx : s.host.st ≠ .xfer) (i : BitVec 32) (b : Byte) :
    s.turn (.host (.writeBuf i b)) = .next { s with buf := Memory.write s.buf i.toNat b } := if_neg hx

/-! ## Backend registers by number (R46) -/

theorem regImage_ctlA (hk : s.params.backend = .A) :
    s.regImage 0x10 = some s.a.crWord ∧ s.regImage 0x11 = some s.a.srWord ∧ s.regImage 0x12 = some s.a.fsrWord ∧
    s.regImage 0x13 = some (paramWord s.params) ∧ s.regImage 0x14 = some s.a.tcr.toWord ∧
    s.regImage 0x15 = some s.a.cfgr.toWord ∧ s.regImage 0x16 = some s.a.fcr.toWord := by
  simp [State.regImage, hk]

theorem regImage_ctlB (hk : s.params.backend = .B) :
    s.regImage 0x10 = some s.b.mcr.toWord ∧ s.regImage 0x11 = some s.b.flashSize ∧
    s.regImage 0x12 = some s.b.flshcr1.toWord ∧ s.regImage 0x13 = some s.b.ipAddr ∧
    s.regImage 0x14 = some s.b.ipcr1Word ∧ s.regImage 0x15 = some s.b.ipLen ∧
    s.regImage 0x16 = some s.b.sts.toWord := by
  simp [State.regImage, hk]

theorem regImage_lut (hk : s.params.backend = .B) :
    s.regImage 0x20 = some s.b.lut.w0 ∧ s.regImage 0x21 = some s.b.lut.w1 ∧ s.regImage 0x22 = some s.b.lut.w2 ∧
    s.regImage 0x23 = some s.b.lut.w3 ∧ s.regImage 0x24 = some s.b.lut.w4 ∧ s.regImage 0x25 = some s.b.lut.w5 ∧
    s.regImage 0x26 = some s.b.lut.w6 ∧ s.regImage 0x27 = some s.b.lut.w7 := by
  simp [State.regImage, hk, Lut.get]

/-- Settles O19: the image of FSR holds both lengths, each below 256 by the invariant, and its number is read-only. -/
theorem fifoStatus : Obligations.FifoStatus := by
  unfold Obligations.FifoStatus
  refine ⟨?_, fun p => ⟨rfl, rfl⟩⟩
  intro s h hk
  obtain ⟨-, -, hfsr, -⟩ := regImage_ctlA hk
  have hlen : s.a.txf.length < 256 ∧ s.a.rxf.length < 256 := by
    have hp := h.params
    have htx := h.txBound
    have hrx := h.rxBound
    simp only [Params.wf, decide_eq_true_eq] at hp
    omega
  refine ⟨_, hfsr, ?_, ?_, ?_, ?_, ?_⟩
  · simp only [BitVec.extractLsb'_toNat, CtlA.fsrWord_toNat, Nat.shiftRight_eq_div_pow]
    omega
  · simp only [BitVec.extractLsb'_toNat, CtlA.fsrWord_toNat, Nat.shiftRight_eq_div_pow]
    omega
  · apply BitVec.eq_of_toNat_eq
    simp only [BitVec.extractLsb'_toNat, CtlA.fsrWord_toNat, Nat.shiftRight_eq_div_pow, BitVec.ofNat_eq_ofNat,
      BitVec.toNat_ofNat]
    omega
  · apply BitVec.eq_of_toNat_eq
    simp only [BitVec.extractLsb'_toNat, CtlA.fsrWord_toNat, Nat.shiftRight_eq_div_pow, BitVec.ofNat_eq_ofNat,
      BitVec.toNat_ofNat]
    omega
  · intro x
    by_cases hx : s.host.st = .xfer
    · rw [if_pos hx]
      exact if_pos hx
    · rw [hostWrite_refused hx (by decide) (by decide), hfsr, if_neg hx]
      rfl

/-- Settles O18: one lemma for each kind of access, and the images by number. -/
theorem hostRegisters : Obligations.HostRegisters := by
  unfold Obligations.HostRegisters
  refine ⟨fun s i v hx => hostWrite_desc_effect hx i v, fun s i v hx => hostWrite_arg_effect hx i v, ?_, regImage_none_iff,
    ?_⟩
  · intro s n hx h0
    refine ⟨fun v hv => hostRead_register hx h0 hv, fun hv => ⟨hostRead_none hx h0 hv, fun v => ?_⟩, fun v x hv hn => ?_,
      hostRead_cmd hx, fun i => hostReadBuf_byte hx i, fun i b hm => ⟨_, hostWriteBuf_byte hx i b, ?_, fun j hj => ?_⟩⟩
    · have hn := ((regImage_none_iff s n).1 hv).resolve_left h0
      rw [hostWrite_refused hx h0 (by omega), hv]
      rfl
    · rw [hostWrite_refused hx h0 hn, hv]
      rfl
    · rw [Memory.read_write hm, if_pos rfl]
    · rw [Memory.read_write hm, if_neg hj]
  · intro s
    refine ⟨?_, ?_, rfl, rfl, rfl, rfl, rfl, rfl, rfl, rfl, rfl, rfl, rfl, rfl, rfl, fun hk => ?_, fun hk => ?_⟩
    · show some s.host.stateWord.toNat = _
      rw [HostPort.stateWord_toNat]
      cases s.host.st <;> rfl
    · exact congrArg some s.host.resWord_toNat
    · obtain ⟨h10, h11, h12, h13, h14, h15, h16⟩ := regImage_ctlA hk
      rw [h10, h11, h12, h13, h14, h15, h16]
      exact ⟨congrArg some s.a.crWord_toNat, congrArg some s.a.srWord_toNat, congrArg some s.a.fsrWord_toNat,
        congrArg some (paramWord_toNat _), congrArg some s.a.tcr.toWord_toNat, congrArg some s.a.cfgr.toWord_toNat,
        congrArg some s.a.fcr.toWord_toNat⟩
    · obtain ⟨h10, h11, h12, h13, h14, h15, h16⟩ := regImage_ctlB hk
      rw [h10, h11, h12, h13, h14, h15, h16]
      refine ⟨congrArg some s.b.mcr.toWord_toNat, rfl, congrArg some s.b.flshcr1.toWord_toNat, rfl, ?_, rfl,
        congrArg some s.b.sts.toWord_toNat, regImage_lut hk⟩
      rw [Option.map_some, CtlB.ipcr1Word_toNat]
      cases s.b.ipXtype <;> rfl

end Sys2Proof.Machine
end

section
/-! What each family of instructions can change: the controller operations, the sequencer steps and the table opcodes,
each taken apart once, and from that the frame of every instruction that is no host command. -/

namespace Sys2Proof.Machine

variable {s t : State} {i : Instr}

/-! ## The controller operations (41_backend_a_fifo.md R160 to R165) -/

/-- What a controller operation does, where it answers a next state. -/
theorem exec_ctl_next {p : CtlPort} (hp : (encode i).space = .ctl p) (h : exec i s = .next t) :
    (∃ e, i = .flush e ∧ t = s.flushFifos) ∨ (i = .clrflags ∧ t = s.clearFlags) ∨ (i = .enable ∧ t = s.enable) ∨
    (∃ cpol cpha cont contc r x w, i = .setctl cpol cpha cont contc r x w ∧ t = s.setCtl w r x) ∨
    (∃ d, i = .push d ∧ t = s.pushTx d) ∨
    (∃ d b rest, i = .pop d ∧ s.a.rxf = b :: rest ∧ t = s.popRx b rest) := by
  cases i with
  | flush e => cases h; exact .inl ⟨e, rfl, rfl⟩
  | clrflags => cases h; exact .inr (.inl ⟨rfl, rfl⟩)
  | enable => cases h; exact .inr (.inr (.inl ⟨rfl, rfl⟩))
  | setctl cpol cpha cont contc r x w =>
    cases h; exact .inr (.inr (.inr (.inl ⟨_, _, _, _, _, _, _, rfl, rfl⟩)))
  | push d =>
    simp only [exec, execPush] at h
    split at h
    · cases h
    · cases h; exact .inr (.inr (.inr (.inr (.inl ⟨d, rfl, rfl⟩))))
  | pop d =>
    simp only [exec, execPop] at h
    split at h
    · cases h
    · rename_i b rest hr
      cases h; exact .inr (.inr (.inr (.inr (.inr ⟨d, b, rest, rfl, hr, rfl⟩))))
  | _ => simp [encode, lutCode] at hp

/-! ## The sequencer steps (R169 to R175) -/

/-- A sequencer step hands over lines, A.ADDR having stored its bytes, or goes on to another phase. -/
theorem exec_seq_next {d : Bool} (hp : (encode i).space = .seq d) (h : exec i s = .next t) :
    (∃ m ops, i = .aAddr ∧ t = { s with a := { s.a with scratch := m } }.issueOps ops) ∨
    (∃ ops, t = s.issueOps ops) ∨ (∃ p, t = s.goto p) := by
  cases i with
  | aStart => cases h; exact .inr (.inl ⟨_, rfl⟩)
  | aInstr =>
    simp only [exec, execAInstr] at h
    split at h <;> cases h
    · exact .inr (.inl ⟨_, rfl⟩)
    · exact .inr (.inr ⟨_, rfl⟩)
  | aAddr =>
    simp only [exec, execAAddr] at h
    split at h
    · split at h <;> cases h
      exact .inl ⟨_, _, rfl, rfl⟩
    · cases h
      exact .inr (.inr ⟨_, rfl⟩)
  | aDummy =>
    simp only [exec, execADummy] at h
    split at h <;> cases h
    · exact .inr (.inl ⟨_, rfl⟩)
    · exact .inr (.inr ⟨_, rfl⟩)
  | aDataW =>
    simp only [exec, execADataW] at h
    split at h
    · split at h <;> cases h
      · exact .inr (.inl ⟨_, rfl⟩)
      · exact .inr (.inl ⟨_, rfl⟩)
    · cases h
      exact .inr (.inr ⟨_, rfl⟩)
  | aDataR =>
    simp only [exec, execADataR] at h
    split at h <;> cases h
    · exact .inr (.inl ⟨_, rfl⟩)
    · exact .inr (.inr ⟨_, rfl⟩)
  | aEnd => cases h; exact .inr (.inl ⟨_, rfl⟩)
  | _ => simp [encode, lutCode] at hp

/-! ## The table opcodes (42_backend_b_lut.md R205 to R212) -/

/-- What a table opcode can change: the trace, the buffer, SLOT, BIDX, STS and the free-value counter. -/
def lutChange (s : State) (tr : List Event) (m : Memory) (slot : BitVec 4) (bidx : BitVec 32) (sts : Sts) (n : Nat) :
    State :=
  { s with trace := tr, buf := m, b := { s.b with slot := slot, bidx := bidx, sts := sts }, env := { s.env with free := n } }

theorem dataAdvance_change (s : State) : ∃ slot bidx, s.dataAdvance = { s with b := { s.b with slot := slot, bidx := bidx } } := by
  unfold State.dataAdvance
  split
  · exact ⟨_, _, rfl⟩
  · exact ⟨_, _, rfl⟩

/-- Only a READ that moves a byte stores in the buffer, at BIDX (R211). -/
theorem exec_lut_next (hp : (encode i).space = .lut) (h : exec i s = .next t) :
    ∃ tr m slot bidx sts n, t = lutChange s tr m slot bidx sts n ∧
      (m = s.buf ∨ (∃ w x, i = .read w x) ∧ s.b.ipXtype = .read ∧ s.b.bidx < s.b.ipLen ∧
        ∃ b, m = Memory.write s.buf s.b.bidx.toNat b) := by
  cases i with
  | stop => cases h; exact ⟨_, _, _, _, _, _, rfl, .inl rfl⟩
  | cmd w b => cases h; exact ⟨_, _, _, _, _, _, rfl, .inl rfl⟩
  | raddr w n =>
    simp only [exec, execRaddr, State.emitAll_eq] at h
    split at h <;> cases h
    · exact ⟨_, _, _, _, _, _, rfl, .inl rfl⟩
    · exact ⟨_, _, _, _, _, _, rfl, .inl rfl⟩
  | mode8 w m => cases h; exact ⟨_, _, _, _, _, _, rfl, .inl rfl⟩
  | write w x =>
    simp only [exec, execWrite] at h
    split at h
    · cases h; exact ⟨_, _, _, _, _, _, rfl, .inl rfl⟩
    · split at h <;> cases h
      · obtain ⟨slot, bidx, e⟩ := dataAdvance_change (s.emit (.out w (s.readBuf s.b.bidx)))
        rw [e]
        exact ⟨_, _, _, _, _, _, rfl, .inl rfl⟩
      · exact ⟨_, _, _, _, _, _, rfl, .inl rfl⟩
  | read w x =>
    simp only [exec, execRead] at h
    split at h
    · cases h; exact ⟨_, _, _, _, _, _, rfl, .inl rfl⟩
    · rename_i hx
      split at h <;> cases h
      · rename_i hl
        obtain ⟨slot, bidx, e⟩ := dataAdvance_change (s.readByte w)
        rw [e]
        exact ⟨_, _, _, _, _, _, rfl, .inr ⟨⟨w, x, rfl⟩, not_not.1 hx, hl, _, rfl⟩⟩
      · exact ⟨_, _, _, _, _, _, rfl, .inl rfl⟩
  | dummy w c => cases h; exact ⟨_, _, _, _, _, _, rfl, .inl rfl⟩
  | _ => simp [encode] at hp

/-! ## The frame -/

/-- What no instruction but a host command changes (R8, R23, R48, R300). -/
structure SameOutside (s t : State) : Prop where
  params : t.params = s.params
  host : t.host = s.host
  desc : t.desc = s.desc
  cs : t.cs = s.cs
  pins : t.env.pins = s.env.pins
  turns : t.env.turns = s.env.turns
  past : t.env.past = s.env.past

/-- What a controller operation leaves alone, by the operation (R160 to R165). -/
theorem exec_ctl_frame {p : CtlPort} (hp : (encode i).space = .ctl p) (h : exec i s = .next t) :
    SameOutside s t ∧ t.buf = s.buf ∧ t.b = s.b ∧ t.trace = s.trace ∧ t.env = s.env ∧
      t.seq = { s.seq with popData := t.seq.popData } ∧ ((∀ d, i ≠ .pop d) → t.seq = s.seq) ∧
      t.a.cfgr = s.a.cfgr ∧ t.a.fcr = s.a.fcr ∧ t.a.scratch = s.a.scratch ∧ t.a.shiftBusy = s.a.shiftBusy ∧
      ((∀ p a c d r x w, i ≠ .setctl p a c d r x w) → t.a.tcr = s.a.tcr) ∧
      (i ≠ .clrflags → t.a.sr = s.a.sr) ∧ (i ≠ .enable → t.a.en = s.a.en) ∧
      ((∀ d, i ≠ .push d) → (∀ e, i ≠ .flush e) → t.a.txf = s.a.txf) ∧
      ((∀ d, i ≠ .pop d) → (∀ e, i ≠ .flush e) → t.a.rxf = s.a.rxf) := by
  rcases exec_ctl_next hp h with ⟨e, rfl, rfl⟩ | ⟨rfl, rfl⟩ | ⟨rfl, rfl⟩ | ⟨_, _, _, _, r, x, w, rfl, rfl⟩ |
    ⟨d, rfl, rfl⟩ | ⟨d, b, rest, rfl, hr, rfl⟩
  all_goals refine ⟨⟨rfl, rfl, rfl, rfl, rfl, rfl, rfl⟩, rfl, rfl, rfl, rfl, rfl, ?_⟩
  · exact ⟨fun _ => rfl, rfl, rfl, rfl, rfl, fun _ => rfl, fun _ => rfl, fun _ => rfl,
      fun _ hf => absurd rfl (hf e), fun _ hf => absurd rfl (hf e)⟩
  · exact ⟨fun _ => rfl, rfl, rfl, rfl, rfl, fun _ => rfl, absurd rfl, fun _ => rfl, fun _ _ => rfl, fun _ _ => rfl⟩
  · exact ⟨fun _ => rfl, rfl, rfl, rfl, rfl, fun _ => rfl, fun _ => rfl, absurd rfl, fun _ _ => rfl, fun _ _ => rfl⟩
  · exact ⟨fun _ => rfl, rfl, rfl, rfl, rfl, fun hc => absurd rfl (hc _ _ _ _ _ _ _), fun _ => rfl, fun _ => rfl,
      fun _ _ => rfl, fun _ _ => rfl⟩
  · exact ⟨fun _ => rfl, rfl, rfl, rfl, rfl, fun _ => rfl, fun _ => rfl, fun _ => rfl,
      fun hd _ => absurd rfl (hd d), fun _ _ => rfl⟩
  · exact ⟨fun hd => absurd rfl (hd d), rfl, rfl, rfl, rfl, fun _ => rfl, fun _ => rfl, fun _ => rfl, fun _ _ => rfl,
      fun hd _ => absurd rfl (hd d)⟩

theorem exec_seq_frame {d : Bool} (hp : (encode i).space = .seq d) (h : exec i s = .next t) :
    SameOutside s t ∧ t.buf = s.buf ∧ t.b = s.b ∧ t.trace = s.trace ∧ t.env = s.env ∧
      t.seq.popData = s.seq.popData ∧ t.a = { s.a with scratch := t.a.scratch } ∧ (i ≠ .aAddr → t.a = s.a) := by
  rcases exec_seq_next hp h with ⟨m, ops, rfl, rfl⟩ | ⟨ops, rfl⟩ | ⟨p, rfl⟩
  · exact ⟨⟨rfl, rfl, rfl, rfl, rfl, rfl, rfl⟩, rfl, rfl, rfl, rfl, rfl, rfl, fun hi => absurd rfl hi⟩
  · exact ⟨⟨rfl, rfl, rfl, rfl, rfl, rfl, rfl⟩, rfl, rfl, rfl, rfl, rfl, rfl, fun _ => rfl⟩
  · exact ⟨⟨rfl, rfl, rfl, rfl, rfl, rfl, rfl⟩, rfl, rfl, rfl, rfl, rfl, rfl, fun _ => rfl⟩

theorem exec_lut_frame (hp : (encode i).space = .lut) (h : exec i s = .next t) :
    SameOutside s t ∧ t.a = s.a ∧ t.seq = s.seq ∧ t.b = { s.b with slot := t.b.slot, bidx := t.b.bidx, sts := t.b.sts } ∧
    (Memory.wf s.buf = true → ∀ n : Nat,
      ((∃ w x, i = .read w x) → s.b.ipXtype = .read → s.b.bidx.toNat < s.b.ipLen.toNat → n ≠ s.b.bidx.toNat) →
      Memory.read t.buf n = Memory.read s.buf n) := by
  obtain ⟨tr, m, slot, bidx, sts, k, rfl, hm⟩ := exec_lut_next hp h
  refine ⟨⟨rfl, rfl, rfl, rfl, rfl, rfl, rfl⟩, rfl, rfl, rfl, fun hwf n hn => ?_⟩
  rcases hm with hm | ⟨hi, hx, hl, b, hm⟩
  · exact congrArg (Memory.read · n) hm
  · calc Memory.read m n = Memory.read (Memory.write s.buf s.b.bidx.toNat b) n := by rw [hm]
      _ = Memory.read s.buf n := by rw [Memory.read_write hwf, if_neg (hn hi hx (BitVec.lt_def.1 hl))]

/-- The places of a word, and the two instructions of the place CMD. -/
theorem space_cases (hc : i ≠ .configure) (ht : i ≠ .transfer) :
    (∃ p, (encode i).space = .ctl p) ∨ (∃ d, (encode i).space = .seq d) ∨ (encode i).space = .lut := by
  cases i <;> simp_all [encode, lutCode]

/-- Settles O39: the frame of each family, and no clause of another family applies to it. -/
theorem instructionFrame : Obligations.InstructionFrame := by
  unfold Obligations.InstructionFrame
  intro s t i hc ht h
  rcases space_cases hc ht with ⟨p, hp⟩ | ⟨d, hp⟩ | hp
  · obtain ⟨o, hbuf, hctl⟩ := exec_ctl_frame hp h
    refine ⟨o.params, o.host, o.desc, o.cs, o.pins, o.turns, o.past, fun _ => hctl, ?_, ?_, fun _ n _ => by rw [hbuf]⟩
    · rintro ⟨d, hd⟩; simp [hp] at hd
    · intro hl; simp [hp] at hl
  · obtain ⟨o, hbuf, hseq⟩ := exec_seq_frame hp h
    refine ⟨o.params, o.host, o.desc, o.cs, o.pins, o.turns, o.past, ?_, fun _ => hseq, ?_, fun _ n _ => by rw [hbuf]⟩
    · rintro ⟨p, hd⟩; simp [hp] at hd
    · intro hl; simp [hp] at hl
  · obtain ⟨o, ha, hseq, hb, hbuf⟩ := exec_lut_frame hp h
    refine ⟨o.params, o.host, o.desc, o.cs, o.pins, o.turns, o.past, ?_, ?_, fun _ => ⟨ha, hseq, hb⟩, hbuf⟩
    · rintro ⟨p, hd⟩; simp [hp] at hd
    · rintro ⟨d, hd⟩; simp [hp] at hd

end Sys2Proof.Machine
end

section
/-! The machine of STATE (10_state.md R21): which turns write the host port's STATE, and that none writes a parameter. -/

namespace Sys2Proof.Machine

variable {s t : State} {i : Instr} {v : Word}

/-! ## What is decoded in a place belongs to it -/

theorem decode_ctl_space {p : CtlPort} (h : decode ⟨.ctl p, v⟩ = .ok i) : (encode i).space = .ctl p := by
  cases p <;> simp only [decode, decodeCtl, decodeTcr] at h <;> repeat' split at h
  all_goals cases h
  all_goals rfl

theorem decode_seq_space {d : Bool} (h : decode ⟨.seq d, v⟩ = .ok i) : ∃ d', (encode i).space = .seq d' := by
  simp only [decode, decodePhase] at h
  repeat' split at h
  all_goals cases h
  all_goals exact ⟨_, rfl⟩

theorem decode_cmd_word (h : decode ⟨.cmd, v⟩ = .ok i) : (v = 1 ∧ i = .configure) ∨ (v = 2 ∧ i = .transfer) := by
  simp only [decode, decodeCmd] at h
  repeat' split at h
  all_goals cases h
  · exact .inl ⟨‹_›, rfl⟩
  · exact .inr ⟨‹_›, rfl⟩

/-! ## The agents -/

theorem csRise_host (s : State) : s.csRise.host = s.host := by
  rcases s.csRise_cases with ⟨-, -, e⟩ | ⟨-, e⟩ <;> rw [e]

/-- Of SEQ's lines the result alone writes the host port. -/
theorem runLine_host {op : SeqOp} (h : op ≠ .result) : (s.runLine op).host = s.host := by
  cases op with
  | contOn => exact csRise_host _
  | issue => exact csRise_host _
  | result => exact absurd rfl h
  | _ => rfl

theorem endTransfer_st (s : State) : s.endTransfer.host.st = .idle := by
  unfold State.endTransfer State.havocBuf
  simp only
  split
  · split <;> rfl
  · rfl

theorem seqB_host (s : State) : s.seqB.host = s.host := by
  unfold State.seqB
  split <;> rfl

/-- SEQ has a line left only while a transfer runs. -/
theorem Inv.xfer_of_ops (h : Inv s) (ho : s.seq.ops ≠ []) : s.host.st = .xfer :=
  h.running.2 fun hp => ho (h.idle_ops hp)

/-- A turn of SEQ leaves the host port alone, or ends the transfer that runs. -/
theorem seqTurn_st (h : Inv s) (ht : s.seqTurn = .next t) :
    t.host.st = s.host.st ∨ (s.host.st = .xfer ∧ t.host.st = .idle) := by
  cases ho : s.seq.ops with
  | nil =>
    cases hk : s.params.backend with
    | B =>
      rw [seqTurn_nilB ho hk] at ht
      cases ht
      exact .inl (congrArg _ (seqB_host s))
    | A =>
      cases hf : s.fetchStep with
      | ok i =>
        rw [seqTurn_fetch ho hk hf] at ht
        obtain ⟨d, hd⟩ := decode_seq_space hf
        exact .inl (congrArg _ (exec_seq_frame hd ht).1.host)
      | error e =>
        simp only [State.seqTurn, ho, hk, hf] at ht
        cases ht
        exact .inl rfl
  | cons op rest =>
    have hx : s.host.st = .xfer := h.xfer_of_ops (by simp [ho])
    rw [seqTurn_cons ho] at ht
    cases op with
    | ctl p v =>
      simp only [State.runOp] at ht
      split at ht
      · rename_i i hd
        exact .inl (congrArg _ (exec_ctl_frame (decode_ctl_space hd) ht).1.host)
      · cases ht
    | wait p =>
      rw [runOp_wait] at ht
      cases ht
      split <;> exact .inl rfl
    | result =>
      cases ht
      exact .inr ⟨hx, endTransfer_st _⟩
    | _ =>
      cases ht
      exact .inl (congrArg _ (runLine_host (by simp)))

theorem engineA_host (s : State) : s.engineA.host = s.host := by
  rcases engineA_cases s with e | ⟨b, rest, -, -, -, -, e⟩ | ⟨-, -, -, -, e⟩
  · rw [e]
  · rw [e, State.txFrame]
    split <;> rfl
  · obtain ⟨b, tr, n, e'⟩ := rxFrame_eq s
    rw [e, e']

theorem engineB_host (ht : s.engineB = .next t) : t.host = s.host := by
  unfold State.engineB at ht
  split at ht
  · cases ht; rfl
  · split at ht
    · cases ht; rfl
    · split at ht
      · cases ht; rfl
      · split at ht
        · cases ht
        · rename_i half hf
          rw [decode_lut_half] at ht
          split at ht
          · cases ht; rfl
          · exact (exec_lut_frame (decodeHalf_isLut ‹_›) ht).1.host

theorem engineTurn_host (ht : s.engineTurn = .next t) : t.host = s.host := by
  unfold State.engineTurn at ht
  split at ht
  · cases ht
    exact engineA_host s
  · exact engineB_host ht

theorem csTurn_host (s : State) : s.csTurn.host = s.host := by
  obtain ⟨c, tr, e, -⟩ := csTurn_cases s
  rw [e]

/-! ## The host's turns -/

/-- CONFIGURE leaves UNINIT where the configuration succeeds (R21, R130). -/
theorem configure_st (h : Inv s) (ht : execConfigure s = .next t) :
    t.host.st = s.host.st ∨ (s.host.st = .uninit ∧ t.host.st = .idle) := by
  unfold execConfigure at ht
  split at ht
  · cases ht
  · split at ht
    · cases ht
      exact .inl rfl
    · rename_i hc
      split at ht <;> cases ht
      · unfold State.havocConfig
        simp only
        split <;> exact .inl rfl
      · exact .inr ⟨by_contra fun hu => hc (h.latch.2 hu), rfl⟩

/-- TRANSFER leaves IDLE where it accepts the descriptor (R21, R133). -/
theorem transfer_st (ht : execTransfer s = .next t) :
    t.host.st = s.host.st ∨ (s.host.st = .idle ∧ t.host.st = .xfer) := by
  unfold execTransfer at ht
  split at ht
  · cases ht
  · cases ht
    exact .inl rfl
  · rename_i hi
    split at ht <;> cases ht
    · exact .inl rfl
    · exact .inr ⟨hi, rfl⟩

/-- A host turn moves STATE only by one of the two commands (R21), and writes no parameter (R48). -/
theorem hostTurn_st {act : HostAct} (h : Inv s) (ht : s.hostTurn act = .next t) : t.params = s.params ∧
    (t.host.st = s.host.st ∨
      (act = .writeReg 0 1 ∧ s.host.st = .uninit ∧ t.host.st = .idle) ∨
      (act = .writeReg 0 2 ∧ s.host.st = .idle ∧ t.host.st = .xfer)) := by
  cases act with
  | writeReg n v =>
    simp only [State.hostTurn, State.hostWrite] at ht
    split at ht
    · rename_i hn
      subst hn
      split at ht
      · rename_i i hd
        refine ⟨(exec_desc ht).2, ?_⟩
        rcases decode_cmd_word hd with ⟨rfl, rfl⟩ | ⟨rfl, rfl⟩
        · exact (configure_st h ht).imp_right fun e => .inl ⟨rfl, e⟩
        · exact (transfer_st ht).imp_right fun e => .inr ⟨rfl, e⟩
      · cases ht
    · repeat' split at ht
      all_goals cases ht
      · obtain ⟨a0, a1, a2, a3, e⟩ := s.host.writeArg_frame (n.extractLsb' 0 2) v
        exact ⟨rfl, .inl (by rw [e])⟩
      · exact ⟨rfl, .inl rfl⟩
  | readReg n =>
    simp only [State.hostTurn, State.hostRead] at ht
    repeat' split at ht
    all_goals cases ht
    exact ⟨rfl, .inl rfl⟩
  | writeBuf i b =>
    simp only [State.hostTurn, State.hostWriteBuf] at ht
    split at ht <;> cases ht
    exact ⟨rfl, .inl rfl⟩
  | readBuf i =>
    simp only [State.hostTurn, State.hostReadBuf] at ht
    split at ht <;> cases ht
    exact ⟨rfl, .inl rfl⟩

/-- Settles O60: agent by agent, each edge of R21 is taken by the turn that the statement names. -/
theorem stateMachine : Obligations.StateMachine := by
  unfold Obligations.StateMachine
  intro s t x h ht
  cases x with
  | host act =>
    obtain ⟨hp, hst | ⟨rfl, hst⟩ | ⟨rfl, hst⟩⟩ := hostTurn_st h ht
    · exact ⟨hp, by simp [agentTurn], .inl hst⟩
    · exact ⟨hp, by simp [agentTurn], .inr (.inl ⟨rfl, hst⟩)⟩
    · exact ⟨hp, by simp [agentTurn], .inr (.inr (.inl ⟨rfl, hst⟩))⟩
  | seq =>
    obtain ⟨hd, hp⟩ := turn_desc rfl ht
    exact ⟨hp, fun _ => hd, (seqTurn_st h ht).imp_right fun e => .inr (.inr (.inl ⟨rfl, e⟩))⟩
  | engine =>
    obtain ⟨hd, hp⟩ := turn_desc rfl ht
    exact ⟨hp, fun _ => hd, .inl (congrArg _ (engineTurn_host ht))⟩
  | cs =>
    obtain ⟨hd, hp⟩ := turn_desc rfl ht
    cases ht
    exact ⟨hp, fun _ => hd, .inl (congrArg _ (csTurn_host s))⟩
  | setPins p =>
    obtain ⟨hd, hp⟩ := turn_desc rfl ht
    cases ht
    exact ⟨hp, fun _ => hd, .inl rfl⟩
  | reset =>
    cases ht
    exact ⟨rfl, by simp [agentTurn], .inr (.inr (.inr (.inr ⟨rfl, rfl⟩)))⟩

end Sys2Proof.Machine
end

section
/-! The serialisation of a value (20_memory.md R71), and what the host may do while a transfer runs (R84, R273, R312). -/

namespace Sys2Proof.Machine

/-! ## Serialisation (R71) -/

/-- Byte `i` of `n` is the value's bits from `8 * (n - 1 - i)` upwards. -/
theorem serialise_getElem (c : Word) (n i : Nat) (h : i < (serialise c n).length) :
    (serialise c n)[i] = (c >>> (8 * (n - 1 - i))).setWidth 8 := by
  simp [serialise]

/-- The byte of weight `256 ^ k`, which is 0 where the shift is 32 or more. -/
theorem byte_toNat (c : Word) (k : Nat) : ((c >>> (8 * k)).setWidth 8).toNat = c.toNat / 256 ^ k % 256 := by
  have hpow : 2 ^ (8 * k) = 256 ^ k := Nat.pow_mul 2 8 k
  rw [BitVec.toNat_setWidth, BitVec.toNat_ushiftRight, Nat.shiftRight_eq_div_pow, hpow]

/-- Settles O6: byte `i` is the one of weight `256 ^ (size - 1 - i)`. -/
theorem serialiseBigEndian : Obligations.SerialiseBigEndian := by
  unfold Obligations.SerialiseBigEndian
  intro c size
  refine ⟨serialise_length c size, fun i h => ?_⟩
  rw [serialise_getElem, byte_toNat]

/-! ## The host during a transfer (R84, R273, R312) -/

variable {s : State} {v : Word}

theorem execConfigure_xfer (hx : s.host.st = .xfer) : execConfigure s = .refused .commandDuringTransfer := if_pos hx

theorem execTransfer_xfer (hx : s.host.st = .xfer) : execTransfer s = .refused .commandDuringTransfer := by
  simp only [execTransfer, hx]

/-- A word that is no command code is refused in every state (R273). -/
theorem hostWrite_unknownCommand (s : State) (h1 : v ≠ 1) (h2 : v ≠ 2) :
    s.turn (.host (.writeReg 0 v)) = .refused .unknownCommand := by
  simp only [State.turn, State.hostTurn, State.hostWrite, if_true]
  cases hd : decode ⟨.cmd, v⟩ with
  | ok i =>
    rcases decode_cmd_word hd with ⟨hv, -⟩ | ⟨hv, -⟩
    · exact absurd hv h1
    · exact absurd hv h2
  | error e => rfl

/-- The first test of a host write after that of CMD is whether a transfer runs. -/
theorem hostWrite_blocked (hx : s.host.st = .xfer) {n : BitVec 8} (hn : n ≠ 0) (v : Word) :
    s.turn (.host (.writeReg n v)) = .refused .hostBlocked := (if_neg hn).trans (if_pos hx)

/-- Settles O17: action by action; a read and an access to BUF test STATE before anything else. -/
theorem hostBlocked : Obligations.HostBlocked := by
  unfold Obligations.HostBlocked
  intro s hx
  exact ⟨execConfigure_xfer hx, execTransfer_xfer hx, fun _ v hn => hostWrite_blocked hx hn v,
    fun _ h1 h2 => hostWrite_unknownCommand s h1 h2, fun _ => if_pos hx, fun _ _ => if_pos hx, fun _ => if_pos hx⟩

end Sys2Proof.Machine
end

section
/-! The encoder writes what the decoder reads (30_encoding.md R100, R103, R105, R108; 41_backend_a_fifo.md R160 to R165;
10_state.md R25), the illegal half-words, the compiled program (42_backend_b_lut.md R200, R201), and the step that
runs what was decoded. -/

namespace Sys2Proof

open Sys2Proof.Machine

variable {v : Word} {h : Half} {i : Instr}

/-! ## Fields put together again (R100, R103) -/

@[simp] theorem encodeHalf_fields (h : Half) : encodeHalf (halfOp h) (halfW h) (halfOperand h) = h := by
  apply BitVec.eq_of_getLsbD_eq
  intro i hi
  rw [encodeHalf_getLsbD]
  simp only [halfOp, halfW, halfOperand, BitVec.getLsbD_extractLsb']
  by_cases h8 : i < 8
  · simp [h8]
  · by_cases h10 : i < 10
    · simp [h8, h10, show i - 8 < 2 by omega, show 8 + (i - 8) = i by omega]
    · simp [h8, h10, show i - 10 < 6 by omega, show 10 + (i - 10) = i by omega]

/-- Code 3 is the one reserved width code. -/
theorem Width.ofCode_eq_none (c : BitVec 2) : Width.ofCode c = none ↔ c = 3 := by
  revert c
  decide

theorem Width.code_of_ofCode {c : BitVec 2} {w : Width} (hc : Width.ofCode c = some w) : w.code = c := by
  revert c w
  decide

/-- Settles O3: the fields of an encoded half-word, a half-word from its fields, and the three width codes. -/
theorem halfWordFields : Obligations.HalfWordFields := by
  unfold Obligations.HalfWordFields
  refine ⟨fun op w x => ⟨?_, ?_, ?_⟩, encodeHalf_fields, rfl, rfl, rfl, ?_, by decide⟩
  · exact halfOp_encodeHalf op w x
  · exact halfW_encodeHalf op w x
  · exact halfOperand_encodeHalf op w x
  · rintro (_ | _ | _) <;> rfl

/-! ## Legal and illegal half-words (R105) -/

/-- The operation codes of R104 that carry a width. -/
def widthOp (op : BitVec 6) : Prop :=
  op = opCmd ∨ op = opRaddr ∨ op = opMode8 ∨ op = opWrite ∨ op = opRead ∨ op = opDummy

theorem decodeHalf_stop (ho : halfOp h = opStop) :
    decodeHalf h = if halfW h = 0 ∧ halfOperand h = 0 then .ok .stop else .error .stopOperand := if_pos ho

theorem decodeHalf_reservedOp (hs : halfOp h ≠ opStop) (ho : ¬widthOp (halfOp h)) :
    decodeHalf h = .error .reservedOp := (if_neg hs).trans (if_neg ho)

theorem widthOp_ne_stop {op : BitVec 6} (ho : widthOp op) : op ≠ opStop := by
  rintro rfl
  exact absurd ho (by unfold widthOp; decide)

theorem decodeHalf_reservedWidth (ho : widthOp (halfOp h)) (hw : halfW h = 3) :
    decodeHalf h = .error .reservedWidth := by
  refine (if_neg (widthOp_ne_stop ho)).trans ((if_pos ho).trans ?_)
  rw [(Width.ofCode_eq_none _).2 hw]

/-- The instruction of an operation code with a width, before the limit on RADDR's operand. -/
def widthInstr (op : BitVec 6) (w : Width) (x : Byte) : Instr :=
  if op = opCmd then .cmd w x
  else if op = opRaddr then .raddr w x
  else if op = opMode8 then .mode8 w x
  else if op = opWrite then .write w x
  else if op = opRead then .read w x
  else .dummy w x

theorem decodeHalf_widthOp {w : Width} (ho : widthOp (halfOp h)) (hw : Width.ofCode (halfW h) = some w) :
    decodeHalf h = if halfOp h = opRaddr ∧ 4 < (halfOperand h).toNat then .error .raddrOperand
      else .ok (widthInstr (halfOp h) w (halfOperand h)) := by
  refine (if_neg (widthOp_ne_stop ho)).trans ((if_pos ho).trans ?_)
  simp only [hw]
  generalize halfOp h = op at ho
  obtain rfl | rfl | rfl | rfl | rfl | rfl := ho
  · rfl
  · by_cases hx : (halfOperand h).toNat ≤ 4
    · simp [hx, opRaddr, opCmd, widthInstr]
    · simp [hx, opRaddr, opCmd]
  all_goals rfl

theorem illegalOp_iff (op : BitVec 6) : op ≠ opStop ∧ ¬widthOp op ↔
    op ≠ 0x00 ∧ op ≠ 0x01 ∧ op ≠ 0x02 ∧ op ≠ 0x07 ∧ op ≠ 0x08 ∧ op ≠ 0x09 ∧ op ≠ 0x0C := by
  simp only [widthOp, not_or]
  rfl

/-- Settles O4: the operation code is STOP's, or one with a width, or reserved. -/
theorem illegalHalfWords : Obligations.IllegalHalfWords := by
  unfold Obligations.IllegalHalfWords
  intro h
  rw [← illegalOp_iff]
  by_cases hs : halfOp h = opStop
  · rw [decodeHalf_stop hs]
    split
    case isTrue hz => simp [hs, hz, opStop]
    case isFalse hn => exact ⟨fun _ => .inr (.inr (.inl ⟨hs, not_and_or.1 hn⟩)), fun _ => ⟨_, rfl⟩⟩
  · by_cases ho : widthOp (halfOp h)
    · cases hw : Width.ofCode (halfW h) with
      | none =>
        have h3 := (Width.ofCode_eq_none _).1 hw
        simp [decodeHalf_reservedWidth ho h3, h3]
      | some w =>
        have h3 : halfW h ≠ 3 := fun h3 => by simp [(Width.ofCode_eq_none _).2 h3] at hw
        rw [decodeHalf_widthOp ho hw]
        split
        case isTrue hx => exact ⟨fun _ => .inr (.inr (.inr hx)), fun _ => ⟨_, rfl⟩⟩
        case isFalse hx =>
          refine iff_of_false (by rintro ⟨-, ⟨⟩⟩) ?_
          rintro (⟨-, hn⟩ | hw3 | ⟨h0, -⟩ | hr)
          exacts [hn ho, h3 hw3, hs h0, hx hr]
    · simp [decodeHalf_reservedOp hs ho, hs, ho]

/-! ## A half-word that decodes is the half-word of its instruction -/

theorem encode_widthInstr {op : BitVec 6} (ho : widthOp op) (w : Width) (x : Byte) :
    encode (widthInstr op w x) = lutCode op w.code x := by
  obtain rfl | rfl | rfl | rfl | rfl | rfl := ho <;> rfl

/-- RADDR's operand is the only limit on an instruction with a width. -/
theorem widthInstr_wellFormed {op : BitVec 6} {x : Byte} (ho : widthOp op) (hx : ¬(op = opRaddr ∧ 4 < x.toNat))
    (w : Width) : (widthInstr op w x).wellFormed = true := by
  obtain rfl | rfl | rfl | rfl | rfl | rfl := ho
  case inr.inl => exact decide_eq_true (not_lt.1 fun h4 => hx ⟨rfl, h4⟩)
  all_goals rfl

/-- The low half of a half-word's code word is the half-word. -/
@[simp] theorem lowHalf_setWidth (h : Half) : lowHalf (h.setWidth 32) = h := by
  simpa [packHalves] using lowHalf_pack h 0

/-- The legality rule R105 lets through what the encoder writes, and nothing else. -/
theorem encode_of_decodeHalf (hd : decodeHalf h = .ok i) :
    i.wellFormed = true ∧ encode i = ⟨.lut, h.setWidth 32⟩ := by
  by_cases hs : halfOp h = opStop
  · rw [decodeHalf_stop hs] at hd
    split at hd
    case isTrue hz =>
      cases hd
      refine ⟨rfl, ?_⟩
      rw [← encodeHalf_fields h, hs, hz.1, hz.2]
      rfl
    case isFalse => cases hd
  · by_cases ho : widthOp (halfOp h)
    · cases hw : Width.ofCode (halfW h) with
      | none =>
        rw [decodeHalf_reservedWidth ho ((Width.ofCode_eq_none _).1 hw)] at hd
        cases hd
      | some w =>
        rw [decodeHalf_widthOp ho hw] at hd
        split at hd
        case isTrue => cases hd
        case isFalse hx =>
          cases hd
          refine ⟨widthInstr_wellFormed ho hx w, ?_⟩
          rw [encode_widthInstr ho, Width.code_of_ofCode hw, lutCode, encodeHalf_fields]
    · rw [decodeHalf_reservedOp hs ho] at hd
      cases hd

/-! ## A word that decodes is the word of its instruction -/

/-- A word with nothing above its low `k` bits is those bits. -/
theorem setWidth_low_bits {k m : Nat} (hk : k + m = 32) (hv : v.extractLsb' k m = 0) :
    (v.extractLsb' 0 k).setWidth 32 = v := by
  apply BitVec.eq_of_getLsbD_eq
  intro i hi
  rw [BitVec.getLsbD_setWidth, BitVec.getLsbD_extractLsb']
  by_cases hik : i < k
  · simp [hi, hik]
  · have hb := congrArg (·.getLsbD (i - k)) hv
    simp only [BitVec.getLsbD_extractLsb', show k + (i - k) = i by omega, show i - k < m by omega] at hb
    simpa [hik] using hb.symm

/-- A word is the fields of TCR (10_state.md R31) put side by side. -/
theorem tcr_fields (v : Word) :
    v.extractLsb' 16 16 ++ BitVec.ofBool (v.getLsbD 15) ++ BitVec.ofBool (v.getLsbD 14) ++ v.extractLsb' 6 8 ++
      BitVec.ofBool (v.getLsbD 5) ++ BitVec.ofBool (v.getLsbD 4) ++ BitVec.ofBool (v.getLsbD 3) ++
      BitVec.ofBool (v.getLsbD 2) ++ v.extractLsb' 0 2 = v := by
  apply BitVec.eq_of_getLsbD_eq
  intro i hi
  simp only [BitVec.getLsbD_append, BitVec.getLsbD_extractLsb', BitVec.getLsbD_ofBool]
  interval_cases i <;> simp

theorem encode_of_decodeTcr (hd : decodeTcr v = .ok i) : i.wellFormed = true ∧ encode i = ⟨.ctl .tcr, v⟩ := by
  unfold decodeTcr at hd
  split at hd
  case isFalse => cases hd
  case isTrue hc =>
    cases hw : Width.ofCode (v.extractLsb' 0 2) with
    | none => simp [hw] at hd
    | some w =>
      simp only [hw] at hd
      split at hd
      case isTrue => cases hd
      case isFalse hm =>
        cases hd
        refine ⟨by rw [Instr.wellFormed, Bool.eq_false_of_not_eq_true hm]; rfl, ?_⟩
        have hv := tcr_fields v
        rw [hc.1, hc.2, ← Width.code_of_ofCode hw] at hv
        exact congrArg (CodeWord.mk _) hv

theorem encode_of_decodeCtl {p : CtlPort} (hd : decodeCtl p v = .ok i) :
    i.wellFormed = true ∧ encode i = ⟨.ctl p, v⟩ := by
  cases p with
  | tcr => exact encode_of_decodeTcr hd
  | cr =>
    simp only [decodeCtl] at hd
    split_ifs at hd <;> cases hd <;> subst v <;> exact ⟨rfl, rfl⟩
  | sr =>
    simp only [decodeCtl] at hd
    split_ifs at hd
    cases hd
    subst v
    exact ⟨rfl, rfl⟩
  | tdr =>
    simp only [decodeCtl] at hd
    split_ifs at hd with h1
    cases hd
    exact ⟨rfl, congrArg (CodeWord.mk _) (setWidth_low_bits rfl h1)⟩
  | rdr =>
    simp only [decodeCtl] at hd
    split_ifs at hd with h1
    cases hd
    exact ⟨rfl, congrArg (CodeWord.mk _) (setWidth_low_bits rfl h1)⟩

/-- A value of PHASE is the word of its step; only A.DATA's place says the direction. -/
theorem encode_of_decodePhase {d : Bool} (hd : decodePhase d v = .ok i) :
    i.wellFormed = true ∧ (encode i).bits = v ∧ ∃ d', (encode i).space = .seq d' := by
  unfold decodePhase at hd
  split_ifs at hd <;> cases hd <;> subst v <;> exact ⟨rfl, rfl, _, rfl⟩

/-- Settles O2: place by place, the word is the encoder's. -/
theorem encodeOfDecode : Obligations.EncodeOfDecode := by
  unfold Obligations.EncodeOfDecode
  rintro ⟨place, v⟩ i hd
  have same : i.wellFormed = true ∧ encode i = ⟨place, v⟩ → i.wellFormed = true ∧ (encode i).bits = v ∧
      ((encode i).space = place ∨ ∃ d d', (encode i).space = .seq d ∧ place = .seq d') :=
    fun ⟨hw, he⟩ => ⟨hw, by rw [he], .inl (by rw [he])⟩
  cases place with
  | lut =>
    apply same
    simp only [decode] at hd
    split_ifs at hd with hz
    have hv : (lowHalf v).setWidth 32 = v := setWidth_low_bits rfl hz
    simpa only [hv] using encode_of_decodeHalf hd
  | cmd =>
    rcases decode_cmd_word hd with ⟨rfl, rfl⟩ | ⟨rfl, rfl⟩
    · exact same ⟨rfl, rfl⟩
    · exact same ⟨rfl, rfl⟩
  | ctl p => exact same (encode_of_decodeCtl hd)
  | seq d =>
    obtain ⟨hw, hb, d', hs⟩ := encode_of_decodePhase hd
    exact ⟨hw, hb, .inr ⟨d', d, hs, rfl⟩⟩

/-- A word that is the word of a well-formed instruction decodes to it (O1, read from the word). -/
theorem decode_of_encode_eq {c : CodeWord} (hw : i.wellFormed = true) (he : encode i = c) : decode c = .ok i :=
  he ▸ decodeOfEncode i hw

/-- Settles O5: each word is the one the encoder writes. -/
theorem sampleWords : Obligations.SampleWords := by
  unfold Obligations.SampleWords
  refine ⟨?_, ?_, ?_, ?_, ?_, ?_, ?_, ?_, ?_, ?_, ?_, ?_, ?_⟩
  all_goals exact decode_of_encode_eq rfl (by decide)

/-! ## The compiled program (R102, R113, R200, R201) -/

theorem optional_length (b : Bool) (x : Half) : (if b then [x] else []).length ≤ 1 := by
  cases b <;> simp

theorem opcodes_length (d : Desc) : d.opcodes.length ≤ 5 := by
  unfold Desc.opcodes
  simp only [List.length_append]
  have h1 := optional_length d.instrPresent (encodeHalf opCmd (wcode d.instrLw) d.instrContent)
  have h2 := optional_length d.raddrPresent (encodeHalf opRaddr (wcode d.addrLw) (BitVec.ofNat 8 d.addrSize))
  have h3 := optional_length d.modePresent (encodeHalf opMode8 (wcode d.altLw) (d.altContent.setWidth 8))
  have h4 := optional_length d.dummyPresent (encodeHalf opDummy 2 (d.dummyCycles.setWidth 8))
  have h5 := optional_length d.dataPresent (encodeHalf (if d.dirRead then opRead else opWrite) (wcode d.dataLw) 0)
  omega

/-- The slots of the program, in order. -/
theorem slotsOf_compile (d : Desc) : slotsOf d.compile = (List.range 8).map (slotOf d.opcodes) := by
  simp [Desc.compile, List.range_succ, slotsOf, programWord, lowHalf_pack, highHalf_pack]

/-- Slot `k` of the program is the low or the high half of word `k / 2` (R201). -/
theorem compile_slot (d : Desc) {k : Nat} (hk : k < 8) :
    (if k % 2 = 0 then lowHalf (d.compile.getD (k / 2) 0) else highHalf (d.compile.getD (k / 2) 0)) =
      slotOf d.opcodes k := by
  have hg : d.compile.getD (k / 2) 0 = programWord d.opcodes (k / 2) := by
    simp [Desc.compile, List.getD_eq_getElem?_getD, show k / 2 < 4 by omega]
  rw [hg, programWord]
  split
  · rw [lowHalf_pack, show 2 * (k / 2) = k by omega]
  · rw [highHalf_pack, show 2 * (k / 2) + 1 = k by omega]

/-- Behind the opcodes put there, every slot is STOP (R200). -/
theorem map_slotOf_range {ops : List Half} {n : Nat} (hn : ops.length ≤ n) :
    (List.range n).map (slotOf ops) = ops ++ List.replicate (n - ops.length) 0 := by
  apply List.ext_getElem
  · simp; omega
  · intro k h1 h2
    by_cases hk : k < ops.length
    · simp [slotOf, hk]
    · simp [slotOf, List.getElem_append, hk]

/-- `decode_seq` lists the half-words up to the first STOP (R113). -/
theorem decodeHalves_append_stop (t : List Half) : ∀ {ops : List Half}, (∀ x ∈ ops, x ≠ 0) →
    decodeHalves (ops ++ 0 :: t) = ops.map decodeFields
  | [], _ => rfl
  | x :: ops, hz => by
    obtain ⟨hx, hops⟩ := List.forall_mem_cons.1 hz
    rw [List.cons_append, decodeHalves, if_neg hx, decodeHalves_append_stop t hops, List.map_cons]

theorem not_mem_optional {b : Bool} {j : Instr} (hij : i ≠ j) : i ∉ if b then [j] else [] := by
  cases b <;> simp [hij]

theorem stop_not_mem_programB (d : Desc) : Instr.stop ∉ d.programB := by
  have h5 : Instr.stop ≠ if d.dirRead then .read (widthOf d.dataLw) 0 else .write (widthOf d.dataLw) 0 := by
    cases d.dirRead <;> exact Instr.noConfusion
  simp only [Desc.programB, List.mem_append, not_or]
  exact ⟨⟨⟨⟨not_mem_optional nofun, not_mem_optional nofun⟩, not_mem_optional nofun⟩, not_mem_optional nofun⟩,
    not_mem_optional h5⟩

section
variable {d : Desc} (hv : d.validate .B = none)
include hv

theorem map_decodeHalf_opcodes : d.opcodes.map decodeHalf = d.programB.map Except.ok := by
  rw [← List.forall₂_eq_eq_eq, List.forall₂_map_left_iff, List.forall₂_map_right_iff]
  exact (opcodes_decode hv).flip

theorem opcodes_eq_encoded : d.opcodes = d.programB.map fun i => lowHalf (encode i).bits := by
  symm
  rw [← List.forall₂_eq_eq_eq, List.forall₂_map_left_iff]
  exact (opcodes_decode hv).imp fun i x hd => by rw [(encode_of_decodeHalf hd).2, lowHalf_setWidth]

theorem opcodes_ne_stop : ∀ x ∈ d.opcodes, x ≠ 0 := by
  rintro x hx rfl
  have hm := List.mem_map_of_mem (f := decodeHalf) hx
  rw [map_decodeHalf_opcodes hv, List.mem_map] at hm
  obtain ⟨i, hi, he⟩ := hm
  cases he
  exact stop_not_mem_programB d hi

/-- The decoded program is the opcodes' fields: 5 opcodes leave a STOP in one of the 8 slots. -/
theorem decodeSeq_compile : decodeSeq d.compile = d.opcodes.map decodeFields := by
  have hl := opcodes_length d
  rw [decodeSeq, slotsOf_compile, map_slotOf_range (by omega),
    show 8 - d.opcodes.length = (7 - d.opcodes.length) + 1 by omega, List.replicate_succ]
  exact decodeHalves_append_stop _ (opcodes_ne_stop hv)

end

/-- Settles O8: the program's slots are its opcodes, each the half-word of its instruction, then STOP. -/
theorem compileRoundTrip : Obligations.CompileRoundTrip := by
  unfold Obligations.CompileRoundTrip
  refine ⟨fun d => ⟨by simp [Desc.compile], opcodes_length d⟩, fun d hv => ⟨?_, map_decodeHalf_opcodes hv, ?_⟩⟩
  · calc decodeSeq d.compile = d.opcodes.map decodeFields := decodeSeq_compile hv
      _ = (d.programB.map fun i => lowHalf (encode i).bits).map decodeFields := by rw [← opcodes_eq_encoded hv]
      _ = d.programB.map fun i => decodeFields (lowHalf (encode i).bits) := List.map_map
  · intro k hk h8
    rw [compile_slot d h8, slotOf, List.getD_eq_default _ _ hk]
    rfl

/-! ## A step runs the decoded instruction (R25, R108, R160 to R165, R204) -/

variable {s : State}

/-- A listed turn is taken off the list and run. -/
theorem step_listed {x : Turn} {ts : List Turn} (ht : s.env.turns = x :: ts) :
    step s = State.turn { s with env := { s.env with turns := ts } } x := by
  simp only [step, State.nextTurn, ht]

theorem turn_cmd (hd : decode ⟨.cmd, v⟩ = .ok i) : s.turn (.host (.writeReg 0 v)) = exec i s := by
  simp only [State.turn, State.hostTurn, State.hostWrite, if_true, hd]

theorem turn_ctl {p : CtlPort} {rest : List SeqOp} (ho : s.seq.ops = .ctl p v :: rest)
    (hd : decode ⟨.ctl p, v⟩ = .ok i) : s.turn .seq = exec i (s.issueOps rest) := by
  simp only [State.turn, seqTurn_cons ho, State.runOp, hd]

theorem turn_table (hk : s.params.backend = .B) (hon : s.tableOn = true) (hx : s.env.pins.extFail = false)
    (hs : s.b.slot.toNat < 8) (hf : s.fetchHalf = some h) (hd : decode ⟨.lut, h.setWidth 32⟩ = .ok i) :
    s.turn .engine = exec i s := by
  simp [State.turn, State.engineTurn, hk, State.engineB, hon, hx, hs, hf, hd]

/-- Settles O56: the turn is the listed one, and each place has its own fetch. -/
theorem stepRunsDecoded : Obligations.StepRunsDecoded := by
  unfold Obligations.StepRunsDecoded
  intro s x ts i ht
  rw [step_listed ht]
  refine ⟨?_, ?_, ?_, ?_⟩
  · rintro v rfl hd
    exact turn_cmd hd
  · rintro p v rest rfl ho hd
    exact turn_ctl ho hd
  · rintro rfl ho hk hd
    exact seqTurn_fetch ho hk hd
  · rintro h rfl hk hb hc hst hx hs hf hd
    exact turn_table hk (by simp [State.tableOn, hb, hc, hst]) hx hs hf hd

end Sys2Proof
end

section
/-! The two host commands (40_host_commands.md R130 to R134): what a CONFIGURE writes, in which order the checks of a
descriptor come, what becomes of a TRANSFER of a written descriptor, and the result of one that ends (R139). -/

namespace Sys2Proof.Machine

variable {s : State} {d : Desc} {k : Backend} {c : Cause}

/-! ## CONFIGURE (R130 to R132) -/

theorem execConfigure_again (hx : s.host.st ≠ .xfer) (hc : s.host.configured = true) :
    execConfigure s = .next (s.resultOk 0) := by
  rw [execConfigure, if_neg hx, if_pos hc]

theorem execConfigure_succeeds (hx : s.host.st ≠ .xfer) (hc : s.host.configured = false)
    (hf : s.env.pins.initFail = false) : execConfigure s = .next (State.resultOk
      { s.applyConfig with host := { s.applyConfig.host with configured := true, st := .idle } } 0) := by
  rw [execConfigure, if_neg hx, if_neg (by simp [hc]), if_neg (by simp [hf])]

/-- The mode is the argument's low two bits (R131). -/
theorem modeThree_eq (v : Word) : modeThree v = decide (v.toNat % 4 = 3) := by
  simp [modeThree, ← BitVec.toNat_inj]

/-- Settles O9: the configuration of Backend A, with its mode bit read as a number. -/
theorem configureBackendA : Obligations.ConfigureBackendA := by
  unfold Obligations.ConfigureBackendA
  intro s hk hx hc hf
  rw [← modeThree_eq]
  refine (execConfigure_succeeds hx hc hf).trans ?_
  simp only [State.applyConfig, hk]
  rfl

/-- Settles O10: the configuration of Backend B. -/
theorem configureBackendB : Obligations.ConfigureBackendB := by
  unfold Obligations.ConfigureBackendB
  intro s hk hx hc hf
  refine (execConfigure_succeeds hx hc hf).trans ?_
  simp only [State.applyConfig, hk]
  rfl

/-- Settles O11: the latch is tested before anything is written. -/
theorem configureAgain : Obligations.ConfigureAgain := by
  unfold Obligations.ConfigureAgain
  intro s hx hc
  exact execConfigure_again hx hc

/-! ## The checks (R134) -/

/-- `validate` answers with the first cause among its three groups of checks. -/
theorem validate_eq_or (d : Desc) (k : Backend) :
    d.validate k = (d.checkShape k).or ((d.checkDummy k).or d.checkBuffer) := by
  unfold Desc.validate
  cases d.checkShape k with
  | some c => rfl
  | none => cases d.checkDummy k <;> rfl

theorem ite_some_or {p : Prop} [Decidable p] (o o' : Option Cause) :
    (if p then some c else o).or o' = if p then some c else o.or o' := by
  split <;> rfl

theorem lwLegal_eq_false_iff (lw : BitVec 3) : lwLegal lw = false ↔ lw = 3 ∨ lw = 5 ∨ lw = 6 ∨ lw = 7 := by
  revert lw
  decide

theorem badWidth_iff (d : Desc) :
    (!(lwLegal d.instrLw && lwLegal d.addrLw && lwLegal d.altLw && lwLegal d.dataLw)) = true ↔
      (d.instrLw = 3 ∨ d.instrLw = 5 ∨ d.instrLw = 6 ∨ d.instrLw = 7) ∨
      (d.addrLw = 3 ∨ d.addrLw = 5 ∨ d.addrLw = 6 ∨ d.addrLw = 7) ∨
      (d.altLw = 3 ∨ d.altLw = 5 ∨ d.altLw = 6 ∨ d.altLw = 7) ∨
      (d.dataLw = 3 ∨ d.dataLw = 5 ∨ d.dataLw = 6 ∨ d.dataLw = 7) := by
  simp only [← lwLegal_eq_false_iff, Bool.not_eq_true', Bool.and_eq_false_iff, or_assoc]

theorem altMax_lt_iff (k : Backend) (n : Nat) : altMax k < n ↔ (k = .A ∧ 32 < n) ∨ (k = .B ∧ 1 < n) := by
  cases k <;> simp [altMax]

theorem scratchOverflow_iff (d : Desc) (k : Backend) : (k = .A ∧ d.addrPresent ∧ 32 < d.addrSize + d.altSize) ↔
    k = .A ∧ 0 < d.addrSize + d.altSize ∧ d.addrLw ≠ 0 ∧ 32 < d.addrSize + d.altSize := by
  simp only [Desc.addrPresent, decide_eq_true_eq, and_assoc]

theorem noBuffer_iff (d : Desc) : (d.dataPresent && !((d.dirWrite || d.dirRead) && d.bufferPresent)) = true ↔
    d.length ≠ 0 ∧ d.dataLw ≠ 0 ∧ ¬((d.direction = 1 ∨ d.direction = 2) ∧ d.bufferPresent = true) := by
  simp only [Desc.dataPresent, Desc.dirWrite, Desc.dirRead, Bool.and_eq_true, Bool.or_eq_true, Bool.not_eq_true',
    ← Bool.not_eq_true, decide_eq_true_eq, and_assoc, or_comm]

/-- Settles O14: the three groups of checks joined into one chain, each condition spelt out. -/
theorem validateChecks : Obligations.ValidateChecks := by
  unfold Obligations.ValidateChecks
  refine ⟨fun d k => ?_, rfl, rfl, rfl, rfl, rfl, rfl, rfl⟩
  simp only [validate_eq_or, Desc.checkShape, Desc.checkDummy, Desc.checkBuffer, ite_some_or, Option.none_or,
    badWidth_iff, altMax_lt_iff, scratchOverflow_iff, noBuffer_iff]

/-! ## TRANSFER (R133, R134) -/

theorem has_of_allWritten (hw : d.allWritten) {i : Nat} (hi : i < 8) : d.has i = true := by
  rw [Desc.has, show d.written = BitVec.allOnes 8 from hw, BitVec.getLsbD_allOnes, decide_eq_true hi]

/-- The verdict on a descriptor with every register written is that of its checks. -/
theorem verdict_of_allWritten (hw : d.allWritten) (k : Backend) :
    d.verdict k = (d.validate k).elim .accepted .malformed := by
  have h (i : Nat) (hi : i < 8) : d.has i = true := has_of_allWritten hw hi
  simp only [Desc.verdict, h 0 (by omega), h 1 (by omega), h 2 (by omega), h 3 (by omega), h 4 (by omega),
    h 5 (by omega), h 6 (by omega), h 7 (by omega), Bool.and_true, Bool.not_true, Bool.and_false, Bool.or_false,
    Bool.false_eq_true, if_false]
  cases hs : d.checkShape k with
  | some c => rw [validate_of_shape hs]; rfl
  | none =>
    cases hd : d.checkDummy k with
    | some c => rw [validate_of_dummy hs hd]; rfl
    | none =>
      rw [validate_of_buffer hs hd]
      cases d.checkBuffer <;> rfl

theorem execTransfer_unconfigured (hu : s.host.st = .uninit) : execTransfer s = .next (s.raise .notConfigured) := by
  simp only [execTransfer, hu]

theorem execTransfer_malformed (hi : s.host.st = .idle) (hv : s.desc.verdict s.params.backend = .malformed c) :
    execTransfer s = .next (s.raise (.malformed c)) := by
  simp only [execTransfer, hi, hv]

theorem execTransfer_accepted (hi : s.host.st = .idle) (hv : s.desc.verdict s.params.backend = .accepted) :
    execTransfer s = .next ((s.setRun .xfer).goto .pStart) := by
  simp only [execTransfer, hi, hv]

/-- Settles O13: the latch is tested before the descriptor is read, and each rejection is one `raise`. -/
theorem transferRejected : Obligations.TransferRejected := by
  unfold Obligations.TransferRejected
  refine fun s => ⟨execTransfer_unconfigured, fun c hi hw hv => execTransfer_malformed hi ?_⟩
  rw [verdict_of_allWritten hw, hv]
  rfl

/-- Settles O15: a valid descriptor with every register written is accepted. -/
theorem transferAccepted : Obligations.TransferAccepted := by
  unfold Obligations.TransferAccepted
  refine fun s hi hw hv => execTransfer_accepted hi ?_
  rw [verdict_of_allWritten hw, hv]
  rfl

/-! ## The result of a transfer that ends (R139, R215) -/

theorem okCount_A (d : Desc) : d.okCount .A = if d.length ≠ 0 ∧ d.dataLw ≠ 0 then d.length else 0 := by
  simp only [Desc.okCount, Desc.dataPresent, decide_eq_true_eq]

theorem okCount_B (d : Desc) : d.okCount .B = if d.length ≠ 0 ∧ d.dataLw ≠ 0 then d.length else 1 := by
  simp only [Desc.okCount, Desc.dataPresent, decide_eq_true_eq]

theorem endTransfer_succeeds (hf : s.params.backend = .A ∨ s.b.sts.fail = false) :
    s.endTransfer = ((s.setRun .idle).goto .pIdle).resultOk (s.desc.okCount s.params.backend) := by
  refine if_neg ?_
  rcases hf with hk | hf
  · simp [hk]
  · simp [hf]

theorem endTransfer_fails (hk : s.params.backend = .B) (hf : s.b.sts.fail = true) :
    s.endTransfer = ((s.setRun .idle).goto .pIdle).havocBuf.raise .hwFailure :=
  if_pos (by simp [hk, hf])

/-- A hardware failure leaves free values in the bytes that a read asked for, and nowhere else (R215, U8). -/
theorem havocBuf_effect (s : State) :
    s.havocBuf.host = s.host ∧ s.havocBuf.seq = s.seq ∧ s.havocBuf.trace = s.trace ∧
    (Memory.wf s.buf = true → ∀ n : Nat,
      s.desc.dataPresent = false ∨ s.desc.direction ≠ 1 ∨ s.desc.length.toNat ≤ n →
      Memory.read s.havocBuf.buf n = Memory.read s.buf n) := by
  unfold State.havocBuf
  split
  · rename_i hr
    obtain ⟨hp, hd⟩ := Bool.and_eq_true_iff.1 hr
    refine ⟨rfl, rfl, rfl, fun hw n hn => ?_⟩
    rw [Memory.read_fill hw, if_neg]
    rcases hn with hn | hn | hn
    · simp [hp] at hn
    · exact absurd (of_decide_eq_true hd) hn
    · omega
  · exact ⟨rfl, rfl, rfl, fun _ _ _ => rfl⟩

/-- Settles O20: the last line of SEQ ends the transfer, with success or, on Backend B, with a hardware failure. -/
theorem transferResult : Obligations.TransferResult := by
  unfold Obligations.TransferResult
  intro s ho
  refine ⟨(s.issueOps []).endTransfer, seqTurn_cons ho, ?_⟩
  by_cases hf : s.params.backend = .A ∨ s.b.sts.fail = false
  · rw [endTransfer_succeeds (s := s.issueOps []) hf]
    refine ⟨rfl, rfl, fun hk => ⟨rfl, rfl, ?_⟩, fun hk _ => ⟨rfl, rfl, ?_⟩, fun hk hb => ?_, rfl,
      fun _ _ _ => rfl⟩
    · exact (congrArg s.desc.okCount hk).trans (okCount_A s.desc)
    · exact (congrArg s.desc.okCount hk).trans (okCount_B s.desc)
    · simp [hk, hb] at hf
  · obtain ⟨hA, hb⟩ := not_or.1 hf
    have hk : s.params.backend = .B := by
      cases h : s.params.backend with
      | A => exact absurd h hA
      | B => rfl
    rw [endTransfer_fails (s := s.issueOps []) hk (by simpa using hb)]
    obtain ⟨hh, hs, ht, hm⟩ := havocBuf_effect (((s.issueOps []).setRun .idle).goto .pIdle)
    refine ⟨congrArg HostPort.st hh, congrArg Seq.phase hs, fun h => absurd h hA, fun _ h => absurd h hb,
      fun _ _ => ⟨rfl, rfl, rfl⟩, ht, fun hw n hn => ?_⟩
    exact hm hw n ((hn.resolve_left hA).resolve_left hb)

end Sys2Proof.Machine
end

section
/-! Two transfers of one descriptor, on either backend (40_host_commands.md R143): what a run from an accepted TRANSFER
to its result leaves on the trace, and when the two lists of events are one. -/

namespace Sys2Proof.Machine

variable {s u t : State} {ts : List Turn} {d : Desc}

/-! ## A transfer from its acceptance to its end -/

section
variable (hi : Inv s) (h0 : s.host.st = .idle) (he : exec .transfer s = .next u) (hx : u.host.st = .xfer)
  (ha : ∀ x ∈ ts, agentTurn x = true) (ht : u.turns ts = .next t) (hend : t.host.st = .idle)
include hi h0 he hx ha ht hend

/-- The end of a Backend A transfer, whatever the interleaving. -/
theorem transfer_trackIdle (hk : s.params.backend = .A) : trackIdle s.trace s.buf t ∧ t.desc = s.desc := by
  obtain ⟨rfl, hu, -⟩ := transfer_accepted hi h0 he hx
  obtain ⟨hI, htr, hd⟩ := turns_trackedA hu hk ha ht (track_accepted hi hk (by simp [h0]))
  rw [trackedA_idle (hI.idle_phase (by simp [hend]))] at htr
  exact ⟨htr, hd⟩

/-- The end of a Backend B transfer, whatever the interleaving. -/
theorem transfer_resultB (hk : s.params.backend = .B) : resultB s.trace s.buf t ∧ t.desc = s.desc := by
  obtain ⟨rfl, hu, -⟩ := transfer_accepted hi h0 he hx
  obtain ⟨hI, htr, hd⟩ := turns_trackedB hu hk ha ht (trackB_accepted hi hk (by simp [h0]))
  simp only [trackedB, hI.idle_phase (show t.host.st ≠ .xfer by simp [hend])] at htr
  obtain ⟨-, -, hr⟩ := htr
  exact ⟨hr, hd⟩

/-- The events of R177. -/
theorem transfer_traceA (hk : s.params.backend = .A) :
    t.trace = s.trace ++ s.desc.traceA (t.bufBytes s.desc.length.toNat) := by
  obtain ⟨⟨-, -, htr, -⟩, hd⟩ := transfer_trackIdle hi h0 he hx ha ht hend hk
  rw [htr, bodyA_traceA, hd]

/-- The events of R217, where the hardware did not fail. -/
theorem transfer_traceB (hk : s.params.backend = .B) (hok : t.host.resStatus = 0) :
    t.trace = s.trace ++ s.desc.traceB (t.bufBytes s.desc.length.toNat) := by
  obtain ⟨-, -, hv⟩ := transfer_accepted hi h0 he hx
  obtain ⟨⟨-, hr, -⟩, hd⟩ := transfer_resultB hi h0 he hx ha ht hend hk
  obtain ⟨htr, -⟩ := hr hok
  rw [hk] at hv
  rw [htr, bodyB_traceB _ _ (hd ▸ hv), hd]

end

/-! ## The two lists of events (R143) -/

/-- Backend B's `ALT_MAX` (R6). -/
theorem validate_altSize (hv : d.validate .B = none) : d.altSize ≤ 1 := by
  have hs := validate_shape hv
  unfold Desc.checkShape at hs
  split_ifs at hs with _ _ _ ha
  exact not_lt.1 ha

/-! With the address lines in use an absent part of the phase is one of no bytes, so each part is its serialised
bytes. -/

theorem raddr_events (hw : d.addrLw ≠ 0) :
    (if d.raddrPresent then (serialise d.addrContent d.addrSize).map (Event.out (widthOf d.addrLw)) else []) =
      (serialise d.addrContent d.addrSize).map (Event.out (widthOf d.addrLw)) := by
  by_cases hz : d.addrSize = 0
  · simp [hz, serialise]
  · exact if_pos (decide_eq_true ⟨Nat.pos_of_ne_zero hz, hw⟩)

theorem mode_events (hw : d.addrLw ≠ 0) (hs : d.altSize ≤ 1) (hm : d.altSize = 1 → d.altLw = d.addrLw) :
    (if d.modePresent then [Event.out (widthOf d.altLw) (d.altContent.setWidth 8)] else []) =
      (serialise d.altContent d.altSize).map (Event.out (widthOf d.addrLw)) := by
  rcases Nat.le_one_iff_eq_zero_or_eq_one.1 hs with h | h
  · simp [Desc.modePresent, h, serialise]
  · have hp : d.modePresent = true := decide_eq_true ⟨by omega, hm h ▸ hw⟩
    rw [if_pos hp, hm h, h]
    simp [serialise]

theorem addrEvents_eq_bytes (hw : d.addrLw ≠ 0) :
    d.addrEvents = d.addrBytes.map (Event.out (widthOf d.addrLw)) := by
  by_cases hz : d.addrSize + d.altSize = 0
  · have hb : d.addrBytes = [] := List.eq_nil_of_length_eq_zero ((addrBytes_length d).trans hz)
    simp [Desc.addrEvents, hb]
  · exact if_pos (decide_eq_true ⟨Nat.pos_of_ne_zero hz, hw⟩)

/-- At most one mode byte, at the address width: the combined phase of Backend A sends what the two opcodes of Backend B
send. -/
theorem addrEvents_eq_opcodes (hs : d.altSize ≤ 1) (hm : d.altSize = 1 → d.altLw = d.addrLw) : d.addrEvents =
    (if d.raddrPresent then (serialise d.addrContent d.addrSize).map (Event.out (widthOf d.addrLw)) else []) ++
    (if d.modePresent then [.out (widthOf d.altLw) (d.altContent.setWidth 8)] else []) := by
  by_cases hw : d.addrLw = 0
  · have hmode : d.modePresent = false := by
      refine decide_eq_false fun ⟨hp, hn⟩ => hn ?_
      rw [hm (by omega), hw]
    simp [Desc.addrEvents, Desc.addrPresent, Desc.raddrPresent, hmode, hw]
  · rw [addrEvents_eq_bytes hw, raddr_events hw, mode_events hw hs hm, Desc.addrBytes, List.map_append]

/-- An even dummy count is whole frames of two cycles (R141). -/
theorem two_mul_dummyFrames (he : d.dummyCycles.toNat % 2 = 0) : 2 * d.dummyFrames.toNat = d.dummyCycles.toNat := by
  rw [Desc.dummyFrames, BitVec.toNat_ushiftRight, Nat.shiftRight_eq_div_pow]
  omega

theorem dataEvents_congr {bs bs' : List Byte} (hb : d.dataPresent = true → bs' = bs) :
    d.dataEvents bs' = d.dataEvents bs := by
  cases hp : d.dataPresent with
  | true => rw [hb hp]
  | false => simp only [Desc.dataEvents, hp, Bool.false_eq_true, if_false]

theorem traceB_eq_traceA {bs bs' : List Byte} (hv : d.validate .B = none) (he : d.dummyCycles.toNat % 2 = 0)
    (hm : d.altSize = 1 → d.altLw = d.addrLw) (hb : d.dataPresent = true → bs' = bs) :
    d.traceB bs' = d.traceA bs := by
  have haddr := addrEvents_eq_opcodes (validate_altSize hv) hm
  rw [Desc.addrEvents] at haddr
  simp only [Desc.traceB, Desc.traceA, haddr, two_mul_dummyFrames he, dataEvents_congr hb, List.append_assoc]

/-- Settles O53: both transfers add the events that their backend's rule lists, and under the conditions of R143 these
are one list. -/
theorem backendEquivalence : Obligations.BackendEquivalence := by
  unfold Obligations.BackendEquivalence
  intro s u t ts s' u' t' ts' hi hk h0 he hx ha ht hend hi' hk' h0' he' hx' ha' ht' hend' hok hdesc heven hmode hbytes
  obtain ⟨-, -, hv⟩ := transfer_accepted hi' h0' he' hx'
  rw [hk', hdesc] at hv
  refine ⟨_, transfer_traceA hi h0 he hx ha ht hend hk, ?_⟩
  rw [transfer_traceB hi' h0' he' hx' ha' ht' hend' hk' hok, hdesc, traceB_eq_traceA hv heven hmode hbytes]

end Sys2Proof.Machine
end

section
/-! A Backend A transfer as a whole: what its run leaves behind (41_backend_a_fifo.md R177), and which control point
stands behind each of SEQ's register accesses. -/

namespace Sys2Proof.Machine

variable {s : State}

/-- Settles O54: the end of a tracked run has the whole trace, the result and the buffer. -/
theorem transferTraceA : Obligations.TransferTraceA := by
  unfold Obligations.TransferTraceA
  intro s u t ts hi hk h0 he hx ha ht hend
  obtain ⟨⟨-, -, -, hbuf, hres, hcount⟩, hd⟩ := transfer_trackIdle hi h0 he hx ha ht hend hk
  rw [bufKept, hd] at hbuf
  rw [hd] at hcount
  exact ⟨transfer_traceA hi h0 he hx ha ht hend hk, hres, hcount, hbuf⟩

/-! ## The control point behind a register access -/

/-- What the control point says of SEQ's access to a controller register: CR and SR between transfers, RDR with one byte
received, TCR with nothing queued or over the bytes of a write at their own width. -/
def accessPoint (s : State) (v : Word) : CtlPort → Prop
  | .cr => restA s
  | .sr => restA s
  | .tcr => quietA s ∨
      (sendingA s (widthOf s.desc.dataLw) ∧ ∃ t, SeqOp.ctl .tcr v = setctlOp t s.desc.dataLw true false)
  | .tdr => True
  | .rdr => gotA s

theorem pointA_access {p : CtlPort} {v : Word} {rest : List SeqOp} (h : pointA s) (ho : s.seq.ops = .ctl p v :: rest) :
    accessPoint s v p := by
  unfold pointA at h
  split at h
  · rw [ho] at h; cases h.2
  · rw [startPoint, ho] at h
    rcases h with ⟨hr, h | ⟨e, h⟩ | h | h | ⟨-, h⟩⟩ | ⟨-, -, -, h⟩ | ⟨-, h⟩ <;> cases h
    all_goals exact hr
  · simp only [instrPoint, ho] at h
    rcases h with ⟨-, h⟩ | ⟨hq, t, b, h⟩ | ⟨-, -, b, h⟩ | ⟨-, h⟩ | ⟨-, h⟩ <;> cases h
    · exact .inl hq
    · trivial
  · simp only [addrPoint, ho] at h
    rcases h with ⟨-, h⟩ | ⟨hq, t, bs, -, h⟩ | ⟨-, bs, -, h | h⟩ | ⟨-, h⟩
    · cases h
    · cases h; exact .inl hq
    · cases bs <;> cases h; trivial
    · cases h
    · cases h
  · rw [dummyPoint, ho] at h
    rcases h with ⟨-, h⟩ | ⟨hq, t, h⟩ | ⟨-, h⟩ | ⟨hg, h⟩ | ⟨-, h⟩ <;> cases h
    · exact .inl hq
    · exact hg
  · split at h
    · simp only [writePoint, ho] at h
      rcases h with ⟨-, h⟩ | ⟨-, ⟨hs, h | h | ⟨t, b, h⟩⟩ | ⟨-, h | ⟨b, h⟩⟩ | ⟨-, -, b, h⟩⟩ | ⟨-, h⟩ <;> cases h
      · exact .inr ⟨hs, t, rfl⟩
      · trivial
    · simp only [readPoint, ho] at h
      rcases h with ⟨-, h⟩ | ⟨hq, t, h⟩ | ⟨-, h⟩ | ⟨hg, h⟩ | ⟨-, h⟩ | ⟨-, h⟩ <;> cases h
      · exact .inl hq
      · exact hg
  · rw [endPoint, ho] at h
    rcases h with ⟨-, h⟩ | ⟨-, h⟩ | ⟨-, h⟩ | ⟨-, h⟩ | ⟨-, h⟩ | ⟨-, h⟩ <;> cases h

theorem Inv.access (h : Inv s) (hk : s.params.backend = .A) {p : CtlPort} {v : Word} {rest : List SeqOp}
    (ho : s.seq.ops = .ctl p v :: rest) : accessPoint s v p :=
  pointA_access (h.pointA hk) ho

/-! ## The controller operations (R160 to R165) -/

/-- Settles O21: FLUSH stands between transfers alone, where chip-select is deasserted. -/
theorem flushOperation : Obligations.FlushOperation := by
  unfold Obligations.FlushOperation
  refine ⟨by decide, fun _ _ => rfl, fun _ => BitVec.eq_of_toNat_eq (CtlA.fsrWord_toNat _),
    fun s e rest hi hk ho => ?_⟩
  have hr : restA s := hi.access hk ho
  exact ⟨csOff_asserted hr.1, hi.shifter⟩

/-- With the sticky flags cleared BUSY is left of SR, at bit 24 (R28). -/
theorem srWord_busy (a : CtlA) :
    ({ a with sr := { frameDone := false, xferDone := false, txErr := false, rxErr := false } } : CtlA).srWord =
      a.srWord &&& 0x01000000 := by
  have h : ∀ f x t r busy : Bool,
      bitAt false 0 ||| bitAt false 1 ||| bitAt false 2 ||| bitAt false 3 ||| bitAt busy 24 =
      (bitAt f 0 ||| bitAt x 1 ||| bitAt t 2 ||| bitAt r 3 ||| bitAt busy 24) &&& 0x01000000 := by decide
  exact h a.sr.frameDone a.sr.xferDone a.sr.txErr a.sr.rxErr a.shiftBusy

/-- Settles O22: the flags cleared, and what that leaves of SR's word. -/
theorem clearFlagsOperation : Obligations.ClearFlagsOperation := by
  unfold Obligations.ClearFlagsOperation
  exact ⟨decode_clrflags, fun s => ⟨_, rfl, rfl, srWord_busy s.a⟩⟩

/-- Settles O24: the write of the three fields is one update of TCR. -/
theorem setctlOperation : Obligations.SetctlOperation := by
  unfold Obligations.SetctlOperation
  exact fun _ _ _ _ _ _ _ _ => rfl

theorem execPush_room {d : Byte} (h : s.a.txf.length < s.params.txDepth) : execPush d s = .next (s.pushTx d) :=
  if_neg (by rw [txFull_iff]; omega)

theorem execPush_full {d : Byte} (h : s.params.txDepth ≤ s.a.txf.length) : execPush d s = .fault .txOverflow :=
  if_pos (txFull_iff.2 h)

/-- Settles O26: the one test is whether TXF is full. -/
theorem pushOperation : Obligations.PushOperation := by
  unfold Obligations.PushOperation
  exact fun s d => ⟨execPush_room, execPush_full⟩

theorem execPop_head (d : Byte) {b : Byte} {rest : List Byte} (h : s.a.rxf = b :: rest) :
    execPop d s = .next (s.popRx b rest) := by
  simp only [execPop, h]

theorem execPop_empty (d : Byte) (h : s.a.rxf = []) : execPop d s = .fault .rxUnderflow := by
  simp only [execPop, h]

/-- RXCOUNT is the length of RXF, in 8 bits (R29). -/
theorem fsrWord_rxCount (a : CtlA) : a.fsrWord.extractLsb' 16 8 = BitVec.ofNat 8 a.rxf.length := by
  apply BitVec.eq_of_toNat_eq
  rw [BitVec.extractLsb'_toNat, CtlA.fsrWord_toNat, Nat.shiftRight_eq_div_pow, BitVec.toNat_ofNat]
  omega

/-- Settles O27: SEQ pops where a byte has been received. -/
theorem popOperation : Obligations.PopOperation := by
  unfold Obligations.PopOperation
  refine ⟨decode_pop_byte, fun s d b rest hr => ⟨execPop_head d hr, ?_⟩, fun s d hr => execPop_empty d hr,
    fun s rest hi hk ho => ?_⟩
  · rw [fsrWord_rxCount, fsrWord_rxCount, hr, List.length_cons, BitVec.ofNat_add]
    exact (BitVec.add_sub_cancel _ _).symm
  · obtain ⟨b, hb⟩ := gotA_pop (hi.access hk ho)
    simp [hb]

/-- Settles O25: the width and the masks are written with nothing queued, or in a write over bytes queued at that width
with receive masked. -/
theorem noControlChangeOverQueue : Obligations.NoControlChangeOverQueue := by
  unfold Obligations.NoControlChangeOverQueue
  intro s v rest p a c d r x w hi hk ho hd
  rcases hi.access hk ho with ⟨-, -, htx, -, hm⟩ | ⟨⟨-, -, -, hm, hw⟩, t, hv⟩
  · exact ⟨hm, .inl htx⟩
  · refine ⟨hm, or_iff_not_imp_left.2 fun hne => ?_⟩
    obtain ⟨-, -, -, hl⟩ := validate_widths (hi.valid (hi.xfer_of_ops (by simp [ho])))
    obtain ⟨_, _, _, _, hset⟩ := decode_setctl t s.desc.dataLw true false hl rfl
    cases hv
    cases hset.symm.trans hd
    exact ⟨(hw hne).1, (hw hne).2, rfl⟩

end Sys2Proof.Machine
end

section
/-! The shifter's turn (41_backend_a_fifo.md R166, R167): when it has a step, and which. -/

namespace Sys2Proof.Machine

variable {s : State} {b : Byte} {rest : List Byte}

/-- Without EN, with chip-select elsewhere than in CS_ACTIVE, or stalled, the shifter is off (R166, R167). -/
theorem engineA_off (h : s.shifterOn = false) : s.engineA = s := if_pos (by simp [h])

theorem engine_A (hk : s.params.backend = .A) : s.turn .engine = .next s.engineA := by
  simp only [State.turn, State.engineTurn, hk]

theorem shifterOn_of (hen : s.a.en = true) (hcs : s.cs = .active) (hst : s.env.pins.stall = false) :
    s.shifterOn = true := by
  simp [State.shifterOn, hen, hcs, hst]

theorem shifterOn_false (h : s.env.pins.stall = true ∨ s.cs ≠ .active) : s.shifterOn = false := by
  rcases h with h | h <;> simp [State.shifterOn, h]

/-- With a byte queued the one frame there can be is a TX frame. -/
theorem engineA_queued (hon : s.shifterOn = true) (ht : s.a.txf = b :: rest) :
    s.engineA = if !s.a.tcr.txmsk && (s.a.tcr.rxmsk || s.rxRoom) then s.txFrame b rest else s := by
  simp only [State.engineA, hon, ht, Bool.not_true, Bool.false_eq_true, if_false]

/-- With nothing queued the one frame there can be is a receive-only frame. -/
theorem engineA_unqueued (hon : s.shifterOn = true) (ht : s.a.txf = []) :
    s.engineA = if s.a.tcr.txmsk && s.rxRoom then s.rxFrame else s := by
  simp only [State.engineA, hon, ht, Bool.not_true, Bool.false_eq_true, if_false]

theorem rxRoom_iff : s.rxRoom = true ↔ s.a.rxf.length < s.params.rxDepth := decide_eq_true_iff

theorem rxRoom_false_iff : s.rxRoom = false ↔ s.params.rxDepth ≤ s.a.rxf.length := by
  rw [State.rxRoom, decide_eq_false_iff_not, not_lt]

/-! ## The frames -/

theorem turn_txFrame_masked (hk : s.params.backend = .A) (hon : s.shifterOn = true) (ht : s.a.txf = b :: rest)
    (hm : s.a.tcr.txmsk = false) (hr : s.a.tcr.rxmsk = true) : s.turn .engine = .next { s with
      a := { s.a with txf := rest, sr := { s.a.sr with frameDone := true } }
      trace := s.trace ++ [.out s.a.tcr.width b] } := by
  rw [engine_A hk, engineA_queued hon ht, if_pos (by simp [hm, hr]), txFrame_masked hr, State.emit, emitTo_out]
  rfl

theorem turn_txFrame_open (hk : s.params.backend = .A) (hon : s.shifterOn = true) (ht : s.a.txf = b :: rest)
    (hm : s.a.tcr.txmsk = false) (hr : s.a.tcr.rxmsk = false) (hroom : s.a.rxf.length < s.params.rxDepth) :
    ∃ r, s.turn .engine = .next { s with
      a := { s.a with txf := rest, rxf := s.a.rxf ++ [r], sr := { s.a.sr with frameDone := true } }
      trace := s.trace ++ [.out s.a.tcr.width b]
      env := { s.env with free := s.env.free + 1 } } := by
  rw [engine_A hk, engineA_queued hon ht, if_pos (by simp [hm, rxRoom_iff.2 hroom])]
  simp only [State.txFrame, hr, Bool.false_eq_true, if_false, State.emit, emitTo_out]
  exact ⟨_, rfl⟩

/-- The received byte is the one on the trace, or in P_DUMMY on none. -/
theorem turn_rxFrame (hk : s.params.backend = .A) (hon : s.shifterOn = true) (ht : s.a.txf = [])
    (hm : s.a.tcr.txmsk = true) (hroom : s.a.rxf.length < s.params.rxDepth) :
    ∃ r, s.turn .engine = .next { s with
      a := { s.a with rxf := s.a.rxf ++ [r], tcr := { s.a.tcr with txmsk := false }
                      sr := { s.a.sr with frameDone := true } }
      trace := emitTo s.trace
        (if s.seq.phase = .pDummy then .dmy (8 / s.a.tcr.width.lines) else .inp s.a.tcr.width r)
      env := { s.env with free := s.env.free + 1 } } := by
  rw [engine_A hk, engineA_unqueued hon ht, if_pos (by simp [hm, rxRoom_iff.2 hroom])]
  simp only [State.rxFrame, State.rxSample]
  split
  · exact ⟨s.freeByte, rfl⟩
  · exact ⟨s.drawn, rfl⟩

/-- Settles O28: the two frames, and the hold where receive is open and RXF is full. -/
theorem txFrame : Obligations.TxFrame := by
  unfold Obligations.TxFrame
  intro s b rest hk hen hcs hst ht hm
  have hon := shifterOn_of hen hcs hst
  refine ⟨turn_txFrame_masked hk hon ht hm, turn_txFrame_open hk hon ht hm, fun hr hfull => ?_⟩
  rw [engine_A hk, engineA_queued hon ht, if_neg (by simp [hr, rxRoom_false_iff.2 hfull])]

/-- Settles O29: the frame, and the hold where RXF is full. -/
theorem rxFrame : Obligations.RxFrame := by
  unfold Obligations.RxFrame
  intro s hk hen hcs hst ht hm
  have hon := shifterOn_of hen hcs hst
  refine ⟨turn_rxFrame hk hon ht hm, fun hfull => ?_⟩
  rw [engine_A hk, engineA_unqueued hon ht, if_neg (by simp [rxRoom_false_iff.2 hfull])]

/-! ## No step -/

theorem engineB_off (h : s.tableOn = false) : s.engineB = .next s := if_pos (by simp [h])

theorem engine_B (hk : s.params.backend = .B) : s.turn .engine = s.engineB := by
  simp only [State.turn, State.engineTurn, hk]

/-- A queued byte waits while a receive-only request is pending, and without either there is no frame. -/
theorem engineA_idle (h : (s.a.txf = [] ∧ s.a.tcr.txmsk = false) ∨ (s.a.txf ≠ [] ∧ s.a.tcr.txmsk = true)) :
    s.engineA = s := by
  cases hon : s.shifterOn with
  | false => exact engineA_off hon
  | true =>
    rcases h with ⟨ht, hm⟩ | ⟨hne, hm⟩
    · rw [engineA_unqueued hon ht, if_neg (by simp [hm])]
    · obtain ⟨b, rest, ht⟩ := List.exists_cons_of_ne_nil hne
      rw [engineA_queued hon ht, if_neg (by simp [hm])]

/-- Settles O30: on each backend the engine is off, or has nothing to do. -/
theorem engineHolds : Obligations.EngineHolds := by
  unfold Obligations.EngineHolds
  refine fun s => ⟨fun h => ?_, fun hk ht hm => ?_, fun hk ht hm => ?_, fun hk hb => ?_⟩
  · cases hk : s.params.backend with
    | A => rw [engine_A hk, engineA_off (shifterOn_false h)]
    | B =>
      rw [engine_B hk, engineB_off]
      rcases h with h | h <;> simp [State.tableOn, h]
  · rw [engine_A hk, engineA_idle (.inl ⟨ht, hm⟩)]
  · rw [engine_A hk, engineA_idle (.inr ⟨ht, hm⟩)]
  · rw [engine_B hk, engineB_off (by simp [State.tableOn, hb])]

end Sys2Proof.Machine
end

section
/-! EN (41_backend_a_fifo.md R162): no turn but reset clears it. -/

namespace Sys2Proof.Machine

variable {s : State}

theorem csRise_a (s : State) : s.csRise.a = s.a := by
  rcases s.csRise_cases with ⟨-, -, e⟩ | ⟨-, e⟩ <;> rw [e]

theorem configure_en {t : State} (h : execConfigure s = .next t) : t.a.en = s.a.en := by
  unfold execConfigure State.applyConfig State.havocConfig at h
  cases hk : s.params.backend <;> simp only [hk] at h <;> split_ifs at h <;> cases h <;> rfl

theorem transfer_en {t : State} (h : execTransfer s = .next t) : t.a.en = s.a.en := by
  unfold execTransfer at h
  split at h
  · cases h
  · cases h; rfl
  · split at h <;> cases h <;> rfl

/-- No instruction clears EN. -/
theorem exec_en {i : Instr} {t : State} (hen : s.a.en = true) (h : exec i s = .next t) : t.a.en = true := by
  by_cases hc : i = .configure
  · subst hc; exact (configure_en h).trans hen
  by_cases ht : i = .transfer
  · subst ht; exact (transfer_en h).trans hen
  rcases space_cases hc ht with ⟨p, hp⟩ | ⟨d, hp⟩ | hp
  · rcases exec_ctl_next hp h with ⟨e, -, rfl⟩ | ⟨-, rfl⟩ | ⟨-, rfl⟩ | ⟨_, _, _, _, r, x, w, -, rfl⟩ | ⟨d, -, rfl⟩ |
      ⟨d, b, rest, -, -, rfl⟩
    exacts [hen, hen, rfl, hen, hen, hen]
  · obtain ⟨-, -, -, -, -, -, ha, -⟩ := exec_seq_frame hp h
    rw [ha]; exact hen
  · obtain ⟨-, ha, -⟩ := exec_lut_frame hp h
    rw [ha]; exact hen

theorem runLine_en (op : SeqOp) : (s.runLine op).a.en = s.a.en := by
  cases op with
  | contOn => rw [State.runLine, csRise_a]; rfl
  | issue => rw [State.runLine, State.issueRequest, csRise_a]
  | result =>
    obtain ⟨-, ha, -⟩ := endTransfer_frame (s := s)
    exact congrArg CtlA.en ha
  | _ => rfl

theorem seqTurn_en {t : State} (hen : s.a.en = true) (h : s.seqTurn = .next t) : t.a.en = true := by
  cases ho : s.seq.ops with
  | cons op rest =>
    rw [seqTurn_cons ho] at h
    unfold State.runOp at h
    split at h
    · split at h
      · exact exec_en (s := s.issueOps rest) hen h
      · cases h
    · cases h; split <;> exact hen
    · cases h; exact (runLine_en op).trans hen
  | nil =>
    simp only [State.seqTurn, ho] at h
    split at h
    · cases h
      unfold State.seqB
      split <;> exact hen
    · split at h
      · exact exec_en hen h
      · cases h; exact hen

theorem engineA_en : s.engineA.a.en = s.a.en := by
  rcases engineA_cases s with e | ⟨b, rest, -, -, -, -, e⟩ | ⟨-, -, -, -, e⟩ <;> rw [e]
  · unfold State.txFrame
    simp only
    split <;> rfl
  · obtain ⟨b, t, n, e'⟩ := rxFrame_eq s
    rw [e']

theorem engineB_en {t : State} (hen : s.a.en = true) (h : s.engineB = .next t) : t.a.en = true := by
  unfold State.engineB at h
  split at h
  · cases h; exact hen
  · split at h
    · cases h; exact hen
    · split at h
      · cases h; exact hen
      · split at h
        · cases h
        · split at h
          · cases h; exact hen
          · exact exec_en hen h

theorem hostTurn_en {t : State} {act : HostAct} (hen : s.a.en = true) (h : s.hostTurn act = .next t) :
    t.a.en = true := by
  cases act with
  | writeReg n v =>
    simp only [State.hostTurn, State.hostWrite] at h
    split at h
    · split at h
      · exact exec_en hen h
      · cases h
    · split_ifs at h <;> cases h
      · exact hen
      · exact hen
  | readReg n =>
    simp only [State.hostTurn, State.hostRead] at h
    repeat' split at h
    all_goals cases h
    exact hen
  | writeBuf i b =>
    simp only [State.hostTurn, State.hostWriteBuf] at h
    split at h <;> cases h
    exact hen
  | readBuf i =>
    simp only [State.hostTurn, State.hostReadBuf] at h
    split at h <;> cases h
    exact hen

/-- Nothing but reset clears EN (R162). -/
theorem turn_en {t : State} {x : Turn} (hen : s.a.en = true) (hx : x ≠ .reset) (h : s.turn x = .next t) :
    t.a.en = true := by
  cases x with
  | host act => exact hostTurn_en hen h
  | seq => exact seqTurn_en hen h
  | engine =>
    simp only [State.turn, State.engineTurn] at h
    split at h
    · cases h; exact engineA_en.trans hen
    · exact engineB_en hen h
  | cs =>
    obtain ⟨c, tr, e, -⟩ := csTurn_cases s
    simp only [State.turn, e] at h
    cases h
    exact hen
  | setPins p => cases h; exact hen
  | reset => exact absurd rfl hx

/-- Settles O23: agent by agent. -/
theorem enableOperation : Obligations.EnableOperation := by
  unfold Obligations.EnableOperation
  refine ⟨fun _ => rfl, fun s t x hen hx h => turn_en hen hx h, fun s hk hen => ?_⟩
  rw [engine_A hk, engineA_off (by simp [State.shifterOn, hen])]

end Sys2Proof.Machine
end

section
/-! SEQ's turn, one rule for each fetch and each line of pseudocode (41_backend_a_fifo.md R160 to R175), and the
chip-select machine's turns that release. The hypothesis on the lines comes last. -/

namespace Sys2Proof.Machine

variable {s : State} {rest : List SeqOp}

/-! ## Runs, turn by turn -/

theorem turns_step {t : State} {x : Turn} {xs : List Turn} {o : Host.Outcome State Fault Refusal}
    (h : s.turn x = .next t) (hr : t.turns xs = o) : s.turns (x :: xs) = o := (State.turns_cons h).trans hr

theorem turns_last {x : Turn} (o : Host.Outcome State Fault Refusal) (h : s.turn x = o) : s.turns [x] = o := by
  cases o <;> simp only [State.turns, h]

/-! ## SEQ -/

theorem turn_fetch {i : Instr} (hk : s.params.backend = .A) (ho : s.seq.ops = []) (hf : s.fetchStep = .ok i) :
    s.turn .seq = exec i s := seqTurn_fetch ho hk hf

theorem turn_flush {e : Bool} (ho : s.seq.ops = flushOp e :: rest) : s.turn .seq = .next { s with
    seq := { s.seq with ops := rest }, a := { s.a with txf := [], rxf := [] } } :=
  (seqTurn_cons ho).trans runOp_flush

theorem turn_clrflags (ho : s.seq.ops = clrflagsOp :: rest) : s.turn .seq = .next { s with
    seq := { s.seq with ops := rest }
    a := { s.a with sr := { frameDone := false, xferDone := false, txErr := false, rxErr := false } } } :=
  (seqTurn_cons ho).trans runOp_clrflags

theorem turn_enable (ho : s.seq.ops = enableOp :: rest) : s.turn .seq = .next { s with
    seq := { s.seq with ops := rest }, a := { s.a with en := true } } :=
  (seqTurn_cons ho).trans runOp_enable

theorem turn_setctl {t : Tcr} {lw : BitVec 3} {r x : Bool} (hl : lwLegal lw = true) (h : (r && x) = false)
    (ho : s.seq.ops = setctlOp t lw r x :: rest) : s.turn .seq = .next { s with
      seq := { s.seq with ops := rest }
      a := { s.a with tcr := { s.a.tcr with width := widthOf lw, rxmsk := r, txmsk := x } } } :=
  (seqTurn_cons ho).trans (runOp_setctl hl h)

theorem turn_push {b : Byte} (hd : s.a.txf.length < s.params.txDepth) (ho : s.seq.ops = pushOp b :: rest) :
    s.turn .seq = .next { s with
      seq := { s.seq with ops := rest }, a := { s.a with txf := s.a.txf ++ [b] } } :=
  (seqTurn_cons ho).trans (runOp_push.trans (if_neg (by rw [txFull_iff]; omega)))

theorem turn_push_full {b : Byte} (hd : s.params.txDepth ≤ s.a.txf.length) (ho : s.seq.ops = pushOp b :: rest) :
    s.turn .seq = .fault .txOverflow :=
  (seqTurn_cons ho).trans (runOp_push.trans (if_pos (txFull_iff.2 hd)))

theorem turn_pop {b : Byte} {bs : List Byte} (hr : s.a.rxf = b :: bs) (ho : s.seq.ops = popOp :: rest) :
    s.turn .seq = .next { s with
      seq := { s.seq with ops := rest, popData := b }, a := { s.a with rxf := bs } } := by
  refine (seqTurn_cons ho).trans (runOp_pop.trans ?_)
  rw [hr]
  rfl

theorem turn_wait {p : WaitPred} (hp : s.holds p = true) (ho : s.seq.ops = .wait p :: rest) :
    s.turn .seq = .next { s with seq := { s.seq with ops := rest } } :=
  (seqTurn_cons ho).trans (congrArg Host.Outcome.next (if_pos hp))

/-- SEQ has no step while what it waits for does not hold (R168). -/
theorem turn_hold {p : WaitPred} (hp : s.holds p = false) (ho : s.seq.ops = .wait p :: rest) : s.turn .seq = .next s :=
  (seqTurn_cons ho).trans (congrArg Host.Outcome.next (if_neg (by simp [hp])))

/-- The request that SEQ raises in CS_IDLE is answered in the same turn (R169, R256). -/
theorem turn_contOn (hk : s.params.backend = .A) (hen : s.a.en = true) (hcs : s.cs = .idle)
    (ho : s.seq.ops = .contOn :: rest) : s.turn .seq = .next { s with
      seq := { s.seq with ops := rest }, a := { s.a with tcr := { s.a.tcr with cont := true, contc := true } }
      cs := .setup, trace := s.trace ++ [.csLow] } := by
  refine (seqTurn_cons ho).trans (congrArg Host.Outcome.next ?_)
  rcases State.csRise_cases ((s.issueOps rest).setCont true) with ⟨-, -, e⟩ | ⟨hn, -⟩
  · exact e
  · have hreq : ((s.issueOps rest).setCont true).csReq = true := held_csReq hk ⟨hen, rfl, rfl⟩
    rcases hn with hn | hn
    · simp [hreq] at hn
    · exact absurd hcs hn

theorem turn_contOff (ho : s.seq.ops = .contOff :: rest) : s.turn .seq = .next { s with
    seq := { s.seq with ops := rest }, a := { s.a with tcr := { s.a.tcr with cont := false, contc := false } } } :=
  seqTurn_cons ho

theorem turn_nextIdx (ho : s.seq.ops = .nextIdx :: rest) : s.turn .seq = .next { s with
    seq := { s.seq with ops := rest, idx := s.seq.idx + 1 } } :=
  seqTurn_cons ho

theorem turn_bufStore (ho : s.seq.ops = .bufStore :: rest) : s.turn .seq = .next { s with
    seq := { s.seq with ops := rest }, buf := Memory.write s.buf s.seq.idx.toNat s.seq.popData } :=
  seqTurn_cons ho

theorem turn_goto {p : Phase} (ho : s.seq.ops = .goto p :: rest) : s.turn .seq = .next { s with
    seq := { s.seq with phase := p, idx := 0, ops := [] } } :=
  seqTurn_cons ho

theorem turn_xferDone (ho : s.seq.ops = .xferDone :: rest) : s.turn .seq = .next { s with
    seq := { s.seq with ops := rest }, a := { s.a with sr := { s.a.sr with xferDone := true } } } :=
  seqTurn_cons ho

/-- The result on Backend A (R139, R140). -/
theorem turn_result (hk : s.params.backend = .A) (ho : s.seq.ops = .result :: rest) : s.turn .seq = .next { s with
    host := { s.host with st := .idle, resStatus := 0, resCause := 0
                          resCount := if s.desc.dataPresent then s.desc.length else 0 }
    seq := { s.seq with phase := .pIdle, idx := 0, ops := [] } } := by
  have hcount : s.desc.okCount s.params.backend = if s.desc.dataPresent then s.desc.length else 0 := by rw [hk]; rfl
  rw [← hcount]
  exact (seqTurn_cons ho).trans (congrArg Host.Outcome.next (endTransfer_succeeds (s := s.issueOps rest) (.inl hk)))

/-! ## The chip-select machine, on the way to the release (R256, R257) -/

theorem turn_cs_release (hcs : s.cs = .active) (hr : s.csReq = false) : s.turn .cs = .next { s with cs := .hold } := by
  simp only [State.turn, State.csTurn, hcs, hr, Bool.false_eq_true, if_false]

theorem turn_cs_high (hcs : s.cs = .hold) :
    s.turn .cs = .next { s with cs := .interval, trace := s.trace ++ [.csHigh] } := by
  simp only [State.turn, State.csTurn, hcs, State.emit, emitTo_csHigh]

end Sys2Proof.Machine
end

section
/-! The sequencer's steps in the order of a transfer (41_backend_a_fifo.md R169 to R175): what each hands over to SEQ,
and a run of its lines. -/

namespace Sys2Proof.Machine

variable {s : State} {rest : List SeqOp}

/-- A literal number of lines is legal, present, and stands for that width. -/
theorem widthOf_lines {lw : BitVec 3} {w : Width} (h : lw.toNat = w.lines) :
    lwLegal lw = true ∧ lw ≠ 0 ∧ w = widthOf lw := by
  revert lw
  cases w <;> decide

theorem drained_of (ht : s.a.txf = []) (hb : s.a.shiftBusy = false) : s.holds .txDrained = true := by
  simp [State.holds, State.txDrained, ht, hb]

theorem not_drained_of (h : s.a.txf ≠ [] ∨ s.a.shiftBusy = true) : s.holds .txDrained = false := by
  rcases h with h | h <;> simp [State.holds, State.txDrained, h]

/-! ## A.START (R169) -/

/-- Settles O31: the lines that A.START hands over, run one by one. -/
theorem aStartStep : Obligations.AStartStep := by
  unfold Obligations.AStartStep
  refine ⟨fun _ => rfl, fun s rest ho hcs => turn_hold (p := .csAsserted) (csOff_asserted hcs) ho,
    fun s hk hph ho hcs => ?_⟩
  refine turns_step (turn_fetch hk ho (fetchStep_start hph)) ?_
  refine turns_step (turn_flush rfl) ?_
  refine turns_step (turn_clrflags rfl) ?_
  refine turns_step (turn_enable rfl) ?_
  refine turns_step (turn_contOn hk rfl hcs rfl) ?_
  refine turns_step (turn_wait rfl rfl) ?_
  exact turns_last _ (turn_goto rfl)

/-! ## A.INSTR (R170) -/

theorem execAInstr_present (h : s.desc.instrLw ≠ 0) : execAInstr s = .next { s with seq := { s.seq with
    ops := [setctlOp s.a.tcr s.desc.instrLw true false, pushOp s.desc.instrContent, .wait .txDrained,
      .goto .pAddr] } } :=
  if_pos (decide_eq_true h)

theorem execAInstr_absent (h : s.desc.instrLw = 0) : execAInstr s = .next (s.goto .pAddr) :=
  if_neg (by simp [Desc.instrPresent, h])

/-- Settles O32: with the instruction present its one byte is pushed and leaves. -/
theorem aInstrStep : Obligations.AInstrStep := by
  unfold Obligations.AInstrStep
  refine ⟨fun _ => execAInstr_present, fun _ => execAInstr_absent,
    fun s rest ho h => turn_hold (not_drained_of h) ho, ?_⟩
  intro s w hk hph ho hw hen hcs hst ht hd hb
  obtain ⟨hl, hne, rfl⟩ := widthOf_lines hw
  refine turns_step ((turn_fetch hk ho (fetchStep_instr hph)).trans (execAInstr_present hne)) ?_
  refine turns_step (turn_setctl hl rfl rfl) ?_
  refine turns_step (turn_push (by simp [ht, hd]) rfl) ?_
  refine turns_step (turn_txFrame_masked (b := s.desc.instrContent) (rest := []) hk (shifterOn_of hen hcs hst)
    (by simp [ht]) rfl rfl) ?_
  refine turns_step (turn_wait (drained_of rfl hb) rfl) ?_
  refine turns_last _ ((turn_goto rfl).trans ?_)
  dsimp only
  rw [ht]

/-! ## A.ADDR (R171) -/

/-- SCRATCH with the address and mode bytes stored (R36, R138). -/
def State.addrScratch (s : State) : Memory := Memory.store s.a.scratch 0 s.desc.addrBytes

/-- The bytes that A.ADDR pushes, read back from SCRATCH. -/
def State.addrPushed (s : State) : List Byte := (List.range s.desc.addrBytes.length).map (Memory.read s.addrScratch)

@[simp] theorem addrPushed_length (s : State) : s.addrPushed.length = s.desc.addrSize + s.desc.altSize := by
  simp [State.addrPushed]

theorem addrPushed_eq (hwf : Memory.wf s.a.scratch = true) : s.addrPushed = s.desc.addrBytes :=
  read_store_all hwf s.desc.addrBytes

theorem execAAddr_absent (h : s.desc.addrPresent = false) : execAAddr s = .next (s.goto .pDummy) := if_neg (by simp [h])

theorem execAAddr_present (hp : s.desc.addrPresent = true) (h32 : s.desc.addrSize + s.desc.altSize ≤ 32) :
    execAAddr s = .next { s with
      a := { s.a with scratch := s.addrScratch }
      seq := { s.seq with ops := setctlOp s.a.tcr s.desc.addrLw true false ::
        (pushLines s.addrPushed ++ [.wait .txDrained, .goto .pDummy]) } } := by
  rw [State.addrPushed, ← scratchPushes_eq]
  exact (if_pos hp).trans (if_neg (by rw [addrBytes_length]; omega))

/-- Two turns of SEQ for each byte push them all, where there is room. -/
theorem turns_pushLines {bs : List Byte} (ho : s.seq.ops = pushLines bs ++ rest)
    (hd : s.a.txf.length + bs.length ≤ s.params.txDepth) :
    s.turns (List.replicate (2 * bs.length) .seq) = .next { s with
      seq := { s.seq with ops := rest, idx := s.seq.idx + BitVec.ofNat 32 bs.length }
      a := { s.a with txf := s.a.txf ++ bs } } := by
  induction bs generalizing s with
  | nil =>
    simp only [List.length_nil, List.append_nil, BitVec.add_zero]
    rw [← show s.seq.ops = rest from ho]
    rfl
  | cons b bs ih =>
    rw [List.length_cons] at hd ⊢
    refine turns_step (turn_push (rest := .nextIdx :: pushLines bs ++ rest) (by omega) ho) ?_
    refine turns_step (turn_nextIdx (rest := pushLines bs ++ rest) rfl) ?_
    refine (ih rfl (by simp only [List.length_append, List.length_singleton]; omega)).trans ?_
    simp only [List.append_assoc, List.singleton_append, BitVec.add_assoc, BitVec.ofNat_add, BitVec.add_comm 1]
    rfl

/-- With receive masked ENGINE sends what is queued, one frame a turn. -/
theorem turns_txFrames {bs : List Byte} (hk : s.params.backend = .A) (hon : s.shifterOn = true) (ht : s.a.txf = bs)
    (hm : s.a.tcr.txmsk = false) (hr : s.a.tcr.rxmsk = true) :
    s.turns (List.replicate bs.length .engine) = .next { s with
      a := { s.a with txf := [], sr := { s.a.sr with frameDone := s.a.sr.frameDone || !bs.isEmpty } }
      trace := s.trace ++ bs.map (Event.out s.a.tcr.width) } := by
  induction bs generalizing s with
  | nil =>
    change Host.Outcome.next s = _
    simp only [List.isEmpty_nil, Bool.not_true, Bool.or_false, List.map_nil, List.append_nil]
    rw [← ht]
  | cons b bs ih =>
    refine turns_step (turn_txFrame_masked hk hon ht hm hr) ?_
    refine Eq.trans (ih hk hon rfl hm hr) ?_
    simp

/-- A.ADDR and its SETCTL: the bytes are in SCRATCH, and their pushes are next. -/
theorem turns_addrStart {xs : List Turn} (hk : s.params.backend = .A) (hph : s.seq.phase = .pAddr) (ho : s.seq.ops = [])
    (hp : s.desc.addrPresent = true) (hl : lwLegal s.desc.addrLw = true) (h32 : s.desc.addrSize + s.desc.altSize ≤ 32) :
    s.turns (.seq :: .seq :: xs) = State.turns { s with
      a := { s.a with scratch := s.addrScratch
                      tcr := { s.a.tcr with width := widthOf s.desc.addrLw, rxmsk := true, txmsk := false } }
      seq := { s.seq with ops := pushLines s.addrPushed ++ [.wait .txDrained, .goto .pDummy] } } xs := by
  refine turns_step ((turn_fetch hk ho (fetchStep_addr hph)).trans (execAAddr_present hp h32)) ?_
  exact turns_step (turn_setctl hl rfl rfl) rfl

/-- Settles O33: SEQ pushes every byte, ENGINE sends every byte, and SEQ goes on once TXF has drained. -/
theorem aAddrStep : Obligations.AAddrStep := by
  unfold Obligations.AAddrStep
  refine ⟨fun _ => execAAddr_absent, fun s hp h32 hwf => ?_, ?_⟩
  · refine ⟨_, _, execAAddr_present hp h32, fun i h => ?_, fun i h => ?_⟩
    · rw [State.addrScratch, Memory.read_store hwf, if_pos ⟨i.zero_le, by omega⟩, Nat.sub_zero,
        List.getD_eq_getElem _ _ h]
    · rw [State.addrScratch, Memory.read_store hwf, if_neg (by omega)]
  · intro s w hk hph ho hp hw h32 hd hwf hen hcs hst ht hb k
    obtain ⟨hl, -, rfl⟩ := widthOf_lines hw
    have hlen : s.addrPushed.length = k := addrPushed_length s
    have hsent : (!s.addrPushed.isEmpty) = true := by
      have hk0 : 0 < k := (of_decide_eq_true hp).1
      rw [← hlen, List.length_pos_iff] at hk0
      simpa using hk0
    refine ⟨s.addrScratch, ?_⟩
    rw [List.append_assoc, Nat.add_comm 2]
    refine Eq.trans (turns_addrStart hk hph ho hp hl h32) ?_
    rw [← hlen]
    refine Eq.trans (State.turns_append (turns_pushLines rfl (by simp only [ht, hlen, List.length_nil]; omega))) ?_
    refine Eq.trans (State.turns_append (turns_txFrames hk (shifterOn_of hen hcs hst) (by simp [ht]) rfl rfl)) ?_
    refine turns_step (turn_wait (drained_of rfl hb) rfl) ?_
    refine turns_last _ ((turn_goto rfl).trans ?_)
    dsimp only
    rw [hsent, Bool.or_true, addrPushed_eq hwf, Desc.addrBytes, ht]

/-- Settles O34: the pushes fill TXF, and the next one meets it full. -/
theorem addressOverflow : Obligations.AddressOverflow := by
  unfold Obligations.AddressOverflow
  intro s hk hph ho hp hl h32 ht hd
  have hlen : s.params.txDepth < s.addrPushed.length := by rw [addrPushed_length]; exact hd
  have hsplit : pushLines s.addrPushed = pushLines (s.addrPushed.take s.params.txDepth) ++
      pushOp s.addrPushed[s.params.txDepth] :: .nextIdx :: pushLines (s.addrPushed.drop (s.params.txDepth + 1)) := by
    rw [← pushLines_cons, List.cons_getElem_drop_succ, pushLines, pushLines, pushLines, ← List.flatMap_append,
      List.take_append_drop]
  have htake : (s.addrPushed.take s.params.txDepth).length = s.params.txDepth := List.length_take_of_le hlen.le
  have hturns : List.replicate (3 + 2 * s.params.txDepth) Turn.seq =
      .seq :: .seq :: (List.replicate (2 * (s.addrPushed.take s.params.txDepth).length) .seq ++ [.seq]) := by
    rw [htake, ← List.replicate_succ', Nat.add_comm 3]
    rfl
  rw [hturns]
  refine Eq.trans (turns_addrStart hk hph ho hp hl h32) ?_
  rw [hsplit, List.append_assoc]
  refine Eq.trans (State.turns_append (turns_pushLines rfl (by simp only [ht, htake, List.length_nil]; omega))) ?_
  exact turns_last _ (turn_push_full (by simp [ht]; omega) rfl)

/-! ## A.DUMMY (R172) -/

theorem dummyFrames_toNat (d : Desc) : d.dummyFrames.toNat = d.dummyCycles.toNat / 2 := by
  rw [Desc.dummyFrames, BitVec.toNat_ushiftRight, Nat.shiftRight_eq_div_pow]

/-- A round is left exactly below half the cycles: one cycle, or none, is no round (R111). -/
theorem dummyRound_iff (d : Desc) (i : BitVec 32) :
    (d.dummyPresent && decide (i < d.dummyFrames)) = true ↔ i.toNat < d.dummyCycles.toNat / 2 := by
  rw [Bool.and_eq_true, decide_eq_true_eq, BitVec.lt_def, dummyFrames_toNat, and_iff_right_iff_imp]
  intro h
  refine decide_eq_true fun h0 => ?_
  rw [h0] at h
  exact Nat.not_lt_zero _ h

theorem execADummy_round (h : s.seq.idx.toNat < s.desc.dummyCycles.toNat / 2) : execADummy s = .next { s with
    seq := { s.seq with ops := [setctlOp s.a.tcr 4 false true, .wait .rxAvail, popOp, .nextIdx] } } :=
  if_pos ((dummyRound_iff _ _).2 h)

theorem execADummy_over (h : s.desc.dummyCycles.toNat / 2 ≤ s.seq.idx.toNat) : execADummy s = .next (s.goto .pData) :=
  if_neg fun hc => absurd ((dummyRound_iff _ _).1 hc) (Nat.not_lt.2 h)

/-- A receive-only request, its frame, the wait and the pop: what a round of A.DUMMY and one of A.DATA share. -/
theorem turns_receive {t : Tcr} {lw : BitVec 3} (hk : s.params.backend = .A) (hon : s.shifterOn = true)
    (ht : s.a.txf = []) (hr : s.a.rxf = []) (hd : 0 < s.params.rxDepth) (hl : lwLegal lw = true)
    (ho : s.seq.ops = setctlOp t lw false true :: .wait .rxAvail :: popOp :: rest) :
    ∃ r, ∀ xs, s.turns (.seq :: .engine :: .seq :: .seq :: xs) = State.turns { s with
      seq := { s.seq with ops := rest, popData := r }
      a := { s.a with tcr := { s.a.tcr with width := widthOf lw, rxmsk := false, txmsk := false }
                      sr := { s.a.sr with frameDone := true } }
      trace := emitTo s.trace (if s.seq.phase = .pDummy then .dmy (8 / (widthOf lw).lines) else .inp (widthOf lw) r)
      env := { s.env with free := s.env.free + 1 } } xs := by
  have hset := turn_setctl hl rfl ho
  obtain ⟨r, hrx⟩ := turn_rxFrame (s := { s with
    seq := { s.seq with ops := .wait .rxAvail :: popOp :: rest }
    a := { s.a with tcr := { s.a.tcr with width := widthOf lw, rxmsk := false, txmsk := true } } })
    hk hon ht rfl (by simpa [hr] using hd)
  refine ⟨r, fun xs => turns_step hset (turns_step hrx ?_)⟩
  refine turns_step (turn_wait (by simp [State.holds, State.rxAvail]) rfl) ?_
  refine turns_step (turn_pop (b := r) (bs := []) (by simp [hr]) rfl) ?_
  dsimp only
  rw [hr]

/-- Settles O35: a round is one request at 4 lines, of `8 / 4` cycles. -/
theorem aDummyStep : Obligations.ADummyStep := by
  unfold Obligations.ADummyStep
  refine ⟨fun _ => execADummy_round, fun _ => execADummy_over,
    fun s rest ho hr => turn_hold (p := .rxAvail) (by simp [State.holds, State.rxAvail, hr]) ho, ?_⟩
  intro s hk hph ho hi hen hcs hst ht hr hd
  have hfetch := (turn_fetch hk ho (fetchStep_dummy hph)).trans (execADummy_round hi)
  obtain ⟨r, hround⟩ := turns_receive (s := { s with
    seq := { s.seq with ops := [setctlOp s.a.tcr 4 false true, .wait .rxAvail, popOp, .nextIdx] } })
    hk (shifterOn_of hen hcs hst) ht hr hd (by decide) rfl
  refine ⟨r, turns_step hfetch ((hround _).trans (turns_last _ ((turn_nextIdx rfl).trans ?_)))⟩
  rw [if_pos hph, ← ho]
  rfl

/-! ## A.DATA, write direction (R173) -/

theorem execADataW_round (hp : s.desc.dataPresent = true) (h : s.seq.idx.toNat < s.desc.length.toNat) :
    execADataW s = .next { s with seq := { s.seq with ops := [setctlOp s.a.tcr s.desc.dataLw true false,
      .wait .txNotFull, pushOp (Memory.read s.buf s.seq.idx.toNat), .nextIdx] } } :=
  (if_pos hp).trans (if_pos (BitVec.lt_def.2 h))

theorem execADataW_over (hp : s.desc.dataPresent = true) (h : s.desc.length.toNat ≤ s.seq.idx.toNat) :
    execADataW s = .next { s with seq := { s.seq with ops := [.wait .txDrained, .goto .pEnd] } } :=
  (if_pos hp).trans (if_neg fun hc => absurd (BitVec.lt_def.1 hc) (Nat.not_lt.2 h))

theorem execADataW_absent (h : s.desc.dataPresent = false) : execADataW s = .next (s.goto .pEnd) :=
  if_neg (by simp [h])

/-- The direction selects the step of P_DATA (R137). -/
theorem fetchStep_write (hph : s.seq.phase = .pData) (hd : s.desc.direction = 2) : s.fetchStep = .ok .aDataW := by
  rw [fetchStep_data hph, if_pos (by simp [Desc.dirWrite, hd])]

theorem fetchStep_read (hph : s.seq.phase = .pData) (hd : s.desc.direction = 1) : s.fetchStep = .ok .aDataR := by
  rw [fetchStep_data hph, if_neg (by simp [Desc.dirWrite, hd])]

/-- Settles O36: a round is one byte of BUF pushed where there is room. -/
theorem aDataWriteStep : Obligations.ADataWriteStep := by
  unfold Obligations.ADataWriteStep
  refine ⟨fun _ => execADataW_round, fun _ => execADataW_over, fun _ => execADataW_absent,
    fun s rest ho hf => turn_hold (p := .txNotFull) (by simp [State.holds, txFull_iff.2 hf]) ho, ?_⟩
  intro s w hk hph ho hdir hp hw hi hd
  obtain ⟨hl, -, rfl⟩ := widthOf_lines hw
  refine turns_step ((turn_fetch hk ho (fetchStep_write hph hdir)).trans (execADataW_round hp hi)) ?_
  refine turns_step (turn_setctl hl rfl rfl) ?_
  refine turns_step (turn_wait (by simpa [State.holds, State.txFull] using hd) rfl) ?_
  refine turns_step (turn_push hd rfl) ?_
  refine turns_last _ ((turn_nextIdx rfl).trans ?_)
  rw [← ho]

/-! ## A.DATA, read direction (R174) -/

theorem execADataR_round (hp : s.desc.dataPresent = true) (h : s.seq.idx.toNat < s.desc.length.toNat) :
    execADataR s = .next { s with seq := { s.seq with ops := [setctlOp s.a.tcr s.desc.dataLw false true,
      .wait .rxAvail, popOp, .bufStore, .nextIdx] } } :=
  if_pos (by simpa [hp, BitVec.lt_def] using h)

theorem execADataR_over (h : s.desc.dataPresent = false ∨ s.desc.length.toNat ≤ s.seq.idx.toNat) :
    execADataR s = .next (s.goto .pEnd) := by
  refine if_neg fun hc => ?_
  rw [Bool.and_eq_true, decide_eq_true_eq, BitVec.lt_def] at hc
  rcases h with h | h
  · simp [h] at hc
  · omega

/-- Settles O37: a round is one byte received and stored at IDX. -/
theorem aDataReadStep : Obligations.ADataReadStep := by
  unfold Obligations.ADataReadStep
  refine ⟨fun _ => execADataR_round, fun _ => execADataR_over, ?_⟩
  intro s w hk hph ho hdir hp hw hi hen hcs hst ht hr hd hwf
  obtain ⟨hl, -, rfl⟩ := widthOf_lines hw
  have hfetch := (turn_fetch hk ho (fetchStep_read hph hdir)).trans (execADataR_round hp hi)
  obtain ⟨r, hround⟩ := turns_receive (s := { s with
    seq := { s.seq with
      ops := [setctlOp s.a.tcr s.desc.dataLw false true, .wait .rxAvail, popOp, .bufStore, .nextIdx] } })
    hk (shifterOn_of hen hcs hst) ht hr hd hl rfl
  refine ⟨r, Memory.write s.buf s.seq.idx.toNat r, turns_step hfetch ((hround _).trans ?_), ?_, fun j hj => ?_⟩
  · refine turns_step (turn_bufStore rfl) ?_
    refine turns_last _ ((turn_nextIdx rfl).trans ?_)
    rw [if_neg (by simp [hph]), emitTo_inp, ← ho]
  · rw [Memory.read_write hwf, if_pos rfl]
  · rw [Memory.read_write hwf, if_neg hj]

/-! ## A.END (R175) -/

theorem not_readyToEnd_of (h : s.a.txf ≠ [] ∨ s.a.shiftBusy = true ∨ s.a.tcr.txmsk = true) :
    s.holds .readyToEnd = false := by
  rcases h with h | h | h <;> simp [State.holds, State.txDrained, h]

/-- Settles O38: the request is taken back, the chip-select machine releases, and the result is written last. -/
theorem aEndStep : Obligations.AEndStep := by
  unfold Obligations.AEndStep
  refine ⟨fun _ => rfl, fun s rest ho h => turn_hold (not_readyToEnd_of h) ho,
    fun s rest ho h => turn_hold (p := .csReleased) (by simp [State.holds, h]) ho, ?_⟩
  intro s hk hph ho hcs ht hb hm
  refine turns_step (turn_fetch hk ho (fetchStep_end hph)) ?_
  refine turns_step (turn_wait (by simp [State.holds, State.txDrained, ht, hb, hm]) rfl) ?_
  refine turns_step (turn_contOff rfl) ?_
  refine turns_step (turn_cs_release hcs (rest_csReq hk rfl)) ?_
  refine turns_step (turn_cs_high rfl) ?_
  refine turns_step (turn_wait rfl rfl) ?_
  refine turns_step (turn_xferDone rfl) ?_
  exact turns_last _ (turn_result hk rfl)

end Sys2Proof.Machine
end

section
/-! Backend B's table opcodes (42_backend_b_lut.md R205 to R213): the word of an opcode, what each opcode puts on the bus
and leaves in SLOT, BIDX and BUF, and how a sequence ends. -/

namespace Sys2Proof.Machine

variable {s : State}

/-! ## The word of a table opcode (R100, R103) -/

/-- The fields of a half-word, shifted to their places in a word. -/
theorem encodeHalf_word (op : BitVec 6) (w : BitVec 2) (x : Byte) : (encodeHalf op w x).setWidth 32 =
    (op.setWidth 32 <<< 10) ||| (w.setWidth 32 <<< 8) ||| x.setWidth 32 := by
  apply BitVec.eq_of_getLsbD_eq
  intro i hi
  simp only [BitVec.getLsbD_setWidth, encodeHalf_getLsbD, BitVec.getLsbD_or, BitVec.getLsbD_shiftLeft]
  by_cases h8 : i < 8
  · simp [hi, h8, show i < 10 by omega]
  · have hx : x.getLsbD i = false := BitVec.getLsbD_of_ge x i (by omega)
    by_cases h10 : i < 10
    · simp [hi, h8, h10, hx, show i - 8 < 32 by omega]
    · have hw : w.getLsbD (i - 8) = false := BitVec.getLsbD_of_ge w _ (by omega)
      simp [hi, h8, h10, hx, hw, show i - 10 < 32 by omega]

/-- The reserved width is illegal with every operation code that carries a width (R105). -/
theorem decode_reservedWidth {op : BitVec 6} (ho : widthOp op) (x : Byte) :
    decode ⟨.lut, (encodeHalf op 3 x).setWidth 32⟩ = .error .reservedWidth := by
  rw [decode_lut_half]
  exact decodeHalf_reservedWidth (by rwa [halfOp_encodeHalf]) (halfW_encodeHalf op 3 x)

/-! ## CMD, RADDR, MODE8 and DUMMY (R206 to R209) -/

/-- Settles O43: the word is the encoder's, and the one event is appended. -/
theorem cmdOpcode : Obligations.CmdOpcode := by
  unfold Obligations.CmdOpcode
  refine ⟨fun w b => ?_, fun b => ?_, fun s w b => ?_⟩
  · exact decode_of_encode_eq rfl (congrArg (CodeWord.mk .lut) (encodeHalf_word opCmd w.code b))
  · exact (congrArg (fun v => decode ⟨.lut, v⟩) (encodeHalf_word opCmd 3 b)).symm.trans
      (decode_reservedWidth (.inl rfl) b)
  · rw [← emitTo_out]
    rfl

/-- Settles O45: the word is the encoder's, and the one event is appended. -/
theorem mode8Opcode : Obligations.Mode8Opcode := by
  unfold Obligations.Mode8Opcode
  refine ⟨fun w m => ?_, fun s w m => ?_⟩
  · exact decode_of_encode_eq rfl (congrArg (CodeWord.mk .lut) (encodeHalf_word opMode8 w.code m))
  · rw [← emitTo_out]
    rfl

/-- Settles O44: up to 4 bytes leave in the order of their serialisation; a larger operand ends the sequence. -/
theorem raddrOpcode : Obligations.RaddrOpcode := by
  unfold Obligations.RaddrOpcode
  refine fun s w n => ⟨fun hn => ?_, fun hn => if_neg (not_le.2 hn)⟩
  rw [← foldl_emitTo_out]
  refine (if_pos hn).trans ?_
  rw [State.emitAll_eq]
  rfl

/-- Settles O46: the width does not occur in what DUMMY does. -/
theorem dummyOpcode : Obligations.DummyOpcode := by
  unfold Obligations.DummyOpcode
  exact fun _ _ _ => rfl

/-! ## WRITE and READ, one byte a step (R210, R211; log 14) -/

/-- After a data byte: SLOT moves on after the last byte, BIDX after any other. -/
theorem dataAdvance_eq (hb : s.b.bidx.toNat < s.b.ipLen.toNat) : s.dataAdvance = { s with
    b := if s.b.bidx.toNat + 1 = s.b.ipLen.toNat then { s.b with slot := s.b.slot + 1, bidx := 0 }
      else { s.b with bidx := s.b.bidx + 1 } } := by
  by_cases hl : s.b.bidx.toNat + 1 = s.b.ipLen.toNat
  · rw [if_pos hl]
    exact if_pos ((last_byte hb).2 hl)
  · rw [if_neg hl]
    exact if_neg fun e => hl ((last_byte hb).1 e)

section
variable {w : Width} {x : Byte}

theorem exec_write_type (hx : s.b.ipXtype ≠ .write) : exec (.write w x) s = .next (s.finish true) := if_pos hx

theorem exec_write_byte (hx : s.b.ipXtype = .write) (hb : s.b.bidx.toNat < s.b.ipLen.toNat) :
    exec (.write w x) s = .next (s.emit (.out w (s.readBuf s.b.bidx))).dataAdvance :=
  (if_neg (not_not.2 hx)).trans (if_pos (BitVec.lt_def.2 hb))

theorem exec_write_none (hx : s.b.ipXtype = .write) (hb : s.b.ipLen.toNat ≤ s.b.bidx.toNat) :
    exec (.write w x) s = .next s.advanceSlot :=
  (if_neg (not_not.2 hx)).trans (if_neg fun h => absurd (BitVec.lt_def.1 h) (by omega))

theorem exec_read_type (hx : s.b.ipXtype ≠ .read) : exec (.read w x) s = .next (s.finish true) := if_pos hx

theorem exec_read_byte (hx : s.b.ipXtype = .read) (hb : s.b.bidx.toNat < s.b.ipLen.toNat) :
    exec (.read w x) s = .next (s.readByte w).dataAdvance :=
  (if_neg (not_not.2 hx)).trans (if_pos (BitVec.lt_def.2 hb))

theorem exec_read_none (hx : s.b.ipXtype = .read) (hb : s.b.ipLen.toNat ≤ s.b.bidx.toNat) :
    exec (.read w x) s = .next s.advanceSlot :=
  (if_neg (not_not.2 hx)).trans (if_neg fun h => absurd (BitVec.lt_def.1 h) (by omega))

end

/-- Settles O47: the request of another type, a byte before the last, the last byte, and no byte to send. -/
theorem writeOpcode : Obligations.WriteOpcode := by
  unfold Obligations.WriteOpcode
  refine fun s w x => ⟨exec_write_type, fun hx hb => ?_, fun hx hb => ?_, exec_write_none⟩
  · have hlt : s.b.bidx.toNat < s.b.ipLen.toNat := by omega
    rw [exec_write_byte hx hlt, dataAdvance_eq (s := s.emit _) hlt, State.emit_b, if_neg (by omega), ← emitTo_out]
    rfl
  · have hlt : s.b.bidx.toNat < s.b.ipLen.toNat := by omega
    rw [exec_write_byte hx hlt, dataAdvance_eq (s := s.emit _) hlt, State.emit_b, if_pos hb, ← emitTo_out]
    rfl

/-- Settles O48: the byte sampled is the byte on the trace and the byte stored. -/
theorem readOpcode : Obligations.ReadOpcode := by
  unfold Obligations.ReadOpcode
  intro s w x hwf
  refine ⟨exec_read_type, fun hx hb => ?_, exec_read_none⟩
  refine ⟨s.drawn, Memory.write s.buf s.b.bidx.toNat s.drawn, ?_, ?_, fun j hj => ?_⟩
  · rw [exec_read_byte hx hb, dataAdvance_eq (s := s.readByte w) hb, ← emitTo_inp]
    rfl
  · rw [Memory.read_write hwf, if_pos rfl]
  · rw [Memory.read_write hwf, if_neg hj]

/-! ## The end of a sequence (R204, R205, R212, R213) -/

section
variable (hk : s.params.backend = .B) (hon : s.tableOn = true)
include hk hon

theorem turn_extFail (hx : s.env.pins.extFail = true) : s.turn .engine = .next (s.finish true) := by
  rw [engine_B hk, State.engineB, if_neg (by simp [hon]), if_pos hx]

theorem turn_lastSlot (hx : s.env.pins.extFail = false) (hs : 8 ≤ s.b.slot.toNat) :
    s.turn .engine = .next (s.finish false) := by
  rw [engine_B hk, State.engineB, if_neg (by simp [hon]), if_neg (by simp [hx]), if_pos hs]

theorem turn_illegalHalf {h : Half} {e : DecodeError} (hx : s.env.pins.extFail = false) (hs : s.b.slot.toNat < 8)
    (hf : s.fetchHalf = some h) (hd : decodeHalf h = .error e) : s.turn .engine = .next (s.finish true) := by
  rw [engine_B hk, State.engineB, if_neg (by simp [hon]), if_neg (by simp [hx]), if_neg (not_le.2 hs), hf]
  simp only [decode_lut_half, hd]

end

/-- Settles O42: each way of ending a sequence is `finish`, which leaves the bus and SLOT alone. -/
theorem sequenceEnds : Obligations.SequenceEnds := by
  unfold Obligations.SequenceEnds
  refine ⟨fun _ => rfl, fun s hk hb hc hst => ?_⟩
  have hon : s.tableOn = true := by simp [State.tableOn, hb, hc, hst]
  exact ⟨turn_extFail hk hon, turn_lastSlot hk hon, fun h e => turn_illegalHalf hk hon⟩

end Sys2Proof.Machine
end

section
/-! SEQ on Backend B (42_backend_b_lut.md R200 to R203, R214 to R217): the compiled program and its load, the issue of the
request, and what a whole transfer leaves behind. -/

namespace Sys2Proof.Machine

variable {s : State} {rest : List SeqOp}

/-! ## The program and its load (R200 to R202) -/

/-- Settles O7: a program has at most 5 opcodes, and each is in its slot. -/
theorem slotPlacement : Obligations.SlotPlacement := by
  unfold Obligations.SlotPlacement
  refine fun d => ⟨fun k hk => ?_, compile_slot d (k := 0) (by decide)⟩
  have hl := opcodes_length d
  rw [compile_slot d (by omega), slotOf, List.getD_eq_getElem _ _ hk]

theorem turn_load {p0 p1 p2 p3 : Word} (ho : s.seq.ops = .load p0 p1 p2 p3 :: rest) : s.turn .seq = .next { s with
    seq := { s.seq with ops := rest }
    b := { s.b with lut := { s.b.lut with w4 := p0, w5 := p1, w6 := p2, w7 := p3 } } } :=
  seqTurn_cons ho

/-- LOAD is a line of P_START only, before the request (R82, R202). -/
theorem pointB_load {p0 p1 p2 p3 : Word} (hp : pointB s) (ho : s.seq.ops = .load p0 p1 p2 p3 :: rest) : restB s := by
  unfold pointB at hp
  cases hph : s.seq.phase with
  | pIdle =>
    rw [hph] at hp
    exact hp.1
  | pStart =>
    rw [hph, ho] at hp
    rcases hp with ⟨hr, -⟩ | ⟨-, h⟩
    · exact hr
    · cases h
  | pInstr | pAddr | pDummy =>
    rw [hph] at hp
    exact hp.elim
  | pData | pEnd =>
    rw [hph, ho] at hp
    rcases hp with ⟨-, h | h⟩ | ⟨-, h⟩ <;> cases h

/-- The first step of a transfer on Backend B (R216). -/
theorem seqB_start (hp : s.seq.phase = .pStart) : s.seqB = s.issueOps [.load (s.desc.compile.getD 0 0)
    (s.desc.compile.getD 1 0) (s.desc.compile.getD 2 0) (s.desc.compile.getD 3 0), .issue, .goto .pData] := by
  rw [State.seqB, hp]
  rfl

/-- Settles O40: the line's effect, the control point in front of it, and the step that hands it over. -/
theorem loadProgram : Obligations.LoadProgram := by
  unfold Obligations.LoadProgram
  refine ⟨fun _ _ _ _ _ _ => turn_load, fun s _ _ _ _ _ hi hk ho => ?_, fun s hk hp ho => ?_⟩
  · obtain ⟨-, hbusy⟩ := pointB_load (hi.pointB hk) ho
    exact hbusy
  · exact (seqTurn_nilB ho hk).trans (congrArg Host.Outcome.next (seqB_start hp))

/-! ## The request (R203, R214) -/

theorem issueAddr_eq (d : Desc) : d.issueAddr = if 0 < d.addrSize ∧ d.addrLw ≠ 0 then d.addrContent else 0 := by
  simp only [Desc.issueAddr, Desc.raddrPresent, decide_eq_true_eq]

theorem issueXtype_eq (d : Desc) : d.issueXtype =
    if d.dataPresent = false then .command else if d.direction = 1 then .read else .write := by
  simp only [Desc.issueXtype, Desc.dirRead, Bool.not_eq_true', decide_eq_true_eq]

/-- The request that SEQ raises in CS_IDLE is answered in the same turn (R203, R256). -/
theorem turn_issue (hk : s.params.backend = .B) (hcs : s.cs = .idle) (ho : s.seq.ops = .issue :: rest) :
    s.turn .seq = .next { s with
      seq := { s.seq with ops := rest }
      b := { s.b with
        ipAddr := s.desc.issueAddr, ipXtype := s.desc.issueXtype, ipSeq := 1, ipLen := s.desc.issueLen
        sts := { done := false, fail := false, busy := true }, slot := 0, bidx := 0 }
      cs := .setup, trace := s.trace ++ [.csLow] } := by
  rw [← emitTo_csLow]
  refine (seqTurn_cons ho).trans (congrArg Host.Outcome.next (if_pos ?_))
  simp [State.csReq, hk, hcs]

/-- Settles O41: the wait holds SEQ until the sequence has ended; the issue raises the request. -/
theorem issueRequest : Obligations.IssueRequest := by
  unfold Obligations.IssueRequest
  refine ⟨fun s rest ho hd => turn_hold (p := .done) hd ho, fun s rest hk ho hcs => ?_⟩
  rw [turn_issue hk hcs ho, issueAddr_eq, issueXtype_eq]
  rfl

/-! ## A whole transfer (R217) -/

/-- Settles O55: the end of a tracked run has the whole trace and the count, or a beginning of the trace and the failure;
the buffer is kept but for the bytes of a read. -/
theorem transferTraceB : Obligations.TransferTraceB := by
  unfold Obligations.TransferTraceB
  intro s u t ts hi hk h0 he hx ha ht hend
  obtain ⟨⟨hkept, hok, hfail⟩, hd⟩ := transfer_resultB hi h0 he hx ha ht hend hk
  rw [bufKept, hd] at hkept
  rw [hd] at hok hfail
  refine ⟨fun hs => ⟨transfer_traceB hi h0 he hx ha ht hend hk hs, (hok hs).2⟩, fun hs => ?_, hkept⟩
  obtain ⟨hstatus, hcount, bytes, hlen, hwrite, first, more, htrace, hall⟩ := hfail hs
  rw [hd] at hall
  rw [List.append_assoc] at htrace
  exact ⟨hstatus, hcount, bytes, first, more, hlen, hwrite, htrace, hall⟩

end Sys2Proof.Machine
end

section
/-! The chip-select machine (43_linemux_and_cs.md R256): its transition from each state, that no other turn but reset
takes chip-select out of a state in which it is asserted, and what the invariant leaves of CS_HOLD (R257, R258). -/

namespace Sys2Proof.Machine

variable {s t : State}

/-! ## The transitions (R256) -/

/-- A request that rises in CS_IDLE is answered at the machine's own turn too. -/
theorem csTurn_idle_request (hcs : s.cs = .idle) (hr : s.csReq = true) :
    s.csTurn = { s with cs := .setup, trace := s.trace ++ [.csLow] } := by
  simp only [State.csTurn, hcs, State.csRise, hr, decide_true, Bool.and_self, if_true, State.emit, emitTo_csLow]

theorem csTurn_idle_rest (hcs : s.cs = .idle) (hr : s.csReq = false) : s.csTurn = s := by
  simp only [State.csTurn, hcs, State.csRise, hr, Bool.false_and, Bool.false_eq_true, if_false]

theorem csTurn_setup (hcs : s.cs = .setup) : s.csTurn = { s with cs := .active } := by
  simp only [State.csTurn, hcs]

theorem csTurn_active_request (hcs : s.cs = .active) (hr : s.csReq = true) : s.csTurn = s := by
  simp only [State.csTurn, hcs, hr, if_true]

theorem csTurn_active_release (hcs : s.cs = .active) (hr : s.csReq = false) : s.csTurn = { s with cs := .hold } := by
  simpa only [State.turn, Host.Outcome.next.injEq] using turn_cs_release hcs hr

theorem csTurn_hold (hcs : s.cs = .hold) :
    s.csTurn = { s with cs := .interval, trace := s.trace ++ [.csHigh] } := by
  simpa only [State.turn, Host.Outcome.next.injEq] using turn_cs_high hcs

theorem csTurn_interval (hcs : s.cs = .interval) : s.csTurn = { s with cs := .idle } := by
  simp only [State.csTurn, hcs]

theorem csTurn_frame (s : State) : s.csTurn = { s with cs := s.csTurn.cs, trace := s.csTurn.trace } := by
  obtain ⟨c, tr, e, -⟩ := csTurn_cases s
  rw [e]

/-- Settles O49: each clause is the machine's transition from one state. -/
theorem chipSelectMachine : Obligations.ChipSelectMachine := by
  unfold Obligations.ChipSelectMachine
  refine fun s => ⟨s.csTurn, rfl, csTurn_frame s, fun h hr => ?_, csTurn_idle_rest, fun h => ?_, csTurn_active_request,
    fun h hr => ?_, fun h => ?_, fun h => ?_⟩
  · rw [csTurn_idle_request h hr]; exact ⟨rfl, rfl⟩
  · rw [csTurn_setup h]; exact ⟨rfl, rfl⟩
  · rw [csTurn_active_release h hr]; exact ⟨rfl, rfl⟩
  · rw [csTurn_hold h]; exact ⟨rfl, rfl⟩
  · rw [csTurn_interval h]; exact ⟨rfl, rfl⟩

/-! ## What the other agents can do, in terms of the instructions and the lines -/

theorem engineB_next (h : s.engineB = .next t) : t = s ∨ (∃ f, t = s.finish f) ∨ ∃ i, exec i s = .next t := by
  unfold State.engineB at h
  split at h
  · cases h; exact .inl rfl
  · split at h
    · cases h; exact .inr (.inl ⟨_, rfl⟩)
    · split at h
      · cases h; exact .inr (.inl ⟨_, rfl⟩)
      · split at h
        · cases h
        · split at h
          · cases h; exact .inr (.inl ⟨_, rfl⟩)
          · exact .inr (.inr ⟨_, h⟩)

/-- SEQ between lines on Backend B hands over lines, or has no step (R216). -/
theorem seqB_next (s : State) : ∃ ops, s.seqB = s.issueOps ops := by
  unfold State.seqB
  split
  · exact ⟨_, rfl⟩
  · exact ⟨_, rfl⟩
  · exact ⟨_, rfl⟩
  all_goals exact ⟨s.seq.ops, rfl⟩

/-- SEQ executes an instruction, performs a line, or only moves in its lines. -/
theorem seqTurn_next (h : s.seqTurn = .next t) :
    ∃ ops, t = s.issueOps ops ∨ (∃ i, exec i (s.issueOps ops) = .next t) ∨ ∃ op, t = (s.issueOps ops).runLine op := by
  cases ho : s.seq.ops with
  | cons op rest =>
    rw [seqTurn_cons ho] at h
    unfold State.runOp at h
    split at h
    · split at h
      · exact ⟨rest, .inr (.inl ⟨_, h⟩)⟩
      · cases h
    · cases h
      split
      · exact ⟨rest, .inl rfl⟩
      · exact ⟨s.seq.ops, .inl rfl⟩
    · cases h; exact ⟨rest, .inr (.inr ⟨_, rfl⟩)⟩
  | nil =>
    cases hk : s.params.backend with
    | B =>
      rw [seqTurn_nilB ho hk] at h
      cases h
      obtain ⟨ops, e⟩ := seqB_next s
      exact ⟨ops, .inl e⟩
    | A =>
      cases hf : s.fetchStep with
      | ok i =>
        rw [seqTurn_fetch ho hk hf] at h
        exact ⟨s.seq.ops, .inr (.inl ⟨i, h⟩)⟩
      | error e =>
        simp only [State.seqTurn, ho, hk, hf] at h
        cases h
        exact ⟨s.seq.ops, .inl rfl⟩

/-- The host executes a command, or writes its own registers and its buffer. -/
theorem hostTurn_next {act : HostAct} (h : s.hostTurn act = .next t) :
    (∃ i, exec i s = .next t) ∨ ∃ p d m, t = { s with host := p, desc := d, buf := m } := by
  cases act with
  | writeReg n v =>
    simp only [State.hostTurn, State.hostWrite] at h
    split at h
    · split at h
      · exact .inl ⟨_, h⟩
      · cases h
    · split_ifs at h <;> cases h
      · exact .inr ⟨_, _, _, rfl⟩
      · exact .inr ⟨_, _, _, rfl⟩
  | readReg n =>
    simp only [State.hostTurn, State.hostRead] at h
    repeat' split at h
    all_goals cases h
    exact .inr ⟨_, _, _, rfl⟩
  | writeBuf i b =>
    simp only [State.hostTurn, State.hostWriteBuf] at h
    split at h <;> cases h
    exact .inr ⟨_, _, _, rfl⟩
  | readBuf i =>
    simp only [State.hostTurn, State.hostReadBuf] at h
    split at h <;> cases h
    exact .inr ⟨_, _, _, rfl⟩

/-! ## No other turn moves an asserted chip-select (R257) -/

theorem configure_cs (h : execConfigure s = .next t) : t.cs = s.cs := by
  unfold execConfigure State.applyConfig State.havocConfig at h
  cases hk : s.params.backend <;> simp only [hk] at h <;> split_ifs at h <;> cases h <;> rfl

theorem transfer_cs (h : execTransfer s = .next t) : t.cs = s.cs := by
  unfold execTransfer at h
  split at h
  · cases h
  · cases h; rfl
  · split at h <;> cases h <;> rfl

/-- No instruction moves the chip-select machine: the request is raised by a line of SEQ (R169, R203). -/
theorem exec_cs {i : Instr} (h : exec i s = .next t) : t.cs = s.cs := by
  by_cases hc : i = .configure
  · subst hc; exact configure_cs h
  by_cases ht : i = .transfer
  · subst ht; exact transfer_cs h
  rcases space_cases hc ht with ⟨p, hp⟩ | ⟨d, hp⟩ | hp
  · exact (exec_ctl_frame hp h).1.cs
  · exact (exec_seq_frame hp h).1.cs
  · exact (exec_lut_frame hp h).1.cs

theorem CsState.ne_idle_of_asserted {c : CsState} (h : c.asserted = true) : c ≠ .idle := by
  rintro rfl
  cases h

/-- A rising request is answered in CS_IDLE only (R256). -/
theorem csRise_asserted_cs (s : State) (ha : s.cs.asserted = true) : s.csRise.cs = s.cs := by
  rcases s.csRise_cases with ⟨-, hi, -⟩ | ⟨-, e⟩
  · exact absurd hi (CsState.ne_idle_of_asserted ha)
  · rw [e]

theorem runLine_cs (ha : s.cs.asserted = true) (op : SeqOp) : (s.runLine op).cs = s.cs := by
  cases op with
  | contOn => exact csRise_asserted_cs _ ha
  | issue => exact csRise_asserted_cs _ ha
  | result =>
    obtain ⟨-, -, -, hcs, -⟩ := endTransfer_frame (s := s)
    exact hcs
  | _ => rfl

theorem seqTurn_cs (ha : s.cs.asserted = true) (h : s.seqTurn = .next t) : t.cs = s.cs := by
  obtain ⟨ops, rfl | ⟨i, he⟩ | ⟨op, rfl⟩⟩ := seqTurn_next h
  · rfl
  · exact exec_cs (s := s.issueOps ops) he
  · exact runLine_cs (s := s.issueOps ops) ha op

theorem engineA_cs (s : State) : s.engineA.cs = s.cs := by
  rcases engineA_cases s with e | ⟨b, rest, -, -, -, -, e⟩ | ⟨-, -, -, -, e⟩
  · rw [e]
  · rw [e, State.txFrame]
    split <;> rfl
  · obtain ⟨b, tr, n, e'⟩ := rxFrame_eq s
    rw [e, e']

theorem engineTurn_cs (h : s.engineTurn = .next t) : t.cs = s.cs := by
  unfold State.engineTurn at h
  split at h
  · cases h; exact engineA_cs s
  · rcases engineB_next h with rfl | ⟨f, rfl⟩ | ⟨i, he⟩
    · rfl
    · rfl
    · exact exec_cs he

theorem hostTurn_cs {act : HostAct} (h : s.hostTurn act = .next t) : t.cs = s.cs := by
  rcases hostTurn_next h with ⟨i, he⟩ | ⟨p, d, m, rfl⟩
  · exact exec_cs he
  · rfl

/-- The machine's own turn deasserts chip-select from CS_HOLD only (R256). -/
theorem csTurn_deasserts (ha : s.cs.asserted = true) (hd : s.csTurn.cs.asserted = false) : s.cs = .hold := by
  cases hcs : s.cs with
  | idle | interval => rw [hcs] at ha; cases ha
  | setup => rw [csTurn_setup hcs] at hd; cases hd
  | active =>
    cases hr : s.csReq with
    | true => rw [csTurn_active_request hcs hr, ha] at hd; cases hd
    | false => rw [csTurn_active_release hcs hr] at hd; cases hd
  | hold => rfl

theorem turn_deasserts {x : Turn} (ha : s.cs.asserted = true) (h : s.turn x = .next t) (hd : t.cs.asserted = false) :
    (x = .cs ∧ s.cs = .hold) ∨ x = .reset := by
  have moved : t.cs ≠ s.cs := fun e => by rw [e, ha] at hd; cases hd
  cases x with
  | host act => exact absurd (hostTurn_cs h) moved
  | seq => exact absurd (seqTurn_cs ha h) moved
  | engine => exact absurd (engineTurn_cs h) moved
  | cs => cases h; exact .inl ⟨rfl, csTurn_deasserts ha hd⟩
  | setPins p => cases h; exact absurd rfl moved
  | reset => exact .inr rfl

/-! ## CS_HOLD among the control points (R257, R258) -/

theorem not_csOff_of_hold (hc : s.cs = .hold) : ¬ csOff s := by
  rintro (h | h) <;> simp [hc] at h

theorem not_csOn_of_hold (hc : s.cs = .hold) : ¬ csOn s := by
  rintro (h | h) <;> simp [hc] at h

/-- Of Backend A's control points only the release has chip-select in CS_HOLD. -/
theorem pointA_hold (hc : s.cs = .hold) (hp : pointA s) : releasedA s := by
  have hoff := not_csOff_of_hold hc
  have hon := not_csOn_of_hold hc
  unfold pointA at hp
  cases hph : s.seq.phase with
  | pIdle => simp [hph, restA, hoff] at hp
  | pStart => simp [hph, startPoint, restA, quietA, hoff, hon] at hp
  | pInstr => simp [hph, instrPoint, quietA, readyA, sendingA, hon] at hp
  | pAddr => simp [hph, addrPoint, quietA, readyA, sendingA, hon] at hp
  | pDummy => simp [hph, dummyPoint, quietA, askedA, gotA, hon] at hp
  | pData =>
    cases hd : s.desc.dirWrite with
    | true => simp [hph, hd, writePoint, quietA, readyA, sendingA, hon] at hp
    | false => simp [hph, hd, readPoint, quietA, askedA, gotA, hon] at hp
  | pEnd =>
    simp only [hph, endPoint, quietA, restA, hoff, hon, false_and, and_false, or_false, false_or] at hp
    exact hp.1

/-- While a request runs chip-select is off or held, so in CS_HOLD it has ended (R258). -/
theorem issuedB_hold (hc : s.cs = .hold) (h : issuedB s) : s.b.sts.busy = false := by
  rcases h with ⟨-, -, -, -, hcs⟩ | ⟨hb, -⟩
  · exact hcs.elim (absurd · (not_csOff_of_hold hc)) (absurd · (not_csOn_of_hold hc))
  · exact hb

theorem pointB_hold (hc : s.cs = .hold) (hp : pointB s) : s.b.sts.busy = false := by
  unfold pointB at hp
  cases hph : s.seq.phase with
  | pIdle =>
    rw [hph] at hp
    obtain ⟨⟨-, hb⟩, -⟩ := hp
    exact hb
  | pStart =>
    rw [hph] at hp
    rcases hp with ⟨⟨-, hb⟩, -⟩ | ⟨hi, -⟩
    · exact hb
    · exact issuedB_hold hc hi
  | pInstr | pAddr | pDummy =>
    rw [hph] at hp
    exact hp.elim
  | pData =>
    rw [hph] at hp
    rcases hp with ⟨hi, -⟩ | ⟨⟨hb, -⟩, -⟩
    · exact issuedB_hold hc hi
    · exact hb
  | pEnd =>
    rw [hph] at hp
    rcases hp with ⟨⟨hb, -⟩, -⟩ | ⟨⟨-, hb⟩, -⟩
    · exact hb
    · exact hb

/-- Settles O50: which turns deassert chip-select, and the one control point of each backend with CS_HOLD. -/
theorem holdBeforeRelease : Obligations.HoldBeforeRelease := by
  unfold Obligations.HoldBeforeRelease
  refine ⟨fun s t x => turn_deasserts, fun s hi hc => ⟨fun hk => ?_, fun hk => pointB_hold hc (hi.pointB hk)⟩⟩
  obtain ⟨⟨htx, -, hm⟩, hcont, hcontc⟩ := pointA_hold hc (hi.pointA hk)
  exact ⟨htx, hi.shifter, hm, hcont, hcontc⟩

end Sys2Proof.Machine
end

section
/-! The line mux (43_linemux_and_cs.md R250 to R253): which bit of a byte is on which line in which cycle. -/

namespace Sys2Proof.Machine

/-- Inside the width and the cycles of a byte, a line carries its bit (R251). -/
theorem outLevel_bit {w : Width} {k j : Nat} (b : Byte) (hk : k < cyclesOf w) (hj : j < w.lines) :
    outLevel w b k j = some (b.getLsbD (laneBit w k j)) := if_pos ⟨hk, hj⟩

theorem outLevel_none {w : Width} {k j : Nat} (b : Byte) (h : w.lines ≤ j ∨ cyclesOf w ≤ k) : outLevel w b k j = none :=
  if_neg (by omega)

/-- Bit `i` of the byte of an IN is on its line in its cycle (R251, R252). -/
theorem inLevel_bit (w : Width) (b : Byte) {i : Nat} (hi : i < 8) :
    inLevel w b (bitCycle w i) (sampleLine w i) = some (b.getLsbD i) := by
  cases w with
  | w1 =>
    have hk : bitCycle .w1 i = 7 - i := Nat.div_one _
    rw [inLevel, hk, if_pos ⟨by omega, rfl⟩, show 7 - (7 - i) = i by omega]
  | w2 =>
    have hk : bitCycle .w2 i = (7 - i) / 2 := rfl
    have hb : laneBit .w2 ((7 - i) / 2) (i % 2) = i := by simp only [laneBit, Width.lines]; omega
    rw [inLevel, sampleLine, hk, outLevel_bit b (by simp only [cyclesOf, Width.lines]; omega)
      (by simp only [Width.lines]; omega), hb]
  | w4 =>
    have hk : bitCycle .w4 i = (7 - i) / 4 := rfl
    have hb : laneBit .w4 ((7 - i) / 4) (i % 4) = i := by simp only [laneBit, Width.lines]; omega
    rw [inLevel, sampleLine, hk, outLevel_bit b (by simp only [cyclesOf, Width.lines]; omega)
      (by simp only [Width.lines]; omega), hb]

/-- At two and four lines a byte is driven and sampled on the same lines (R251, R252). -/
theorem inLevel_eq_outLevel {w : Width} (h : w ≠ .w1) : inLevel w = outLevel w := by
  cases w with
  | w1 => exact absurd rfl h
  | w2 | w4 => rfl

theorem sampled_bit (w : Width) (level : Nat → Nat → Bool) {i : Nat} (hi : i < 8) :
    (sampled w level).getLsbD i = level (bitCycle w i) (sampleLine w i) := by
  rw [BitVec.getLsbD_eq_getElem hi, sampled, BitVec.getElem_ofFnLE _ _ hi]

/-- Levels that carry a byte as an IN of it does are sampled as that byte (R252). -/
theorem sampled_of_inLevel {w : Width} {b : Byte} {level : Nat → Nat → Bool}
    (h : ∀ k j x, inLevel w b k j = some x → level k j = x) : sampled w level = b := by
  refine BitVec.eq_of_getLsbD_eq fun i hi => ?_
  rw [sampled_bit w level hi, h _ _ _ (inLevel_bit w b hi)]

/-- Settles O51: the bit on each line, what is sampled, and what the event fixes on the pins. -/
theorem lineMapping : Obligations.LineMapping := by
  unfold Obligations.LineMapping
  refine ⟨fun b => ⟨fun k hk j hj => ?_, fun k hk j hj => ?_, fun k hk => ?_⟩, fun w b hw => ?_, fun level k hk => ?_,
    fun w b k j => outLevel_none b, fun _ _ _ _ _ => ⟨rfl, rfl, rfl, rfl⟩, fun s w b => ⟨?_, fun k j x hx => ?_⟩⟩
  · rw [outLevel_bit b hk hj, laneBit, Width.lines, show 7 - k * 4 - (4 - 1 - j) = 4 * (1 - k) + j by omega]
  · rw [outLevel_bit b hk hj, laneBit, Width.lines, show 7 - k * 2 - (2 - 1 - j) = 2 * (3 - k) + j by omega]
  · rw [outLevel_bit b hk Nat.one_pos, laneBit, Width.lines, show 7 - k * 1 - (1 - 1 - 0) = 7 - k by omega]
  · refine sampled_of_inLevel fun k j x hx => ?_
    rw [inLevel_eq_outLevel hw] at hx
    rw [hx, Option.getD_some]
  · have hb : bitCycle .w1 (7 - k) = k := by simp only [bitCycle, Width.lines]; omega
    rw [sampled_bit .w1 level (by omega), hb, sampleLine]
  · refine sampled_of_inLevel fun k j x hx => ?_
    rw [State.padLevel, eventLevel, hx, Option.getD_some]
  · rw [drivenLevel] at hx
    rw [State.padLevel, eventLevel, hx, Option.getD_some]

end Sys2Proof.Machine
end

section
/-! A CONFIGURE that fails (60_exceptions.md R274, R280): free values in the configuration registers of the instance's
backend, and the result registers. -/

namespace Sys2Proof.Machine

variable {s : State}

/-- The latch stays off and STATE stays: only the configuration and the result are written (R274, R280). -/
theorem execConfigure_fails (hx : s.host.st ≠ .xfer) (hc : s.host.configured = false)
    (hf : s.env.pins.initFail = true) : execConfigure s = .next (s.havocConfig.raise .configFailure) := by
  rw [execConfigure, if_neg hx, if_neg (by simp [hc]), if_pos hf]

/-- On Backend A the free values go to `CFGR`, `FCR` and two bits of `TCR` (U10). -/
theorem havocConfig_backendA (hk : s.params.backend = .A) : ∃ cfgr fcr cpol cpha, s.havocConfig = { s with
    a := { s.a with cfgr := cfgr, fcr := fcr, tcr := { s.a.tcr with cpol := cpol, cpha := cpha } }
    env := { s.env with free := s.env.free + 7 } } := by
  simp only [State.havocConfig, hk]
  exact ⟨_, _, _, _, rfl⟩

/-- On Backend B the free values go to `MCR`, `FLSHCR0`, `FLSHCR1` and the bootstrap words of the table (U10). -/
theorem havocConfig_backendB (hk : s.params.backend = .B) : ∃ mcr size flshcr1 w0 w1 w2 w3, s.havocConfig = { s with
    b := { s.b with mcr := mcr, flashSize := size, flshcr1 := flshcr1
                    lut := { s.b.lut with w0 := w0, w1 := w1, w2 := w2, w3 := w3 } }
    env := { s.env with free := s.env.free + 7 } } := by
  simp only [State.havocConfig, hk]
  exact ⟨_, _, _, _, _, _, _, rfl⟩

/-- Settles O12: what the free values reach on each backend, and the error's result. -/
theorem configureFails : Obligations.ConfigureFails := by
  unfold Obligations.ConfigureFails
  intro s hx hc hf
  refine ⟨_, execConfigure_fails hx hc hf, ?_⟩
  cases hk : s.params.backend with
  | A =>
    obtain ⟨cfgr, fcr, cpol, cpha, e⟩ := havocConfig_backendA hk
    rw [e]
    exact ⟨rfl, rfl, rfl, rfl, rfl, rfl, rfl, rfl, rfl, rfl, rfl, rfl, fun _ => rfl, nofun⟩
  | B =>
    obtain ⟨mcr, size, flshcr1, w0, w1, w2, w3, e⟩ := havocConfig_backendB hk
    rw [e]
    exact ⟨rfl, rfl, rfl, rfl, rfl, rfl, rfl, rfl, rfl, rfl, rfl, rfl, nofun, fun _ => rfl⟩

end Sys2Proof.Machine
end

section
/-! Where a step from the invariant stops (60_exceptions.md R273, R277): what a turn can do, and that of a host write
only a command can fault. -/

namespace Sys2Proof.Machine

variable {s : State} {n : BitVec 8} {v : Word} {f : Fault}

/-- Only a command is executed; a write of any other register is done or refused (R46). -/
theorem hostWrite_fault_cmd (h : s.turn (.host (.writeReg n v)) = .fault f) : n = 0 := by
  by_contra hn
  simp only [State.turn, State.hostTurn, State.hostWrite, if_neg hn] at h
  repeat' split at h
  all_goals cases h

/-- Settles O59: the stops of a turn, taken from a state that differs from `s` in the environment alone. -/
theorem whereStepsStop : Obligations.WhereStepsStop := by
  unfold Obligations.WhereStepsStop
  intro s h
  obtain ⟨e, he⟩ := s.nextTurn_env
  have ho := turn_outcome (nextTurn_inv h) s.nextTurn.1
  refine ⟨fun f hf => ?_, fun r hr => ?_⟩
  · rw [step] at hf
    rw [hf] at ho
    rcases ho with ⟨hu, n, v, hx⟩ | ⟨ho, hx, hk, hp, hd⟩
    · rw [hx] at hf
      obtain rfl := hostWrite_fault_cmd hf
      exact .inl ⟨hu, v, hx⟩
    · rw [he] at hk hp hd
      exact .inr ⟨ho, hx, hk, hp, hd⟩
  · rw [step] at hr
    rwa [hr] at ho

end Sys2Proof.Machine
end

section
/-! The clocked length of a transfer (70_reset_and_hazards.md R313): the cycles of each part of its list of events. -/

namespace Sys2Proof.Machine

variable {d : Desc} {bs : List Byte} {lw : BitVec 3}

/-! ## The cycles of a list of events -/

@[simp] theorem traceClocks_nil : traceClocks [] = 0 := rfl

@[simp] theorem traceClocks_cons (e : Event) (t : List Event) : traceClocks (e :: t) = clocksOf e + traceClocks t :=
  List.sum_cons

@[simp] theorem traceClocks_append (t t' : List Event) : traceClocks (t ++ t') = traceClocks t + traceClocks t' := by
  simp only [traceClocks, List.map_append, List.sum_append]

/-- A part of the list that is absent takes no cycles. -/
@[simp] theorem traceClocks_ite_nil (p : Prop) [Decidable p] (t : List Event) :
    traceClocks (if p then t else []) = if p then traceClocks t else 0 := apply_ite traceClocks p t []

/-- Bytes that take the same number of cycles each. -/
theorem traceClocks_map {ev : Byte → Event} {c : Nat} (h : ∀ b, clocksOf (ev b) = c) (bs : List Byte) :
    traceClocks (bs.map ev) = c * bs.length := by
  induction bs with
  | nil => rfl
  | cons b bs ih => rw [List.map_cons, traceClocks_cons, h, ih, List.length_cons, Nat.mul_succ, Nat.add_comm]

@[simp] theorem traceClocks_map_out (w : Width) (bs : List Byte) :
    traceClocks (bs.map (Event.out w)) = cyclesOf w * bs.length :=
  traceClocks_map (c := cyclesOf w) (fun _ => rfl) bs

@[simp] theorem traceClocks_dmyEvents (c : Nat) : traceClocks (dmyEvents c) = c := by
  unfold dmyEvents
  split
  · exact Eq.symm ‹c = 0›
  · rfl

/-- A byte sent and a byte sampled take the same cycles, so the direction of the data does not matter. -/
@[simp] theorem traceClocks_dataEvents (d : Desc) (bs : List Byte) : traceClocks (d.dataEvents bs) =
    if d.dataPresent then cyclesOf (widthOf d.dataLw) * bs.length else 0 := by
  have hb : ∀ b, clocksOf (if d.dirWrite then .out (widthOf d.dataLw) b else .inp (widthOf d.dataLw) b) =
      cyclesOf (widthOf d.dataLw) := by
    intro b
    split <;> rfl
  rw [Desc.dataEvents, traceClocks_ite_nil, traceClocks_map hb]

/-! ## The formulas of R313 -/

/-- The events of R177 take `cycles_A`. -/
theorem traceClocks_traceA (h : bs.length = d.length.toNat) : traceClocks (d.traceA bs) = d.cyclesA := by
  simp [Desc.traceA, Desc.cyclesA, clocksOf, h, Nat.add_assoc]

/-- The events of R217 take `cycles_B`. -/
theorem traceClocks_traceB (h : bs.length = d.length.toNat) : traceClocks (d.traceB bs) = d.cyclesB := by
  simp [Desc.traceB, Desc.cyclesB, clocksOf, h, Nat.add_assoc]

theorem cyclesOf_widthOf (hl : lwLegal lw = true) (h0 : lw ≠ 0) : cyclesOf (widthOf lw) = 8 / lw.toNat := by
  revert lw
  decide

/-- A phase is present only with a number of lines that is not 0 (R135), which gives the cycles of its bytes. -/
theorem phase_cycles {p : Prop} [Decidable p] (hl : lwLegal lw = true) (h0 : p → lw ≠ 0) :
    (if p then cyclesOf (widthOf lw) else 0) = if p then 8 / lw.toNat else 0 :=
  ite_congr rfl (fun hp => cyclesOf_widthOf hl (h0 hp)) fun _ => rfl

/-- The same for a phase of `n` bytes. -/
theorem phase_cycles_mul {p : Prop} [Decidable p] (hl : lwLegal lw = true) (h0 : p → lw ≠ 0) (n : Nat) :
    (if p then cyclesOf (widthOf lw) * n else 0) = if p then 8 / lw.toNat * n else 0 := by
  rw [← ite_zero_mul, phase_cycles hl h0, ite_zero_mul]

theorem instrPresent_lw (h : d.instrPresent = true) : d.instrLw ≠ 0 := of_decide_eq_true h
theorem addrPresent_lw (h : d.addrPresent = true) : d.addrLw ≠ 0 := (of_decide_eq_true h).2
theorem raddrPresent_lw (h : d.raddrPresent = true) : d.addrLw ≠ 0 := (of_decide_eq_true h).2
theorem modePresent_lw (h : d.modePresent = true) : d.altLw ≠ 0 := (of_decide_eq_true h).2
theorem dataPresent_lw (h : d.dataPresent = true) : d.dataLw ≠ 0 := (of_decide_eq_true h).2

/-- `cycles_A` of a valid descriptor, in its numbers of lines. -/
theorem cyclesA_lines (hv : d.validate .A = none) : d.cyclesA =
    (if d.instrPresent then 8 / d.instrLw.toNat else 0) +
    (if d.addrPresent then 8 / d.addrLw.toNat * (d.addrSize + d.altSize) else 0) +
    2 * (d.dummyCycles.toNat / 2) +
    (if d.dataPresent then 8 / d.dataLw.toNat * d.length.toNat else 0) := by
  obtain ⟨hi, ha, -, hd⟩ := validate_widths hv
  rw [Desc.cyclesA, phase_cycles hi instrPresent_lw, phase_cycles_mul ha addrPresent_lw, dummyFrames_toNat,
    phase_cycles_mul hd dataPresent_lw]

/-- `cycles_B` of a valid descriptor, in its numbers of lines. -/
theorem cyclesB_lines (hv : d.validate .B = none) : d.cyclesB =
    (if d.instrPresent then 8 / d.instrLw.toNat else 0) +
    (if d.raddrPresent then 8 / d.addrLw.toNat * d.addrSize else 0) +
    (if d.modePresent then 8 / d.altLw.toNat else 0) +
    d.dummyCycles.toNat +
    (if d.dataPresent then 8 / d.dataLw.toNat * d.length.toNat else 0) := by
  obtain ⟨hi, ha, hm, hd⟩ := validate_widths hv
  rw [Desc.cyclesB, phase_cycles hi instrPresent_lw, phase_cycles_mul ha raddrPresent_lw,
    phase_cycles hm modePresent_lw, phase_cycles_mul hd dataPresent_lw]

/-- Settles O52: the transfer adds the events of R177 or R217, which take the cycles of R313. -/
theorem clockedLength : Obligations.ClockedLength := by
  unfold Obligations.ClockedLength
  intro s u t ts hi h0 he hx ha ht hend
  obtain ⟨-, -, hv⟩ := transfer_accepted hi h0 he hx
  have hinstr : (s.desc.instrPresent = true) = (s.desc.instrLw ≠ 0) := decide_eq_true_eq
  refine ⟨fun hk => ?_, fun hk hok => ?_⟩ <;> rw [hk] at hv
  · rw [transfer_traceA hi h0 he hx ha ht hend hk, traceClocks_append, traceClocks_traceA (bufBytes_length ..),
      cyclesA_lines hv]
    simp only [hinstr]
  · rw [transfer_traceB hi h0 he hx ha ht hend hk hok, traceClocks_append, traceClocks_traceB (bufBytes_length ..),
      cyclesB_lines hv]
    simp only [hinstr]

end Sys2Proof.Machine
end
